-- ==== Sys2Proof/Word.lean ====
section
/-! DEFINITION. The machine's words: the widths the spec fixes (spec/00_scope.md R7, spec/10_state.md R20, R21). -/

namespace Sys2Proof

/-- 8 bits: a pin id, a unit id, a mode register, a patch's mask or value, the `ch` and `sel` fields. -/
abbrev Byte := BitVec 8

/-- 16 bits: the widest timer-unit register (TOP and compare registers of a wide unit). -/
abbrev Half := BitVec 16

/-- 32 bits: a command word, an operand word (Q16.16), a response's data. -/
abbrev Word := BitVec 32

/-- A register address names one whole register, whatever its width (20_memory R50). -/
abbrev RegAddr := BitVec 8

end Sys2Proof
end

