-- ==== Sys2Proof/Config.lean ====
section
/-! DEFINITION. The configuration record CFG (spec/00_scope.md R7): everything the spec leaves to the implementation, as
plain data that every definition takes as an argument; and the free values of a violated calibration contract. The
reference instance REFCFG is in Machine/RefCfg.lean; the well-formedness clauses (R8) are in WellFormed.lean. -/

namespace Sys2Proof

/-- Which of its two bindings the ambiguous pin takes (R7, 40_pinmap R92). -/
inductive Strategy where
  | primary
  | alternate
deriving DecidableEq, Repr

/-- The two kinds of timer unit (41_timer_config R100). -/
inductive Variant where
  /-- 16-bit counter, registers written in one access. -/
  | wide
  /-- 10-bit counter behind an 8-bit bus, registers written by the latch-then-low pair. -/
  | narrow
deriving DecidableEq, Repr

/-- A patch `(reg, mask, value)`, applied by `Rmw` (00_scope section 7 "Mode patch", 20_memory R56). -/
structure Patch where
  reg   : RegAddr
  mask  : Byte
  value : Byte
deriving DecidableEq, Repr

/-- What a supported pin is bound to (40_pinmap R90). -/
structure Binding where
  unit   : Byte
  cmpReg : RegAddr
  patch  : Patch
deriving DecidableEq, Repr

/-- One row of the binding table (40_pinmap R91). -/
structure PinRow where
  pin      : Byte
  /-- The strategy the row belongs to; `none` is the table's "either". -/
  strategy : Option Strategy
  binding  : Binding
deriving DecidableEq, Repr

/-- `UNITCFG[u]`, the settings record of one timer unit (41_timer_config R100), with the unit's id. -/
structure UnitCfg where
  id         : Byte
  variant    : Variant
  cntBits    : Nat
  wgmPatches   : List Patch
  prescPatches : List Patch
  topReg     : RegAddr
  topValue   : Nat
  cmpRegs    : List RegAddr
  /-- The high-byte latch; the spec gives one to narrow units only. -/
  hlatch     : Option RegAddr
  /-- `CPM[u] = cpmNum / cpmDen`, counts per millisecond. -/
  cpmNum     : Nat
  cpmDen     : Nat
deriving DecidableEq, Repr

/-- The configuration record CFG (00_scope R7). -/
structure Config where
  /-- `NCH`. -/
  nch         : Nat
  /-- `PIN_STRATEGY`. -/
  strategy    : Strategy
  /-- `PINMAP`. -/
  pinMap      : List PinRow
  /-- `UNITS` and `UNITCFG` together: the ids are the set UNITS. -/
  units       : List UnitCfg
  /-- `CAL = calNum / calDen`. -/
  calNum      : Nat
  calDen      : Nat
  defMinAngle : Word
  defMaxAngle : Word
  defMinUs    : Word
  defMaxUs    : Word
  refcntBits  : Nat
deriving DecidableEq, Repr

namespace Config

/-- `FRAME_US`, the frame length and upper pulse clamp in microseconds: fixed, not a parameter (00_scope R7). -/
def frameUs : Nat := 20000

/-- The set UNITS. -/
def unitIds (c : Config) : List Byte := c.units.map (·.id)

/-- A row takes part under the selected strategy when it is marked "either" or with that strategy (40_pinmap R91, R92). -/
def rowActive (c : Config) (r : PinRow) : Bool :=
  match r.strategy with
  | none => true
  | some st => st == c.strategy

/-- The binding table as `PIN_STRATEGY` selects it (40_pinmap R92). -/
def activeRows (c : Config) : List PinRow := c.pinMap.filter c.rowActive

/-- Every patch of the units' settings, in table order. -/
def unitPatches (c : Config) : List Patch := c.units.flatMap fun u => u.wgmPatches ++ u.prescPatches

/-- Every patch anywhere in CFG, both strategies' rows among them. -/
def allPatches (c : Config) : List Patch := c.unitPatches ++ c.pinMap.map (·.binding.patch)

/-- The mode registers: those named by the `reg` of a patch (10_state R26). -/
def modeRegs (c : Config) : List RegAddr := c.allPatches.map (·.reg)

/-- TOP, compare and HLATCH registers of every unit (10_state R26). -/
def dataRegs (c : Config) : List RegAddr :=
  c.units.flatMap fun u => u.topReg :: (u.cmpRegs ++ u.hlatch.toList)

/-! Free values, one family for each value that the spec leaves unspecified when a calibration with
MIN_ANGLE ≥ MAX_ANGLE is used (42_converter R113, 43_channel R135, spec/93 U1). No body: nothing can be proved about
them. Each is taken at State's counter `free`, which then advances (log 5, log 6). -/

/-- `data0` of such an A2US. -/
opaque freePulse : Nat → Word
/-- `ANGLE` after such a WRITE on an attached channel. -/
opaque freeAngle : Nat → Word
/-- `ANGLE_VALID` after such a WRITE. -/
opaque freeAngleValid : Nat → Bool
/-- The bound compare register after such a WRITE. -/
opaque freeCompare : Nat → Half
/-- A narrow unit's HLATCH after such a WRITE. -/
opaque freeLatch : Nat → Byte

end Config
end Sys2Proof
end

