-- ==== Sys2Proof/Machine/Memory.lean ====
section
/-! DEFINITION. The register space (spec/20_memory.md R50 to R54): the register file as a list of (address, content)
cells in one canonical form, the kind of the register at an address, and the effect of a bus write on it. -/

namespace Sys2Proof.Machine

/-- The register file. A cell is a register address and the register's content, zero-extended to the widest register's
16 bits: an address names a whole register, not a byte (R50; log 10). -/
abbrev Memory := List (Nat × Half)

namespace Memory

/-- What an unlisted address reads as (log 2). -/
def absent : Half := 0

/-- The content of the register at an address. -/
def read : Memory → Nat → Half
  | [], _ => absent
  | (b, w) :: m, a => if b = a then w else read m a

/-- A cell put in its place in a list that has no cell at its address. -/
def place (a : Nat) (v : Half) : Memory → Memory
  | [] => [(a, v)]
  | (b, w) :: m => if a < b then (a, v) :: (b, w) :: m else (b, w) :: place a v m

/-- The register file with one register's content replaced; content equal to what an unlisted address reads as is not
listed. -/
def write (m : Memory) (a : Nat) (v : Half) : Memory :=
  let rest := m.filter fun c => c.1 != a
  if v = absent then rest else place a v rest

/-- The canonical form: addresses strictly rising, no cell equal to what an unlisted address reads as. -/
abbrev wf (m : Memory) : Prop := m.Pairwise (fun c d => c.1 < d.1) ∧ ∀ c ∈ m, c.2 ≠ absent

end Memory

/-- What kind of register an address names (R51 to R54, 10_state R26). -/
inductive RegKind where
  /-- An 8-bit mode register. -/
  | mode
  /-- The 8-bit high-byte latch of a narrow unit. -/
  | latch
  /-- A 16-bit TOP or compare register of a wide unit. -/
  | wide
  /-- A 10-bit TOP or compare register of a narrow unit, with the address of that unit's latch. -/
  | narrow (hlatch : RegAddr)
deriving DecidableEq, Repr

namespace RegKind

/-- The width in bits (10_state R26). -/
def width : RegKind → Nat
  | mode => 8
  | latch => 8
  | wide => 16
  | narrow _ => 10

end RegKind

/-- The unit that owns a TOP or compare register. -/
def wideOwner (c : Config) (a : RegAddr) : Option UnitCfg :=
  c.units.find? fun u => u.topReg == a || u.cmpRegs.contains a

/-- The register at an address; `none` is an unimplemented address (R51). -/
def regKind (c : Config) (a : RegAddr) : Option RegKind :=
  match wideOwner c a with
  | some u =>
    match u.variant, u.hlatch with
    | .wide, _ => some .wide
    | .narrow, some h => some (.narrow h)
    | .narrow, none => none
  | none =>
    if c.units.any fun u => u.hlatch == some a then some .latch
    else if c.modeRegs.contains a then some .mode
    else none

/-- The ten bits a narrow unit's register takes at the low-byte write: `{HLATCH[1:0], data[7:0]}` (R54). -/
def narrowValue (latch low : Byte) : BitVec 10 := latch.setWidth 2 ++ low

/-- The effect of one bus write on the register file. Every register is written at its own width (R58): an 8-bit register
takes bits 7:0, a wide register bits 15:0, a 10-bit register takes the low byte with its latch's bits 1:0 (R52 to R54).
A write to an unimplemented address changes nothing (spec/93 U5; only a foreign master can make one). -/
def busStore (c : Config) (a : RegAddr) (v : Half) (m : Memory) : Memory :=
  match regKind c a with
  | none => m
  | some .mode => m.write a.toNat ((v.setWidth 8).setWidth 16)
  | some .latch => m.write a.toNat ((v.setWidth 8).setWidth 16)
  | some .wide => m.write a.toNat v
  | some (.narrow h) =>
    m.write a.toNat ((narrowValue ((m.read h.toNat).setWidth 8) (v.setWidth 8)).setWidth 16)

end Sys2Proof.Machine
end

