-- ==== Sys2Proof/Machine/Context.lean ====
section
/-! DEFINITION. The channel context (spec/10_state.md R21), the events of the block's ports (spec/20_memory.md R66,
spec/30_encoding.md R76, spec/60_exceptions.md R169) and what the outside can do (spec/20_memory.md R61,
spec/70_reset_and_hazards.md R180). -/

namespace Sys2Proof.Machine

/-- One channel context (R21); the field names are the spec's. -/
structure Channel where
  /-- `PIN`; 0 means unattached (R22). -/
  pin        : Byte
  /-- `ANGLE_VALID` (R23). -/
  angleValid : Bool
  /-- `ANGLE`, Q16.16 (R23). -/
  angle      : Word
  /-- `MIN_ANGLE`, Q16.16 (R24). -/
  minAngle   : Word
  /-- `MAX_ANGLE`, Q16.16 (R24). -/
  maxAngle   : Word
  /-- `MIN_US`, Q16.16 (R24). -/
  minUs      : Word
  /-- `MAX_US`, Q16.16 (R24). -/
  maxUs      : Word
deriving DecidableEq, Repr

/-- What a channel context holds after reset (R38). -/
def resetChannel (c : Config) : Channel where
  pin := 0
  angleValid := false
  angle := 0
  minAngle := c.defMinAngle
  maxAngle := c.defMaxAngle
  minUs := c.defMinUs
  maxUs := c.defMaxUs

/-- All contexts after reset (R38). -/
def resetChannels (c : Config) : List Channel := List.replicate c.nch (resetChannel c)

/-- The status of a response (30_encoding R77). -/
inductive Status where
  | ok
  | unsupportedPin
  | illegalCommand
deriving DecidableEq, Repr

/-- The 4-bit status code (R77); codes 3 to 15 are never produced. -/
def Status.code : Status → BitVec 4
  | ok => 0
  | unsupportedPin => 1
  | illegalCommand => 2

/-- A response on RESP (30_encoding R76). -/
structure Response where
  status : Status
  flag   : Bool
  data0  : Word
  data1  : Word
deriving DecidableEq, Repr

/-- The direction of a GPIODIR request (60_exceptions R169). -/
inductive Direction where
  | output
  | input
deriving DecidableEq, Repr

/-- One thing the block does on a port, as the event history records it (20_memory R66). -/
inductive Event where
  /-- `Rd(a, v)`: an 8-bit REGBUS read. -/
  | rd (a : RegAddr) (v : Byte)
  /-- `Wr(a, 8, v)`. -/
  | wr8 (a : RegAddr) (v : Byte)
  /-- `Wr(a, 16, v)`. -/
  | wr16 (a : RegAddr) (v : Half)
  /-- `locked (Wr(h, 8, hv); Wr(a, 8, v))`. -/
  | locked (h : RegAddr) (hv : Byte) (a : RegAddr) (v : Byte)
  /-- `GpioDir(pin, d)`. -/
  | gpioDir (pin : Byte) (d : Direction)
  /-- The response that ends a command (R76). -/
  | respond (r : Response)
  /-- Accesses to register `a` that the spec does not specify: those of a WRITE under a violated calibration contract
  (43_channel R135). Log 5. -/
  | unspecified (a : RegAddr)
deriving DecidableEq, Repr

/-- One thing the outside does (00_scope R5, 20_memory R61, 70_reset R180). -/
inductive EnvEvent where
  /-- The host puts further words on CMD. -/
  | send (ws : List Word)
  /-- A foreign master reads a register: no state changes (R62, spec/93 U4). -/
  | foreignRead (a : RegAddr)
  /-- A foreign master writes a register, at that register's own width (R58). Log 17. -/
  | foreignWrite (a : RegAddr) (v : Half)
  /-- The reset event (R180). -/
  | reset
deriving DecidableEq, Repr

end Sys2Proof.Machine
end

