-- ==== Sys2Proof/Machine/RefCfg.lean ====
section
/-! DEFINITION. REFCFG, the spec's reference configuration (spec/00_scope.md R7, spec/40_pinmap.md R91,
spec/41_timer_config.md R101). -/

namespace Sys2Proof.Machine

/-- The binding table of R91, row by row. -/
def refPinMap : List PinRow := [
  { pin := 5,  strategy := none, binding := { unit := 1, cmpReg := 0x13, patch := ⟨0x10, 0xC0, 0x80⟩ } },
  { pin := 6,  strategy := none, binding := { unit := 2, cmpReg := 0x25, patch := ⟨0x20, 0x0C, 0x08⟩ } },
  { pin := 9,  strategy := none, binding := { unit := 0, cmpReg := 0x03, patch := ⟨0x00, 0xC0, 0x80⟩ } },
  { pin := 10, strategy := some .primary,
    binding := { unit := 0, cmpReg := 0x04, patch := ⟨0x00, 0x30, 0x20⟩ } },
  { pin := 10, strategy := some .alternate,
    binding := { unit := 2, cmpReg := 0x24, patch := ⟨0x20, 0x30, 0x20⟩ } },
  { pin := 11, strategy := none, binding := { unit := 0, cmpReg := 0x05, patch := ⟨0x00, 0x0C, 0x08⟩ } },
  { pin := 13, strategy := none, binding := { unit := 2, cmpReg := 0x23, patch := ⟨0x20, 0xC0, 0x80⟩ } } ]

/-- Unit 0 of R101. -/
def refUnit0 : UnitCfg where
  id := 0
  variant := .wide
  cntBits := 16
  wgmPatches := [⟨0x00, 0x03, 0x02⟩, ⟨0x01, 0x18, 0x18⟩]
  prescPatches := [⟨0x01, 0x07, 0x02⟩]
  topReg := 0x02
  topValue := 39999
  cmpRegs := [0x03, 0x04, 0x05]
  hlatch := none
  cpmNum := 2000
  cpmDen := 1

/-- Unit 1 of R101. -/
def refUnit1 : UnitCfg where
  id := 1
  variant := .wide
  cntBits := 16
  wgmPatches := [⟨0x10, 0x03, 0x02⟩, ⟨0x11, 0x18, 0x18⟩]
  prescPatches := [⟨0x11, 0x07, 0x02⟩]
  topReg := 0x12
  topValue := 39999
  cmpRegs := [0x13]
  hlatch := none
  cpmNum := 2000
  cpmDen := 1

/-- Unit 2 of R101. -/
def refUnit2 : UnitCfg where
  id := 2
  variant := .narrow
  cntBits := 10
  wgmPatches := [⟨0x20, 0x03, 0x02⟩, ⟨0x21, 0x30, 0x30⟩]
  prescPatches := [⟨0x21, 0x0F, 0x0A⟩]
  topReg := 0x22
  topValue := 624
  cmpRegs := [0x23, 0x24, 0x25]
  hlatch := some 0x26
  cpmNum := 125
  cpmDen := 4

/-- REFCFG (00_scope R7). -/
def refCfg : Config where
  nch := 6
  strategy := .primary
  pinMap := refPinMap
  units := [refUnit0, refUnit1, refUnit2]
  calNum := 9766
  calDen := 10000
  defMinAngle := 0x00000000
  defMaxAngle := 0x00B40000
  defMinUs := 0x01F40000
  defMaxUs := 0x09C40000
  refcntBits := 8

/-- REFCFG with the other binding of pin 10 (R92). -/
def refCfgAlternate : Config := { refCfg with strategy := .alternate }

end Sys2Proof.Machine
end

