-- ==== Sys2Proof/Machine/State.lean ====
section
/-! DEFINITION. The machine's state as plain data (spec/10_state.md R20 to R34), the named stops, and the state after
reset (R38 to R40, spec/70_reset_and_hazards.md R180 to R182). -/

namespace Sys2Proof.Machine

/-- The whole machine. -/
structure State where
  /-- The channel contexts `ch[0] .. ch[NCH-1]` (R21). -/
  chans  : List Channel
  /-- The attach counters `REFCNT[u]`, by unit id 0 to 15 (R25; log 16). -/
  refcnt : Vector Nat 16
  /-- The timer-unit registers (R26 to R33). -/
  regs   : Memory
  /-- The configuration CFG (00_scope R7); no step changes it (log 1). -/
  cfg    : Config
  /-- The command stream (R36; log 3). -/
  stream : List Word
  /-- The command index: the position of the next unread word (R36). -/
  cpc    : Nat
  /-- The event history (20_memory R66), oldest first; the model's own field (log 9). -/
  log    : List Event
  /-- What the outside does: one list of events per slot, the next slot first; the model's own field (log 7). -/
  env    : List (List EnvEvent)
  /-- The counter the free values are taken at; the model's own field (log 6). -/
  free   : Nat
deriving DecidableEq, Repr

/-- The ways the model stops that are not the instruction's own answer. The hardware has none (60_exceptions R160). -/
inductive Fault where
  /-- Raised by `step` when the command stream is used up and the outside does nothing more: the run is over (10_state
  R36). Safe: the hardware waits. -/
  | commandStreamEnd
  /-- Raised by `step` when the stream ends inside a command and the outside does nothing more: the block waits for ever
  (30_encoding R74, spec/93 U6 "stuck"). Safe. -/
  | commandTruncated
  /-- Raised by `detachCore` and the two writes when an attached channel's pin has no binding, which no run reaches
  (10_state R41 clause 1). Safe. -/
  | unboundChannel
  /-- `CalibrationContract` (60_exceptions R171 (a), 42_converter R113, spec/93 U1). Raised by `strictExec` alone, the machine
  that stops where A2US or an attached WRITE meets MIN_ANGLE ≥ MAX_ANGLE; `step` goes on there with free values (log 5).
  Safe. -/
  | calibrationContract
deriving DecidableEq, Repr

/-- The reasons the model has no meaning. -/
inductive Refusal where
  /-- Raised by an arm of `exec` whose instruction has no meaning yet (there is none). Safe. -/
  | notModelled (mnemonic : String)
  /-- Raised by `step`, and by an operation that needs a unit's settings and finds none, when CFG is ill-formed (00_scope
  R8, 60_exceptions R171). Safe. -/
  | illFormedConfig
  /-- Raised by the bus operations when the block would access an address that has no register of the width of the access
  (20_memory R51, spec/93 U5); a well-formed CFG rules it out. Safe. -/
  | unimplementedRegister (a : RegAddr)
deriving DecidableEq, Repr

namespace State

/-- The machine after reset in configuration `c` with the timer-unit registers holding `regs`, which reset does not touch
(R38 to R40, R181): nothing sent, nothing recorded, a quiet outside. -/
def resetIn (c : Config) (regs : Memory) : State where
  chans := resetChannels c
  refcnt := Vector.replicate 16 0
  regs := regs
  cfg := c
  stream := []
  cpc := 0
  log := []
  env := []
  free := 0

/-- The machine right after reset: REFCFG (log 1), the timer-unit registers at zero (log 2), no command sent (log 3). -/
def reset : State := resetIn refCfg []

end State
end Sys2Proof.Machine
end

