-- ==== Sys2Proof/Syntax.lean ====
section
/-! DEFINITION. The eleven commands (spec/30_encoding.md R72, spec/opcode_table.json), one constructor per row. -/

namespace Sys2Proof

/-- A command. `ch` is a channel index, `pin` and `unit` are the `sel` field, every other argument is an operand word, a
Q16.16 value, in the order of R72. -/
inductive Instr where
  /-- LOOKUP pin (R94). -/
  | lookup (pin : Byte)
  /-- CONFIGURE unit (R103). -/
  | configure (unit : Byte)
  /-- A2US angle, min_angle, max_angle, min_us, max_us (R115). -/
  | a2us (angle minAngle maxAngle minUs maxUs : Word)
  /-- US2CNT unit, us (R118). -/
  | us2cnt (unit : Byte) (us : Word)
  /-- ATTACH ch, pin (R133). -/
  | attach (ch pin : Byte)
  /-- ATTACHX ch, pin, min_angle, max_angle, min_us, max_us (R132). -/
  | attachx (ch pin : Byte) (minAngle maxAngle minUs maxUs : Word)
  /-- DETACH ch (R134). -/
  | detach (ch : Byte)
  /-- WRITE ch, angle (R135). -/
  | write (ch : Byte) (angle : Word)
  /-- WRITEUS ch, us (R136). -/
  | writeus (ch : Byte) (us : Word)
  /-- READ ch (R137). -/
  | read (ch : Byte)
  /-- ATTACHED ch (R138). -/
  | attached (ch : Byte)
deriving DecidableEq, Repr

namespace Instr

/-- The `ch` field of a command that uses one (R72, column "uses"). -/
def channel? : Instr → Option Byte
  | lookup _ => none
  | configure _ => none
  | a2us _ _ _ _ _ => none
  | us2cnt _ _ => none
  | attach ch _ => some ch
  | attachx ch _ _ _ _ _ => some ch
  | detach ch => some ch
  | write ch _ => some ch
  | writeus ch _ => some ch
  | read ch => some ch
  | attached ch => some ch

/-- The unit id of a command that names a unit (CONFIGURE, US2CNT; R75 clause 4). -/
def unit? : Instr → Option Byte
  | lookup _ => none
  | configure u => some u
  | a2us _ _ _ _ _ => none
  | us2cnt u _ => some u
  | attach _ _ => none
  | attachx _ _ _ _ _ _ => none
  | detach _ => none
  | write _ _ => none
  | writeus _ _ => none
  | read _ => none
  | attached _ => none

end Instr
end Sys2Proof
end

