-- ==== Sys2Proof/WellFormed.lean ====
section
/-! DEFINITION. The checks on syntax and configuration: the clauses of spec/00_scope.md R8 (and the constraints of R7)
on CFG, and clauses 3 and 4 of spec/30_encoding.md R75 on a command. -/

namespace Sys2Proof

namespace Config

/-- The "constraint" column of R7, with the number of compare registers of 10_state R26. That a unit has one or more mode
registers, which R26 also says, is no clause of R8 and is not asked: the model's choice (log 22). -/
abbrev ParamsOk (c : Config) : Prop :=
  1 ≤ c.nch ∧ c.nch ≤ 256 ∧ 0 < c.calNum ∧ 0 < c.calDen ∧ c.nch < 2 ^ c.refcntBits ∧ c.unitIds.Nodup ∧
  ∀ u ∈ c.units, u.id.toNat < 16 ∧ 1 ≤ u.cmpRegs.length ∧ u.cmpRegs.length ≤ 3 ∧ 0 < u.cpmNum ∧ 0 < u.cpmDen

/-- R8 clause 1: pin 0, the unattached sentinel, is not in the domain of PINMAP. -/
abbrev PinZeroFree (c : Config) : Prop := ∀ r ∈ c.pinMap, r.pin ≠ 0

/-- PINMAP gives a pin at most one binding under the selected strategy (40_pinmap R90: `Lookup` is a function). Log 11. -/
abbrev PinMapFunctional (c : Config) : Prop := (c.activeRows.map (·.pin)).Nodup

/-- R8 clause 2: every binding's unit is in UNITS, its compare register is one of that unit's, and its patch register is
an 8-bit mode register (so none of the TOP, compare and HLATCH registers). -/
abbrev BindingsOk (c : Config) : Prop :=
  ∀ r ∈ c.pinMap, (∃ u ∈ c.units, u.id = r.binding.unit ∧ r.binding.cmpReg ∈ u.cmpRegs) ∧
    r.binding.patch.reg ∉ c.dataRegs

/-- R8 clause 3: under the selected strategy two pins never share a compare register. -/
abbrev CompareRegsDistinct (c : Config) : Prop := (c.activeRows.map (·.binding.cmpReg)).Nodup

/-- R8 clause 4: a patch sets no bit outside its mask. -/
abbrev PatchValuesOk (c : Config) : Prop := ∀ p ∈ c.allPatches, p.value &&& ~~~p.mask = 0

/-- Two patches do not meet: they name different registers or disjoint bits. -/
abbrev PatchesDisjoint (p q : Patch) : Prop := p.reg ≠ q.reg ∨ p.mask &&& q.mask = 0

/-- R8 clause 5: within one register the masks of the units' waveform-mode and prescaler patches and of the pins' mode
patches are pairwise disjoint. Log 12. -/
abbrev MasksDisjoint (c : Config) : Prop :=
  (c.unitPatches ++ c.activeRows.map (·.binding.patch)).Pairwise PatchesDisjoint

/-- R8 clause 6: the counter's range covers at least 20 ms, and TOP fits the counter. -/
abbrev RangesOk (c : Config) : Prop :=
  ∀ u ∈ c.units, 20 * u.cpmNum ≤ 2 ^ u.cntBits * u.cpmDen ∧ u.topValue < 2 ^ u.cntBits

/-- R8 clause 7: the counter width of each variant, and a narrow unit's HLATCH (a wide unit has none, R100). -/
abbrev VariantsOk (c : Config) : Prop :=
  ∀ u ∈ c.units,
    (u.variant = .wide ∧ u.cntBits = 16 ∧ u.hlatch = none) ∨
    (u.variant = .narrow ∧ u.cntBits = 10 ∧ u.hlatch.isSome)

/-- R8 clause 8: DEF_MIN_ANGLE < DEF_MAX_ANGLE, as signed Q16.16 values. -/
abbrev DefaultsOk (c : Config) : Prop := c.defMinAngle.toInt < c.defMaxAngle.toInt

/-- Each address names one register (20_memory R50): the TOP, compare and HLATCH registers of all units are different,
and no mode register is one of them. Log 11. -/
abbrev AddressesOk (c : Config) : Prop := c.dataRegs.Nodup ∧ ∀ p ∈ c.unitPatches, p.reg ∉ c.dataRegs

/-- A well-formed configuration (00_scope R8), with the further clauses of log 11 and log 12. That exactly one supported pin
has two bindings, one for each strategy (40_pinmap R92), is no clause of R8 and is not asked: a PINMAP with no such pin,
with several, or with a pin bound under one strategy only is run (log 21). Nor is it asked that every unit has a mode register
(10_state R26): a unit without any patch is run (log 22). -/
abbrev WellFormed (c : Config) : Prop :=
  c.ParamsOk ∧ c.PinZeroFree ∧ c.PinMapFunctional ∧ c.BindingsOk ∧ c.CompareRegsDistinct ∧ c.PatchValuesOk ∧
  c.MasksDisjoint ∧ c.RangesOk ∧ c.VariantsOk ∧ c.DefaultsOk ∧ c.AddressesOk

end Config

namespace Instr

/-- R75 clause 3: a command that uses `ch` names an existing channel context. -/
abbrev ChannelOk (c : Config) (i : Instr) : Prop := ∀ ch ∈ i.channel?, ch.toNat < c.nch

/-- R75 clause 4: CONFIGURE and US2CNT name a unit of UNITS. -/
abbrev UnitOk (c : Config) (i : Instr) : Prop := ∀ u ∈ i.unit?, u ∈ c.unitIds

/-- A legal command of configuration `c`. Clauses 1 and 2 of R75 are about words that are no command at all: the decoder
refuses those by name (Decode.lean). -/
abbrev WellFormed (c : Config) (i : Instr) : Prop := i.ChannelOk c ∧ i.UnitOk c

end Instr
end Sys2Proof
end

