-- ==== Sys2Proof/Machine/Operands.lean ====
section
/-! DEFINITION. Operand forms: Q16.16 words (spec/00_scope.md R10, R11, spec/30_encoding.md R73), channel and unit
operands (R71, R75), and the reads and writes of the channel contexts and attach counters. -/

namespace Sys2Proof.Machine

/-! Q16.16 operands. -/

/-- `raw(x)`: the operand word as a two's-complement integer (R10). -/
def raw (w : Word) : Int := w.toInt

/-- `US[31:0]`: a raw value put back into a word (R115, R135). -/
def wordOf (x : Int) : Word := BitVec.ofInt 32 x

/-- `clamp(x, lo, hi)` on raw integers, used with `lo ≤ hi` only (R11). -/
def clamp (x lo hi : Int) : Int := if x < lo then lo else if hi < x then hi else x

/-! The `sel` field as a unit id. -/

/-- The settings of a unit, if the id is in UNITS. -/
def unitCfg? (c : Config) (u : Byte) : Option UnitCfg := c.units.find? fun x => x.id == u

/-! The `ch` field as a channel context. -/

namespace State

/-- `ch[c]`. -/
def chan (s : State) (ch : Byte) : Channel := s.chans.getD ch.toNat (resetChannel s.cfg)

/-- `ch[c] <- x`. -/
def setChan (s : State) (ch : Byte) (x : Channel) : State := { s with chans := s.chans.set ch.toNat x }

/-- `REFCNT[u]`. -/
def refcount (s : State) (u : Byte) : Nat := s.refcnt[u.toNat]?.getD 0

/-- `REFCNT[u] <- n`, an unsigned counter of REFCNT_BITS bits (10_state R25). -/
def setRefcount (s : State) (u : Byte) (n : Nat) : State :=
  { s with refcnt := s.refcnt.setIfInBounds u.toNat (n % 2 ^ s.cfg.refcntBits) }

/-- `REFCNT[u] <- REFCNT[u] + 1`. -/
def incRefcount (s : State) (u : Byte) : State := s.setRefcount u (s.refcount u + 1)

/-- `REFCNT[u] <- REFCNT[u] - 1`. -/
def decRefcount (s : State) (u : Byte) : State := s.setRefcount u (s.refcount u + 2 ^ s.cfg.refcntBits - 1)

/-- The content of the register at an address (R67: the registers are state, at their full width). -/
def reg (s : State) (a : RegAddr) : Half := s.regs.read a.toNat

/-- The content of an 8-bit register. -/
def reg8 (s : State) (a : RegAddr) : Byte := (s.reg a).setWidth 8

end State
end Sys2Proof.Machine
end

