-- ==== Sys2Proof/Machine/Flags.lean ====
section
/-! DEFINITION. The block has no condition codes and no status register (spec/10_state.md R35). Its only flag is
`ANGLE_VALID`, its only predicates are `attached(c)` and `REFCNT[u] = 0`, and a response carries one flag bit. -/

namespace Sys2Proof.Machine

namespace Channel

/-- `attached(c)`: bound to a nonzero pin id (R22). -/
def attached (x : Channel) : Bool := x.pin != 0

/-- Attached, and to another pin than `pin` (43_channel R131 step 1, "already attached elsewhere"). -/
def attachedElsewhere (x : Channel) (pin : Byte) : Bool := x.attached && x.pin != pin

/-- The calibration contract MIN_ANGLE < MAX_ANGLE (42_converter R113). -/
def contractKept (x : Channel) : Bool := raw x.minAngle < raw x.maxAngle

/-- READ's response flag (30_encoding R76). -/
def readFlag (x : Channel) : Bool := x.angleValid

/-- READ's data: the angle when one is stored, else 0 (R76). -/
def readData (x : Channel) : Word := if x.angleValid then x.angle else 0

/-- ATTACHED's data (R76). -/
def attachedData (x : Channel) : Word := if x.attached then 1 else 0

end Channel

/-- "Already configured": the unit's attach counter is not 0 (10_state R25, 43_channel R131). -/
def State.configured (s : State) (u : Byte) : Bool := s.refcount u != 0

end Sys2Proof.Machine
end

