-- ==== Sys2Proof/Machine/Ops.lean ====
section
/-! DEFINITION. The operations the commands share: the outside's slots, the four ports (REGBUS accesses of
spec/20_memory.md section 2, GPIODIR, RESP), the reset event, and the two error answers. The block takes no exception and
returns from none (spec/60_exceptions.md R160, R165, R166): an error is a response, `respond` below. -/

namespace Sys2Proof.Machine

/-- How a step ends before its command is complete. -/
inductive Stop where
  /-- The step ends in this state: a reset abandoned the command, or no command was there to take. -/
  | ended (s : State)
  | fault (f : Fault)
  | refused (r : Refusal)
deriving DecidableEq, Repr

/-- A command part-way through, or stopped. -/
abbrev Run := Except Stop State

/-- The outcome of a step whose command ran to its end or was stopped. -/
def finish : Run → Host.Outcome State Fault Refusal
  | .ok s => .next s
  | .error (.ended s) => .next s
  | .error (.fault f) => .fault f
  | .error (.refused r) => .refused r

/-! The outside. -/

namespace State

/-- The reset event (70_reset R180, R181): every channel context and every attach counter takes its reset value, and
nothing else changes; the timer-unit registers keep what they hold. -/
def resetEvent (s : State) : State :=
  { s with chans := resetChannels s.cfg, refcnt := Vector.replicate 16 0 }

/-- One bus write, by the block or by a foreign master. -/
def store (s : State) (a : RegAddr) (v : Half) : State := { s with regs := busStore s.cfg a v s.regs }

/-- The history with one more event (20_memory R66). -/
def emit (s : State) (e : Event) : State := { s with log := s.log ++ [e] }

/-- The counter of free values moved past the values just taken (log 6). -/
def takeFree (s : State) : State := { s with free := s.free + 1 }

/-- One event of the outside. -/
def applyEvent (s : State) : EnvEvent → State
  | .send ws => { s with stream := s.stream ++ ws }
  | .foreignRead _ => s
  | .foreignWrite a v => s.store a v
  | .reset => s.resetEvent

/-- The events of one slot, in order. -/
def applyEvents (s : State) (es : List EnvEvent) : State := es.foldl applyEvent s

end State

/-- The slot before a port action: the outside's events of that slot happen, in order; a reset among them abandons the
command, without a response (70_reset R180). Words on CMD that belong to later commands stay, also when they are only the
beginning of the next command: the model's choice, where a reset between commands drops such words if no whole command
stands before them (log 8). -/
def portSlot (s : State) : Run :=
  match s.env with
  | [] => .ok s
  | slot :: later =>
    let t := ({ s with env := later } : State).applyEvents slot
    if EnvEvent.reset ∈ slot then .error (.ended t) else .ok t

/-! REGBUS (20_memory R52 to R57). -/

/-- The block's refusal to access an address with no register of that width (R51). -/
def noRegister {α : Type} (a : RegAddr) : Except Stop α := .error (.refused (.unimplementedRegister a))

/-- `MemRead(a, 8)`; the block reads mode registers only (R52, R67). -/
def memRead8 (a : RegAddr) (s : State) : Except Stop (Byte × State) := do
  let t ← portSlot s
  if regKind t.cfg a = some .mode then .ok (t.reg8 a, t.emit (.rd a (t.reg8 a))) else noRegister a

/-- `MemWrite(a, 8, v)` on a mode register (R52). -/
def memWrite8 (a : RegAddr) (v : Byte) (s : State) : Run := do
  let t ← portSlot s
  if regKind t.cfg a = some .mode then .ok ((t.store a (v.setWidth 16)).emit (.wr8 a v)) else noRegister a

/-- `MemWrite(a, 16, v)` on a wide unit's register (R53). -/
def memWrite16 (a : RegAddr) (v : Half) (s : State) : Run := do
  let t ← portSlot s
  if regKind t.cfg a = some .wide then .ok ((t.store a v).emit (.wr16 a v)) else noRegister a

/-- The latch byte of a 10-bit value: `zext_8(v[9:8])` (R54). -/
def latchByte (v : Half) : Byte := (v.extractLsb' 8 2).setWidth 8

/-- The low byte of a 10-bit value: `v[7:0]` (R54). -/
def lowByte (v : Half) : Byte := v.setWidth 8

/-- The locked latch-then-low pair of a narrow unit: two writes, and no slot of the outside between them (R54, R55). -/
def memWriteLocked (h a : RegAddr) (v : Half) (s : State) : Run := do
  let t ← portSlot s
  if regKind t.cfg a = some (.narrow h) then
    .ok (((t.store h ((latchByte v).setWidth 16)).store a ((lowByte v).setWidth 16)).emit
      (.locked h (latchByte v) a (lowByte v)))
  else noRegister a

/-- The byte `Rmw` writes back (R56). -/
def patched (p : Patch) (old : Byte) : Byte := (old &&& ~~~p.mask) ||| (p.value &&& p.mask)

/-- `Rmw(reg, mask, value)`: one read, one write, not locked (R56). -/
def rmw (p : Patch) (s : State) : Run := do
  let (old, t) ← memRead8 p.reg s
  memWrite8 p.reg (patched p old) t

/-- `WideWrite(u, a, v)`, by the protocol of the unit's variant (R57). -/
def wideWrite (u : UnitCfg) (a : RegAddr) (v : Half) (s : State) : Run :=
  match u.variant, u.hlatch with
  | .wide, _ => memWrite16 a v s
  | .narrow, some h => memWriteLocked h a v s
  | .narrow, none => .error (.refused .illFormedConfig)

/-! GPIODIR and RESP. -/

/-- `GpioDir(pin, d)` (60_exceptions R169): a request, recorded in the history; the block keeps nothing of it. -/
def gpioDir (pin : Byte) (d : Direction) (s : State) : Run := do
  let t ← portSlot s
  .ok (t.emit (.gpioDir pin d))

/-- `respond(status, flag, d0, d1)` (30_encoding R76): the command's one response, after all its other effects. -/
def respond (r : Response) (s : State) : Run := do
  let t ← portSlot s
  .ok (t.emit (.respond r))

/-- `respond(OK, 0, d0, d1)`. -/
def okData (d0 d1 : Word) : Response := { status := .ok, flag := false, data0 := d0, data1 := d1 }

/-- `respond(OK)`. -/
def okResponse : Response := okData 0 0

/-- `respond(UNSUPPORTED_PIN)` (60_exceptions R161). -/
def unsupportedPin : Response := { status := .unsupportedPin, flag := false, data0 := 0, data1 := 0 }

/-- `respond(ILLEGAL_COMMAND)` (30_encoding R75, 60_exceptions R162). -/
def illegalCommand : Response := { status := .illegalCommand, flag := false, data0 := 0, data1 := 0 }

/-! The checks of R75 that need the configuration. -/

/-- A command that uses `ch`: clause 3, then its effect on the named context. -/
def onChannel (ch : Byte) (s : State) (run : Channel → Run) : Host.Outcome State Fault Refusal :=
  finish (if ch.toNat < s.cfg.nch then run (s.chan ch) else respond illegalCommand s)

/-- A command that names a unit: clause 4, then its effect on the named unit. -/
def onUnit (u : Byte) (s : State) (run : UnitCfg → Run) : Host.Outcome State Fault Refusal :=
  finish (match unitCfg? s.cfg u with
    | some x => run x
    | none => respond illegalCommand s)

/-- The settings of a unit that CFG's tables name; a table that names an absent unit is ill-formed (00_scope R8). -/
def needUnit (u : Byte) (s : State) : Except Stop UnitCfg :=
  match unitCfg? s.cfg u with
  | some x => .ok x
  | none => .error (.refused .illFormedConfig)

end Sys2Proof.Machine
end

