-- ==== Sys2Proof/Machine/Converter.lean ====
section
/-! DEFINITION. PulseWidthConverter (spec/42_converter.md): the two pure functions, A2US and US2CNT. Arithmetic is exact
in the integers; `/` is by a positive divisor and rounds toward minus infinity (R112). -/

namespace Sys2Proof.Machine

/-- `A2usF(A, LO, HI, ULO, UHI)` on raw integers, for `LO < HI` (R114). -/
def a2usF (a lo hi ulo uhi : Int) : Int :=
  ulo + ((uhi - ulo) * (clamp a lo hi - lo)) / (hi - lo)

/-- The upper pulse clamp, `FRAME_US * 65536` (R116). -/
def maxPulse : Int := (Config.frameUs : Int) * 65536

/-- `full` of R116: the exact count, floored, before the reduction to the register width. -/
def fullCount (c : Config) (u : UnitCfg) (us : Int) : Int :=
  (u.cpmNum * clamp us 0 maxPulse * c.calNum) / (u.cpmDen * 65536 * 1000 * c.calDen)

/-- `Us2cntF(u, US)`, a natural number below `2^cnt_bits` (R116, R117). -/
def us2cntF (c : Config) (u : UnitCfg) (us : Int) : Nat := (fullCount c u us).toNat % 2 ^ u.cntBits

/-- The count as a compare register's content. -/
def countReg (c : Config) (u : UnitCfg) (us : Int) : Half := BitVec.ofNat 16 (us2cntF c u us)

/-- A2US's data0 and the counter of free values after it: the pulse width when min_angle < max_angle, else a free value
(R113, R115; log 5). -/
def a2usData (angle minAngle maxAngle minUs maxUs : Word) (s : State) : Word × State :=
  if raw minAngle < raw maxAngle then
    (wordOf (a2usF (raw angle) (raw minAngle) (raw maxAngle) (raw minUs) (raw maxUs)), s)
  else (Config.freePulse s.free, s.takeFree)

/-- A2US angle, min_angle, max_angle, min_us, max_us (R115). -/
def execA2us (angle minAngle maxAngle minUs maxUs : Word) (s : State) : Host.Outcome State Fault Refusal :=
  let (us, t) := a2usData angle minAngle maxAngle minUs maxUs s
  finish (respond (okData us 0) t)

/-- US2CNT unit, us (R118). -/
def execUs2cnt (unit : Byte) (us : Word) (s : State) : Host.Outcome State Fault Refusal :=
  onUnit unit s fun u => respond (okData (BitVec.ofNat 32 (us2cntF s.cfg u (raw us))) 0) s

end Sys2Proof.Machine
end

