-- ==== Sys2Proof/Machine/PinMap.lean ====
section
/-! DEFINITION. PinTimerMap (spec/40_pinmap.md): the binding table, the compare-register multiplexer, mode-patch dispatch,
and LOOKUP. -/

namespace Sys2Proof.Machine

/-- `Lookup(pin)`: pure, reads only PINMAP and PIN_STRATEGY (R90, R92); `none` is `UnsupportedPin`. -/
def lookup (c : Config) (pin : Byte) : Option Binding :=
  (c.activeRows.find? fun r => r.pin == pin).map (·.binding)

/-- The binding of an attached channel's pin: it has one, by 10_state R41 clause 1 (43_channel R130, R135, R136). -/
def boundTo (pin : Byte) (s : State) : Except Stop Binding :=
  match lookup s.cfg pin with
  | some b => .ok b
  | none => .error (.fault .unboundChannel)

/-- `CmpWrite(pin, count)` for a pin bound by `b` to a unit with settings `u` (R95). -/
def cmpWrite (u : UnitCfg) (b : Binding) (count : Half) (s : State) : Run := wideWrite u b.cmpReg count s

/-- `ApplyModePatch(pin)` for a pin bound by `b` (R96). -/
def applyModePatch (b : Binding) (s : State) : Run := rmw b.patch s

/-- LOOKUP's data0: `{0x0000, unit[7:0], cmp_reg[7:0]}` (R94). -/
def lookupData0 (b : Binding) : Word := (0 : BitVec 16) ++ b.unit ++ b.cmpReg

/-- LOOKUP's data1: `{0x00, patch.reg[7:0], patch.mask[7:0], patch.value[7:0]}` (R94). -/
def lookupData1 (b : Binding) : Word := (0 : BitVec 8) ++ b.patch.reg ++ b.patch.mask ++ b.patch.value

/-- The response to LOOKUP (R94). -/
def lookupResponse (c : Config) (pin : Byte) : Response :=
  match lookup c pin with
  | none => unsupportedPin
  | some b => okData (lookupData0 b) (lookupData1 b)

/-- LOOKUP pin (R94). -/
def execLookup (pin : Byte) (s : State) : Host.Outcome State Fault Refusal :=
  finish (respond (lookupResponse s.cfg pin) s)

end Sys2Proof.Machine
end

