-- ==== Sys2Proof/Machine/TimerConfig.lean ====
section
/-! DEFINITION. TimerConfigurator (spec/41_timer_config.md): `Configure(u)` and CONFIGURE. -/

namespace Sys2Proof.Machine

/-- A list of patches, one `Rmw` each, in list order (R102). -/
def applyPatches : List Patch → State → Run
  | [], s => .ok s
  | p :: ps, s => do
    let t ← rmw p s
    applyPatches ps t

/-- `Configure(u)`: waveform patches, prescaler patches, TOP (R102). -/
def configure (u : UnitCfg) (s : State) : Run := do
  let s1 ← applyPatches u.wgmPatches s
  let s2 ← applyPatches u.prescPatches s1
  wideWrite u u.topReg (BitVec.ofNat 16 u.topValue) s2

/-- CONFIGURE unit (R103): always the whole sequence; REFCNT is neither read nor changed. -/
def execConfigure (unit : Byte) (s : State) : Host.Outcome State Fault Refusal :=
  onUnit unit s fun u => do
    let t ← configure u s
    respond okResponse t

end Sys2Proof.Machine
end

