-- ==== Sys2Proof/Machine/Channels.lean ====
section
/-! DEFINITION. ServoChannel (spec/43_channel.md): `DetachCore`, `AttachCore` and the seven channel commands. -/

namespace Sys2Proof.Machine

/-- The four calibration arguments of an attach, Q16.16 (R131). -/
structure Calibration where
  minAngle : Word
  maxAngle : Word
  minUs    : Word
  maxUs    : Word
deriving DecidableEq, Repr

/-- The calibration a channel holds (R133). -/
def Channel.calibration (x : Channel) : Calibration := ⟨x.minAngle, x.maxAngle, x.minUs, x.maxUs⟩

/-- R131 step 4 on one context. -/
def Channel.calibrated (x : Channel) (k : Calibration) : Channel :=
  { x with minAngle := k.minAngle, maxAngle := k.maxAngle, minUs := k.minUs, maxUs := k.maxUs }

/-- The last two effects of `DetachCore` (R130): the unit's counter goes down and the context is unattached. -/
def unbind (ch : Byte) (b : Binding) (s : State) : State :=
  (s.decRefcount b.unit).setChan ch { s.chan ch with pin := 0 }

/-- `DetachCore(c)` for an attached channel (R130). -/
def detachCore (ch : Byte) (s : State) : Run := do
  let pin := (s.chan ch).pin
  let b ← boundTo pin s
  let u ← needUnit b.unit s
  let s1 ← cmpWrite u b 0 s
  let s2 ← gpioDir pin .input s1
  .ok (unbind ch b s2)

/-- R131 steps 4 and 5: the calibration is stored; a channel that is not yet on the pin is bound to it and counted. -/
def bindChannel (ch pin : Byte) (b : Binding) (k : Calibration) (s : State) : State :=
  let x := (s.chan ch).calibrated k
  if x.pin = pin then s.setChan ch x else (s.incRefcount b.unit).setChan ch { x with pin := pin }

/-- R131 step 3, first line: `Configure` when no channel is attached to the unit. -/
def configureIfFirst (b : Binding) (s : State) : Run :=
  if s.configured b.unit then .ok s
  else do
    let u ← needUnit b.unit s
    configure u s

/-- R131 steps 3 to 7, for a supported pin. -/
def attachBound (ch pin : Byte) (b : Binding) (k : Calibration) (s : State) : Run := do
  let s1 ← configureIfFirst b s
  let s2 ← applyModePatch b s1
  let s3 ← gpioDir pin .output (bindChannel ch pin b k s2)
  respond okResponse s3

/-- R131 step 1: a channel that is attached elsewhere is detached first. -/
def detachElsewhere (ch pin : Byte) (s : State) : Run :=
  if (s.chan ch).attachedElsewhere pin then detachCore ch s else .ok s

/-- `AttachCore(c, pin, mina, maxa, minus, maxus)` (R131). -/
def attachCore (ch pin : Byte) (k : Calibration) (s : State) : Run := do
  let t ← detachElsewhere ch pin s
  match lookup t.cfg pin with
  | none => respond unsupportedPin t
  | some b => attachBound ch pin b k t

/-- ATTACHX ch, pin, min_angle, max_angle, min_us, max_us (R132). -/
def execAttachx (ch pin : Byte) (minAngle maxAngle minUs maxUs : Word) (s : State) :
    Host.Outcome State Fault Refusal :=
  onChannel ch s fun _ => attachCore ch pin ⟨minAngle, maxAngle, minUs, maxUs⟩ s

/-- ATTACH ch, pin: the stored calibration, read before step 1 (R133). -/
def execAttach (ch pin : Byte) (s : State) : Host.Outcome State Fault Refusal :=
  onChannel ch s fun x => attachCore ch pin x.calibration s

/-- DETACH ch (R134): a complete no-op on an unattached channel. -/
def execDetach (ch : Byte) (s : State) : Host.Outcome State Fault Refusal :=
  onChannel ch s fun x => do
    let t ← if x.attached then detachCore ch s else .ok s
    respond okResponse t

/-- The context after a WRITE under the contract: the clamped angle, valid (R135). -/
def Channel.written (x : Channel) (angle : Word) : Channel :=
  { x with angle := wordOf (clamp (raw angle) (raw x.minAngle) (raw x.maxAngle)), angleValid := true }

/-- The pulse width of a WRITE under the contract: R114 on the clamped angle (R120, R135). -/
def Channel.pulse (x : Channel) (angle : Word) : Int :=
  a2usF (clamp (raw angle) (raw x.minAngle) (raw x.maxAngle)) (raw x.minAngle) (raw x.maxAngle) (raw x.minUs)
    (raw x.maxUs)

/-- WRITE on an attached channel under the contract (R135). -/
def writeAngle (ch : Byte) (x : Channel) (angle : Word) (s : State) : Run := do
  let s1 := s.setChan ch (x.written angle)
  let b ← boundTo x.pin s1
  let u ← needUnit b.unit s1
  cmpWrite u b (countReg s.cfg u (x.pulse angle)) s1

/-- The registers a WRITE under a violated contract may leave with any value: the bound compare register and, on a narrow
unit, HLATCH (R135). -/
def freeRegs (u : UnitCfg) (b : Binding) (s : State) : State :=
  match u.variant, u.hlatch with
  | .narrow, some h =>
    ({ s with regs := (s.regs.write h.toNat ((Config.freeLatch s.free).setWidth 16)).write b.cmpReg.toNat
                ((Config.freeCompare s.free).setWidth 10 |>.setWidth 16) }.emit
      (.unspecified h)).emit (.unspecified b.cmpReg)
  | _, _ =>
    { s with regs := s.regs.write b.cmpReg.toNat (Config.freeCompare s.free) }.emit (.unspecified b.cmpReg)

/-- The bounded effect of a WRITE under a violated contract: ANGLE, ANGLE_VALID, the bound compare register and a narrow
unit's HLATCH take free values, nothing else changes (R135; log 5). -/
def unspecifiedWrite (ch : Byte) (x : Channel) (u : UnitCfg) (b : Binding) (s : State) : State :=
  ((freeRegs u b s).setChan ch
    { x with angle := Config.freeAngle s.free, angleValid := Config.freeAngleValid s.free }).takeFree

/-- WRITE on an attached channel under a violated contract (R135). One slot of the outside comes before its effect. -/
def writeUnspecified (ch : Byte) (x : Channel) (s : State) : Run := do
  let b ← boundTo x.pin s
  let u ← needUnit b.unit s
  let t ← portSlot s
  .ok (unspecifiedWrite ch x u b t)

/-- WRITE ch, angle (R135): a no-op answering OK on an unattached channel. -/
def execWrite (ch : Byte) (angle : Word) (s : State) : Host.Outcome State Fault Refusal :=
  onChannel ch s fun x => do
    let t ←
      if x.attached then
        if x.contractKept then writeAngle ch x angle s else writeUnspecified ch x s
      else .ok s
    respond okResponse t

/-- WRITEUS on an attached channel (R136); the calibration is not read. -/
def writePulse (x : Channel) (us : Word) (s : State) : Run := do
  let b ← boundTo x.pin s
  let u ← needUnit b.unit s
  cmpWrite u b (countReg s.cfg u (raw us)) s

/-- WRITEUS ch, us (R136): a no-op answering OK on an unattached channel. -/
def execWriteus (ch : Byte) (us : Word) (s : State) : Host.Outcome State Fault Refusal :=
  onChannel ch s fun x => do
    let t ← if x.attached then writePulse x us s else .ok s
    respond okResponse t

/-- READ ch (R137). -/
def execRead (ch : Byte) (s : State) : Host.Outcome State Fault Refusal :=
  onChannel ch s fun x =>
    respond { status := .ok, flag := x.readFlag, data0 := x.readData, data1 := 0 } s

/-- ATTACHED ch (R138). -/
def execAttached (ch : Byte) (s : State) : Host.Outcome State Fault Refusal :=
  onChannel ch s fun x => respond (okData x.attachedData 0) s

end Sys2Proof.Machine
end

