-- ==== Sys2Proof/Machine/Dispatch.lean ====
section
/-! DEFINITION. One arm per constructor of Instr (spec/30_encoding.md R72, column "semantics"). -/

namespace Sys2Proof.Machine

def exec (i : Instr) (s : State) : Host.Outcome State Fault Refusal :=
  match i with
  | .lookup pin => Sys2Proof.Machine.execLookup pin s
  | .configure unit => Sys2Proof.Machine.execConfigure unit s
  | .a2us angle minAngle maxAngle minUs maxUs => Sys2Proof.Machine.execA2us angle minAngle maxAngle minUs maxUs s
  | .us2cnt unit us => Sys2Proof.Machine.execUs2cnt unit us s
  | .attach ch pin => Sys2Proof.Machine.execAttach ch pin s
  | .attachx ch pin minAngle maxAngle minUs maxUs => Sys2Proof.Machine.execAttachx ch pin minAngle maxAngle minUs maxUs s
  | .detach ch => Sys2Proof.Machine.execDetach ch s
  | .write ch angle => Sys2Proof.Machine.execWrite ch angle s
  | .writeus ch us => Sys2Proof.Machine.execWriteus ch us s
  | .read ch => Sys2Proof.Machine.execRead ch s
  | .attached ch => Sys2Proof.Machine.execAttached ch s

end Sys2Proof.Machine
end

