-- ==== Sys2Proof/Decode.lean ====
section
/-! DEFINITION. Command decoding, total on every list of words, refusing by name (spec/30_encoding.md R70 to R78), and
after it the encoder written from the same table. -/

namespace Sys2Proof

/-- The rows of the opcode map (R72). -/
inductive Op where
  | lookup | configure | a2us | us2cnt | attach | attachx | detach | write | writeus | read | attached
deriving DecidableEq, Repr

namespace Op

/-- The eleven rows in the order of R72. -/
def all : List Op :=
  [.lookup, .configure, .a2us, .us2cnt, .attach, .attachx, .detach, .write, .writeus, .read, .attached]

/-- Column "opcode" of R72. -/
def code : Op → Byte
  | lookup => 0x01
  | configure => 0x02
  | a2us => 0x03
  | us2cnt => 0x04
  | attach => 0x10
  | attachx => 0x11
  | detach => 0x12
  | write => 0x13
  | writeus => 0x14
  | read => 0x15
  | attached => 0x16

/-- Column "mask" of R72. -/
def mask : Op → Word
  | lookup => 0xFFFF00FF
  | configure => 0xFFFF00FF
  | a2us => 0xFFFFFFFF
  | us2cnt => 0xFFFF00FF
  | attach => 0xFF0000FF
  | attachx => 0xFF0000FF
  | detach => 0xFF00FFFF
  | write => 0xFF00FFFF
  | writeus => 0xFF00FFFF
  | read => 0xFF00FFFF
  | attached => 0xFF00FFFF

/-- Column "match" of R72. -/
def pattern : Op → Word
  | lookup => 0x01000000
  | configure => 0x02000000
  | a2us => 0x03000000
  | us2cnt => 0x04000000
  | attach => 0x10000000
  | attachx => 0x11000000
  | detach => 0x12000000
  | write => 0x13000000
  | writeus => 0x14000000
  | read => 0x15000000
  | attached => 0x16000000

/-- `NOPS` (R74): the number of operand words. -/
def nops : Op → Nat
  | lookup => 0
  | configure => 0
  | a2us => 5
  | us2cnt => 1
  | attach => 0
  | attachx => 4
  | detach => 0
  | write => 1
  | writeus => 1
  | read => 0
  | attached => 0

/-- The row an opcode selects, if it is one of the eleven. -/
def ofCode (b : Byte) : Option Op := all.find? fun op => op.code == b

end Op

/-! The fields of the command word (R71). -/

def opcodeField (w : Word) : Byte := w.extractLsb' 24 8
def chField (w : Word) : Byte := w.extractLsb' 16 8
def selField (w : Word) : Byte := w.extractLsb' 8 8

/-- Why a command word is no command (R75). Clauses 3 and 4 depend on the configuration; the meanings check them. -/
inductive Illegal where
  /-- Clause 1: the opcode is not one of the eleven. -/
  | opcode
  /-- Clause 2: a field that must be zero is not. -/
  | mustBeZero
deriving DecidableEq, Repr

/-- What the unread words of the command stream begin with. -/
inductive Decoded where
  /-- No word is left (10_state R36: the run is over). -/
  | empty
  /-- A legal opcode whose operand words have not all arrived (R74). -/
  | truncated
  /-- An illegal command, and how many words it consumes (R75). -/
  | illegal (why : Illegal) (words : Nat)
  /-- A command, and how many words it consumes (R74). -/
  | instr (i : Instr) (words : Nat)
deriving DecidableEq, Repr

/-- The command of a row, from the fields of its word and its operand words in order (R72, R73). -/
def buildInstr (op : Op) (w : Word) (opnd : Nat → Word) : Instr :=
  match op with
  | .lookup => .lookup (selField w)
  | .configure => .configure (selField w)
  | .a2us => .a2us (opnd 0) (opnd 1) (opnd 2) (opnd 3) (opnd 4)
  | .us2cnt => .us2cnt (selField w) (opnd 0)
  | .attach => .attach (chField w) (selField w)
  | .attachx => .attachx (chField w) (selField w) (opnd 0) (opnd 1) (opnd 2) (opnd 3)
  | .detach => .detach (chField w)
  | .write => .write (chField w) (opnd 0)
  | .writeus => .writeus (chField w) (opnd 0)
  | .read => .read (chField w)
  | .attached => .attached (chField w)

/-- The decoding procedure (R78), over the unread words: the opcode, then the operand words, then the must-be-zero
fields. -/
def decode : List Word → Decoded
  | [] => .empty
  | w :: rest =>
    match Op.ofCode (opcodeField w) with
    | none => .illegal .opcode 1
    | some op =>
      if rest.length < op.nops then .truncated
      else if w &&& op.mask = op.pattern then .instr (buildInstr op w fun k => rest.getD k 0) (1 + op.nops)
      else .illegal .mustBeZero (1 + op.nops)

/-! The encoder. -/

/-- A command word from its fields, `rsv` zero (R71). -/
def commandWord (op : Op) (ch sel : Byte) : Word := op.code ++ ch ++ sel ++ (0 : Byte)

/-- The words of a command (R71, R72, R74). -/
def encode : Instr → List Word
  | .lookup pin => [commandWord .lookup 0 pin]
  | .configure u => [commandWord .configure 0 u]
  | .a2us a lo hi ulo uhi => [commandWord .a2us 0 0, a, lo, hi, ulo, uhi]
  | .us2cnt u us => [commandWord .us2cnt 0 u, us]
  | .attach ch pin => [commandWord .attach ch pin]
  | .attachx ch pin lo hi ulo uhi => [commandWord .attachx ch pin, lo, hi, ulo, uhi]
  | .detach ch => [commandWord .detach ch 0]
  | .write ch a => [commandWord .write ch 0, a]
  | .writeus ch us => [commandWord .writeus ch 0, us]
  | .read ch => [commandWord .read ch 0]
  | .attached ch => [commandWord .attached ch 0]

/-! The host's table words. -/

/-- The number of words of the longest command, A2US (R74). -/
def maxWords : Nat := 6

/-- The words of a table row's number `w` (bit 0 is the first word's least significant bit, later words count on from
it), every bit from `nbits` on zero. -/
def tableWords (nbits w : Nat) : List Word :=
  (List.range maxWords).map fun k => BitVec.ofNat 32 (w % 2 ^ nbits / 2 ^ (32 * k))

/-- What the decoder reads from a table row's number; none where it refuses. -/
def decodeTableWord (nbits w : Nat) : Option Instr :=
  match decode (tableWords nbits w) with
  | .instr i _ => some i
  | _ => none

end Sys2Proof
end

