-- ==== Sys2Proof/Machine/Fetch.lean ====
section
/-! DEFINITION. Taking a command from CMD (spec/30_encoding.md R74, R75, R78, spec/10_state.md R36). -/

namespace Sys2Proof.Machine

namespace State

/-- The words of the stream that have not been read. -/
def unread (s : State) : List Word := s.stream.drop s.cpc

/-- `n` words are consumed (R74). -/
def advance (s : State) (n : Nat) : State := { s with cpc := s.cpc + n }

/-- The words of a command that has not wholly arrived are lost: what a reset does to a command that waits for its operand
words (70_reset R180, "a command in progress is abandoned"; the model's choice, log 8). A command whose last words arrive
before the reset, also in the same slot, has not been taken yet: the model keeps it, and the next step takes it (log 8).
Words are dropped only where the next command to be taken has not wholly arrived: behind a whole or an illegal command that
has not been taken, the beginning of another stays too, and words sent after the reset become its operands. That both are
kept is the model's choice as well (R180 does not say; log 8). -/
def dropPartial (s : State) : State :=
  match decode s.unread with
  | .truncated => { s with cpc := s.stream.length }
  | _ => s

/-- One event of the outside while no command is being executed. -/
def applyIdleEvent (s : State) : EnvEvent → State
  | .reset => s.dropPartial.resetEvent
  | e => s.applyEvent e

end State

/-- The slot at the start of a step. A reset in it is all that the step does. -/
def idleSlot (s : State) : Run :=
  match s.env with
  | [] => .ok s
  | slot :: later =>
    let t := slot.foldl State.applyIdleEvent { s with env := later }
    if EnvEvent.reset ∈ slot then .error (.ended t) else .ok t

/-- The step of an engine that has no whole command to take: it waits while the outside may still do something, and
stops with `f` when it never will (R74, spec/93 U6; log 4). -/
def await (f : Fault) (s t : State) : Stop := if s.env = [] then .fault f else .ended t

/-- R78 up to "execute the command's rule": the command to execute, with `cpc` moved past its words. A command that is
illegal by clause 1 or 2 of R75 is answered here. -/
def takeCommand (s : State) : Except Stop (Instr × State) := do
  let t ← idleSlot s
  match decode t.unread with
  | .empty => .error (await .commandStreamEnd s t)
  | .truncated => .error (await .commandTruncated s t)
  | .illegal _ n => do
    let u ← respond illegalCommand (t.advance n)
    .error (.ended u)
  | .instr i n => .ok (i, t.advance n)

/-- The command stream with `ws` in place of the words the next command begins at. -/
def placeWords (s : State) (ws : List Word) : List Word :=
  let before := s.stream.take s.cpc ++ List.replicate (s.cpc - s.stream.length) 0
  before ++ ws ++ s.stream.drop (s.cpc + ws.length)

end Sys2Proof.Machine
end

