-- ==== Sys2Proof/Machine/Step.lean ====
section
/-! DEFINITION. One step of the command engine (spec/00_scope.md R5, spec/30_encoding.md R78): the outside's slot, one
command taken and executed, one response. -/

namespace Sys2Proof.Machine

/-- One step. An ill-formed configuration is refused, not run (00_scope R8). -/
def step (s : State) : Host.Outcome State Fault Refusal :=
  if s.cfg.WellFormed then
    match takeCommand s with
    | .ok (i, t) => exec i t
    | .error e => finish (.error e)
  else .refused .illFormedConfig

/-- `s` with a table row's words where the next command is taken from, and a quiet outside, so that the very next step
takes exactly them. -/
def State.withFetchWord (s : State) (nbits w : Nat) : State :=
  { s with stream := placeWords s (tableWords nbits w), env := [] }

end Sys2Proof.Machine
end

