-- ==== Sys2Proof/Machine/Assembler.lean ====
section
/-! DEFINITION. The spec's textual form of a command, at the level of tokens (spec/30_encoding.md R79, R80): a mnemonic and
its fields, numbers already read. Lines, commas and comments are not modelled (log 19). -/

namespace Sys2Proof.Machine

/-- A field of a command line. -/
inductive AsmField where
  /-- A signed decimal number: `digits / 10 ^ places`, negated when `neg`. -/
  | dec (neg : Bool) (digits places : Nat)
  /-- A raw word `#0x...`. -/
  | word (w : Word)
deriving DecidableEq, Repr

/-- A command line: the mnemonic and the fields in order (R79). -/
structure AsmLine where
  mnemonic : String
  fields   : List AsmField
deriving DecidableEq, Repr

/-- The mnemonics of R72. -/
def mnemonicOf : Op → String
  | .lookup => "LOOKUP"
  | .configure => "CONFIGURE"
  | .a2us => "A2US"
  | .us2cnt => "US2CNT"
  | .attach => "ATTACH"
  | .attachx => "ATTACHX"
  | .detach => "DETACH"
  | .write => "WRITE"
  | .writeus => "WRITEUS"
  | .read => "READ"
  | .attached => "ATTACHED"

/-- `ch`, `pin` and `unit` are unsigned decimal integers 0 to 255 (R79). -/
def asmByte : AsmField → Option Byte
  | .dec false n 0 => if n < 256 then some (BitVec.ofNat 8 n) else none
  | _ => none

/-- An operand: a raw word, or a decimal literal `d` that is accepted only when `d * 65536` is an integer in
-2^31 .. 2^31-1; nothing is rounded (R80; log 19). -/
def asmOperand : AsmField → Option Word
  | .word w => some w
  | .dec neg n k =>
    if n * 65536 % 10 ^ k = 0 then
      let mag : Int := (n * 65536 / 10 ^ k : Nat)
      let r := if neg then -mag else mag
      if -2147483648 ≤ r ∧ r ≤ 2147483647 then some (BitVec.ofInt 32 r) else none
    else none

/-- The fields of a row's line, in the order of R79. -/
def assembleOp : Op → List AsmField → Option Instr
  | .lookup, [p] => do return .lookup (← asmByte p)
  | .configure, [u] => do return .configure (← asmByte u)
  | .a2us, [a, lo, hi, ulo, uhi] => do
    return .a2us (← asmOperand a) (← asmOperand lo) (← asmOperand hi) (← asmOperand ulo) (← asmOperand uhi)
  | .us2cnt, [u, us] => do return .us2cnt (← asmByte u) (← asmOperand us)
  | .attach, [c, p] => do return .attach (← asmByte c) (← asmByte p)
  | .attachx, [c, p, lo, hi, ulo, uhi] => do
    return .attachx (← asmByte c) (← asmByte p) (← asmOperand lo) (← asmOperand hi) (← asmOperand ulo)
      (← asmOperand uhi)
  | .detach, [c] => do return .detach (← asmByte c)
  | .write, [c, a] => do return .write (← asmByte c) (← asmOperand a)
  | .writeus, [c, us] => do return .writeus (← asmByte c) (← asmOperand us)
  | .read, [c] => do return .read (← asmByte c)
  | .attached, [c] => do return .attached (← asmByte c)
  | _, _ => none

/-- The command a line stands for, if it is one (R79, R80); there are no pseudo-commands (R81). -/
def assemble (l : AsmLine) : Option Instr := do
  let op ← Op.all.find? fun op => mnemonicOf op == l.mnemonic
  assembleOp op l.fields

/-- A byte field as it is written. -/
def byteField (b : Byte) : AsmField := .dec false b.toNat 0

/-- The line of a command, operands as raw words. -/
def lineOf : Instr → AsmLine
  | .lookup pin => ⟨"LOOKUP", [byteField pin]⟩
  | .configure u => ⟨"CONFIGURE", [byteField u]⟩
  | .a2us a lo hi ulo uhi => ⟨"A2US", [.word a, .word lo, .word hi, .word ulo, .word uhi]⟩
  | .us2cnt u us => ⟨"US2CNT", [byteField u, .word us]⟩
  | .attach ch pin => ⟨"ATTACH", [byteField ch, byteField pin]⟩
  | .attachx ch pin lo hi ulo uhi =>
    ⟨"ATTACHX", [byteField ch, byteField pin, .word lo, .word hi, .word ulo, .word uhi]⟩
  | .detach ch => ⟨"DETACH", [byteField ch]⟩
  | .write ch a => ⟨"WRITE", [byteField ch, .word a]⟩
  | .writeus ch us => ⟨"WRITEUS", [byteField ch, .word us]⟩
  | .read ch => ⟨"READ", [byteField ch]⟩
  | .attached ch => ⟨"ATTACHED", [byteField ch]⟩

end Sys2Proof.Machine
end

