-- ==== Sys2Proof/Machine/Atomic.lean ====
section
/-! DEFINITION. Each command as ONE atomic transition, the reading that spec/20_memory.md R61 gives a machine whose outside
is quiet (`NoForeignAccess`): total functions from state to state, with no slots and no stops. Statements name these
functions; that `exec` computes them is itself a statement. -/

namespace Sys2Proof.Machine

namespace State

/-- `Rmw` with nothing between its two accesses (20_memory R56). -/
def rmwAtomic (s : State) (p : Patch) : State :=
  ((s.emit (.rd p.reg (s.reg8 p.reg))).store p.reg ((patched p (s.reg8 p.reg)).setWidth 16)).emit
    (.wr8 p.reg (patched p (s.reg8 p.reg)))

/-- `WideWrite(u, a, v)` (20_memory R57). -/
def wideAtomic (s : State) (u : UnitCfg) (a : RegAddr) (v : Half) : State :=
  match u.variant, u.hlatch with
  | .narrow, some h =>
    ((s.store h ((latchByte v).setWidth 16)).store a ((lowByte v).setWidth 16)).emit
      (.locked h (latchByte v) a (lowByte v))
  | _, _ => (s.store a v).emit (.wr16 a v)

/-- `Configure(u)` (41_timer_config R102). -/
def configureAtomic (s : State) (u : UnitCfg) : State :=
  (u.prescPatches.foldl rmwAtomic (u.wgmPatches.foldl rmwAtomic s)).wideAtomic u u.topReg (BitVec.ofNat 16 u.topValue)

/-- An effect on the binding of a pin and its unit's settings; none when the pin has no binding. -/
def onBinding (s : State) (pin : Byte) (f : Binding → UnitCfg → State) : State :=
  match lookup s.cfg pin with
  | none => s
  | some b =>
    match unitCfg? s.cfg b.unit with
    | none => s
    | some u => f b u

/-- `DetachCore(c)` (43_channel R130). -/
def detachAtomic (s : State) (ch : Byte) : State :=
  s.onBinding (s.chan ch).pin fun b u =>
    unbind ch b ((s.wideAtomic u b.cmpReg 0).emit (.gpioDir (s.chan ch).pin .input))

/-- `respond(r)` (30_encoding R76). -/
def answer (s : State) (r : Response) : State := s.emit (.respond r)

/-- `AttachCore` for a supported pin, steps 3 to 7 (43_channel R131). -/
def attachBoundAtomic (s : State) (ch pin : Byte) (b : Binding) (k : Calibration) : State :=
  let s1 :=
    if s.configured b.unit then s
    else match unitCfg? s.cfg b.unit with
      | none => s
      | some u => s.configureAtomic u
  ((bindChannel ch pin b k (s1.rmwAtomic b.patch)).emit (.gpioDir pin .output)).answer okResponse

/-- `AttachCore` (43_channel R131). -/
def attachAtomic (s : State) (ch pin : Byte) (k : Calibration) : State :=
  let t := if (s.chan ch).attachedElsewhere pin then s.detachAtomic ch else s
  match lookup t.cfg pin with
  | none => t.answer unsupportedPin
  | some b => t.attachBoundAtomic ch pin b k

/-- The effect of a legal command. -/
def commandAtomic (s : State) : Instr → State
  | .lookup pin => s.answer (lookupResponse s.cfg pin)
  | .configure u =>
    match unitCfg? s.cfg u with
    | none => s
    | some x => (s.configureAtomic x).answer okResponse
  | .a2us a lo hi ulo uhi =>
    (a2usData a lo hi ulo uhi s).2.answer (okData (a2usData a lo hi ulo uhi s).1 0)
  | .us2cnt u us =>
    match unitCfg? s.cfg u with
    | none => s
    | some x => s.answer (okData (BitVec.ofNat 32 (us2cntF s.cfg x (raw us))) 0)
  | .attach ch pin => s.attachAtomic ch pin (s.chan ch).calibration
  | .attachx ch pin lo hi ulo uhi => s.attachAtomic ch pin ⟨lo, hi, ulo, uhi⟩
  | .detach ch => (if (s.chan ch).attached then s.detachAtomic ch else s).answer okResponse
  | .write ch a =>
    let x := s.chan ch
    (if x.attached then
      s.onBinding x.pin fun b u =>
        if x.contractKept then
          (s.setChan ch (x.written a)).wideAtomic u b.cmpReg (countReg s.cfg u (x.pulse a))
        else
          unspecifiedWrite ch x u b s
    else s).answer okResponse
  | .writeus ch us =>
    let x := s.chan ch
    (if x.attached then s.onBinding x.pin fun b u => s.wideAtomic u b.cmpReg (countReg s.cfg u (raw us))
    else s).answer okResponse
  | .read ch =>
    s.answer { status := .ok, flag := (s.chan ch).readFlag, data0 := (s.chan ch).readData, data1 := 0 }
  | .attached ch => s.answer (okData (s.chan ch).attachedData 0)

/-- A command as one transition: an illegal one answers ILLEGAL_COMMAND and does nothing else (30_encoding R75). -/
def atomic (s : State) (i : Instr) : State :=
  if i.WellFormed s.cfg then s.commandAtomic i else s.answer illegalCommand

end State
end Sys2Proof.Machine
end

