-- ==== Sys2Proof/Machine/Strict.lean ====
section
/-! DEFINITION. The run that proves nothing (spec/60_exceptions.md R171): when a command breaks the calibration contract
(spec/42_converter.md R113), and the machine with the fault `CalibrationContract` that the spec recommends there. `exec` and
`step` go on with free values instead (log 5); everywhere else the two machines are the same. -/

namespace Sys2Proof.Machine

/-- The calibration contract MIN_ANGLE < MAX_ANGLE is kept by command `i` in state `s`: broken only by an A2US, and by a
WRITE on an attached channel, with MIN_ANGLE ≥ MAX_ANGLE (42_converter R113, 43_channel R135). -/
def contractKeptBy (i : Instr) (s : State) : Bool :=
  match i with
  | .a2us _ minAngle maxAngle _ _ => decide (raw minAngle < raw maxAngle)
  | .write ch _ => !(s.chan ch).attached || (s.chan ch).contractKept
  | .lookup _ => true
  | .configure _ => true
  | .us2cnt _ _ => true
  | .attach _ _ => true
  | .attachx _ _ _ _ _ _ => true
  | .detach _ => true
  | .writeus _ _ => true
  | .read _ => true
  | .attached _ => true

/-- A command with the recommended fault: `CalibrationContract` when it breaks the contract (R171 (a)), else its effect.
UNSUPPORTED_PIN, ILLEGAL_COMMAND, a WRITE on an unattached channel and foreign writes are ordinary (R171). -/
def strictExec (i : Instr) (s : State) : Host.Outcome State Fault Refusal :=
  if contractKeptBy i s then exec i s else .fault .calibrationContract

/-- One step with the recommended fault; an ill-formed CFG is refused (R171 (b)). -/
def strictStep (s : State) : Host.Outcome State Fault Refusal :=
  if s.cfg.WellFormed then
    match takeCommand s with
    | .ok (i, t) => strictExec i t
    | .error e => finish (.error e)
  else .refused .illFormedConfig

end Sys2Proof.Machine
end

