-- ==== Sys2Proof/Safety.lean ====
section
/-! DEFINITION. What counts as a sound state and a safe run: the invariants of spec/10_state.md R41, the premise
`NoForeignAccess` of spec/20_memory.md R61, the host's obligations of spec/70_reset_and_hazards.md R184 to R186, and the
channel properties of spec/43_channel.md R141. -/

namespace Sys2Proof.Machine

namespace State

/-- Nothing comes from outside: no foreign access (20_memory R61, `NoForeignAccess`), no reset, no later words. -/
abbrev Quiet (s : State) : Prop := s.env = []

/-- No reset arrives during the run: the schedule may hold foreign accesses and further words. -/
abbrev NoReset (s : State) : Prop := ∀ slot ∈ s.env, EnvEvent.reset ∉ slot

/-- What the block did on its ports between `s` and a later state `t` (20_memory R66). -/
def eventsTo (s t : State) : List Event := t.log.drop s.log.length

/-- A context attached to a pin of unit `u`. -/
def Attached (c : Config) (u : Byte) (x : Channel) : Bool :=
  x.attached && (lookup c x.pin).any fun b => b.unit == u

/-- The number of channel contexts attached to a pin of unit `u`. -/
def attachedTo (s : State) (u : Byte) : Nat := s.chans.countP (Attached s.cfg u)

/-- There are NCH channel contexts (10_state R21). -/
abbrev ChannelsSized (s : State) : Prop := s.chans.length = s.cfg.nch

/-- 10_state R41 clause 1. -/
abbrev ChannelsBound (s : State) : Prop := ∀ x ∈ s.chans, x.pin = 0 ∨ (lookup s.cfg x.pin).isSome

/-- 10_state R41 clause 2. -/
abbrev CountersExact (s : State) : Prop := ∀ k : Fin 16, s.refcnt[k] = s.attachedTo (BitVec.ofNat 8 k)

/-- Every listed register is an implemented one and fits its width (10_state R26). -/
abbrev RegistersFit (s : State) : Prop :=
  ∀ c ∈ s.regs, c.1 < 256 ∧ (regKind s.cfg (BitVec.ofNat 8 c.1)).any fun k => decide (c.2.toNat < 2 ^ k.width)

/-- What holds in every state that a run reaches, whatever the outside does. -/
abbrev Inv (s : State) : Prop :=
  s.ChannelsSized ∧ s.ChannelsBound ∧ s.CountersExact ∧ s.regs.wf ∧ s.RegistersFit

/-- The waveform-mode, prescaler and TOP fields of a unit hold their configured values. -/
abbrev UnitHolds (s : State) (u : UnitCfg) : Prop :=
  (∀ p ∈ u.wgmPatches ++ u.prescPatches, s.reg8 p.reg &&& p.mask = p.value) ∧
  s.reg u.topReg = BitVec.ofNat 16 u.topValue

/-- 10_state R41 clause 3: kept by every step without foreign accesses. -/
abbrev ConfiguredUnitsHold (s : State) : Prop := ∀ u ∈ s.cfg.units, s.refcount u.id ≠ 0 → s.UnitHolds u

/-- The host's obligation of 70_reset R185: no pin is held by two channels. -/
abbrev OneChannelPerPin (s : State) : Prop :=
  s.chans.Pairwise fun x y => x.pin = 0 ∨ x.pin ≠ y.pin

end State

/-- The registers that an event of the history accesses. -/
def Event.accessed : Event → List RegAddr
  | .rd a _ => [a]
  | .wr8 a _ => [a]
  | .wr16 a _ => [a]
  | .locked h _ a _ => [h, a]
  | .gpioDir _ _ => []
  | .respond _ => []
  | .unspecified a => [a]

/-- An event of the history is a response. -/
def Event.isRespond : Event → Bool
  | .respond _ => true
  | _ => false

/-- An event of the history is a pin-direction request. -/
def Event.isGpio : Event → Bool
  | .gpioDir _ _ => true
  | _ => false

/-- An event of the history is an access that the spec does not specify (43_channel R135; log 5). -/
def Event.isUnspecified : Event → Bool
  | .unspecified _ => true
  | _ => false

/-- The history of a list of patches applied with nothing between their accesses, from mode registers that hold `old`: for
each patch in list order one read and one write of its register, a later patch on the same register reading what an earlier
one wrote (20_memory R56, R66, 41_timer_config R102). -/
def patchEvents (old : RegAddr → Byte) : List Patch → List Event
  | [] => []
  | p :: ps =>
    .rd p.reg (old p.reg) :: .wr8 p.reg (patched p (old p.reg)) ::
      patchEvents (fun a => if a = p.reg then patched p (old p.reg) else old a) ps

/-- What `WideWrite` of the value `n` to a unit's compare register or TOP shows in the history: one access on a wide unit,
the locked pair on a narrow one (20_memory R57, R66). -/
def Event.compareWrite (u : UnitCfg) (a : RegAddr) (n : Nat) : Event :=
  match u.hlatch with
  | none => .wr16 a (BitVec.ofNat 16 n)
  | some h => .locked h (BitVec.ofNat 8 (n / 2 ^ 8)) a (BitVec.ofNat 8 n)

/-- The register an access names has the width the access has, and only mode registers are read (20_memory R51 to R54,
R67). An access that the spec does not specify names an implemented register (43_channel R135; log 5). -/
def Event.fits (c : Config) : Event → Prop
  | .rd a _ => regKind c a = some .mode
  | .wr8 a _ => regKind c a = some .mode
  | .wr16 a _ => regKind c a = some .wide
  | .locked h _ a _ => regKind c a = some (.narrow h)
  | .gpioDir _ _ => True
  | .respond _ => True
  | .unspecified a => (regKind c a).isSome

/-- A command runs safely from `s`: a sound state of a well-formed configuration, a quiet outside, a legal command, the
calibration contract kept. -/
abbrev SafeCommand (i : Instr) (s : State) : Prop :=
  s.cfg.WellFormed ∧ s.Inv ∧ s.Quiet ∧ i.WellFormed s.cfg ∧ contractKeptBy i s

/-- The properties that 43_channel R141 lists, of the commands run from `s` with a quiet outside. "The same answer" and "an
empty history" are said of the port events: the responses are part of the model's one history (log 9). -/
structure State.ChannelProperties (s : State) : Prop where
  /-- Clause 1: an attach answers OK for a supported pin and UNSUPPORTED_PIN for another, and then ATTACHED answers 1 or 0,
  whatever the channel's state before. -/
  attachAnswers : ∀ (ch pin : Byte) (i : Instr), ch.toNat < s.cfg.nch →
    (i = .attach ch pin ∨ ∃ lo hi ulo uhi, i = .attachx ch pin lo hi ulo uhi) →
    ∃ t es, exec i s = .next t ∧
      t.log = s.log ++ es ++ [.respond (if (lookup s.cfg pin).isSome then okResponse else unsupportedPin)] ∧
      exec (.attached ch) t = .next (t.emit (.respond (okData (if (lookup s.cfg pin).isSome then 1 else 0) 0)))
  /-- Clause 2: angles that clamp to the same angle leave identical states and histories; under a violated contract the
  model's choice, since free values do not depend on the angle (log 5, log 6). -/
  writeClamps : ∀ (ch : Byte) (a a' : Word),
    clamp (raw a) (raw (s.chan ch).minAngle) (raw (s.chan ch).maxAngle)
      = clamp (raw a') (raw (s.chan ch).minAngle) (raw (s.chan ch).maxAngle) →
    exec (.write ch a) s = exec (.write ch a') s
  /-- Clause 3: after DETACH, ATTACHED answers 0 and READ answers what it answered before. -/
  detachKeepsTheAngle : ∀ (ch : Byte) (t : State), ch.toNat < s.cfg.nch → exec (.detach ch) s = .next t →
    exec (.attached ch) t = .next (t.emit (.respond (okData 0 0))) ∧
    ∃ r, exec (.read ch) s = .next (s.emit (.respond r)) ∧ exec (.read ch) t = .next (t.emit (.respond r))
  /-- Clause 4: a second DETACH changes nothing and has an empty history. -/
  detachTwice : ∀ (ch : Byte) (t : State), ch.toNat < s.cfg.nch → exec (.detach ch) s = .next t →
    exec (.detach ch) t = .next (t.emit (.respond okResponse))
  /-- Clause 5: WRITE, WRITEUS and DETACH change no register but the bound compare register and a narrow unit's HLATCH. -/
  pulseFrame : ∀ (ch : Byte) (x : Word) (i : Instr) (t : State),
    (i = .write ch x ∨ i = .writeus ch x ∨ i = .detach ch) → exec i s = .next t →
    ∀ a : RegAddr, (∀ b u, lookup s.cfg (s.chan ch).pin = some b → unitCfg? s.cfg b.unit = some u →
      a ≠ b.cmpReg ∧ u.hlatch ≠ some a) → t.reg a = s.reg a
  /-- Clause 6: an attach by an unattached channel on a unit with attached channels is one `Rmw`, the pin's patch, and one
  GPIODIR request. -/
  sharedUnitAttach : ∀ (ch pin : Byte) (b : Binding) (i : Instr), ch.toNat < s.cfg.nch → lookup s.cfg pin = some b →
    (s.chan ch).pin = 0 → s.refcount b.unit ≠ 0 →
    (i = .attach ch pin ∨ ∃ lo hi ulo uhi, i = .attachx ch pin lo hi ulo uhi) →
    ∃ t, exec i s = .next t ∧
      s.eventsTo t = patchEvents s.reg8 [b.patch] ++ [.gpioDir pin .output, .respond okResponse]

end Sys2Proof.Machine
end

