-- ==== Sys2Proof/Certificates/Slice0/Obligations.lean ====
section
/-! DEFINITION. The statements for the provers. Each is about the machine of Sys2Proof/Machine; none is about a program.
`s.Quiet` is the premise NoForeignAccess of spec/20_memory.md R61 (and no reset during the command); a statement without
it holds whatever the outside does. Where a docstring names a rule that the
spec marks `[derived: ...]` (R41, R42, R66, R78, R82, R93, R97, R104 to R106, R119, R139, R141 among them), the statement
formalises an inference of the spec's, and OBLIGATIONS.json calls it 'derived'. -/

open Sys2Proof Sys2Proof.Machine

/-! ## Encoding -/

/-- Every command, every operand at every value: the decoder reads back what the encoder wrote, whatever follows it, and
consumes exactly its words (30_encoding R71 to R74). -/
def Obligations.DecodeEncodeRoundTrip : Prop :=
  ∀ (i : Instr) (rest : List Word), decode (encode i ++ rest) = .instr i (encode i).length

/-- The other direction: words that decode to a command begin with that command's one encoding (30_encoding R78). -/
def Obligations.DecodedWordsAreTheEncoding : Prop :=
  ∀ (ws : List Word) (i : Instr) (n : Nat), decode ws = .instr i n → ws.take n = encode i ∧ (encode i).length = n

/-- The worked encodings of 30_encoding R82, with the assembler's reading of each line. -/
def Obligations.WorkedEncodings : Prop :=
  (assemble ⟨"ATTACHX", [.dec false 0 0, .dec false 9 0, .dec false 0 0, .dec false 180 0, .dec false 500 0,
      .dec false 2500 0]⟩).map encode
    = some [0x11000900, 0x00000000, 0x00B40000, 0x01F40000, 0x09C40000] ∧
  decode [0x11000900, 0x00000000, 0x00B40000, 0x01F40000, 0x09C40000]
    = .instr (.attachx 0 9 0 0x00B40000 0x01F40000 0x09C40000) 5 ∧
  (assemble ⟨"WRITE", [.dec false 0 0, .dec false 90 0]⟩).map encode = some [0x13000000, 0x005A0000] ∧
  decode [0x13000000, 0x005A0000] = .instr (.write 0 0x005A0000) 2 ∧
  (assemble ⟨"WRITEUS", [.dec false 3 0, .dec false 25000 0]⟩).map encode = some [0x14030000, 0x61A80000] ∧
  decode [0x14030000, 0x61A80000] = .instr (.writeus 3 0x61A80000) 2 ∧
  (assemble ⟨"DETACH", [.dec false 5 0]⟩).map encode = some [0x12050000] ∧
  decode [0x12050000] = .instr (.detach 5) 1 ∧
  (assemble ⟨"LOOKUP", [.dec false 13 0]⟩).map encode = some [0x01000D00] ∧
  decode [0x01000D00] = .instr (.lookup 13) 1 ∧
  (assemble ⟨"CONFIGURE", [.dec false 2 0]⟩).map encode = some [0x02000200] ∧
  decode [0x02000200] = .instr (.configure 2) 1 ∧
  (assemble ⟨"US2CNT", [.dec false 2 0, .dec false 1500 0]⟩).map encode = some [0x04000200, 0x05DC0000] ∧
  decode [0x04000200, 0x05DC0000] = .instr (.us2cnt 2 0x05DC0000) 2 ∧
  decode [0x12000001] = .illegal .mustBeZero 1 ∧
  decode [0x12060000] = .instr (.detach 6) 1 ∧ ¬ (Instr.detach 6).ChannelOk refCfg ∧
  decode [0x02000300] = .instr (.configure 3) 1 ∧ ¬ (Instr.configure 3).UnitOk refCfg ∧
  decode [0x00000000] = .illegal .opcode 1

/-- No word belongs to two rows of the opcode map, and a word of an unknown opcode belongs to none (30_encoding R78). -/
def Obligations.OpcodeRowsUnambiguous : Prop :=
  (∀ (w : Word) (p q : Op), w &&& p.mask = p.pattern → w &&& q.mask = q.pattern → p = q) ∧
  ∀ (w : Word) (p : Op), Op.ofCode (opcodeField w) = none → w &&& p.mask ≠ p.pattern

/-- The words that are no command (30_encoding R75 clauses 1 and 2, R74): an unknown opcode takes one word; a known one
first waits for its operand words, then is illegal when a must-be-zero field is not zero. -/
def Obligations.WordsThatAreNoCommand : Prop :=
  decode [] = .empty ∧
  (∀ (w : Word) (rest : List Word), (∀ op : Op, op.code ≠ opcodeField w) → decode (w :: rest) = .illegal .opcode 1) ∧
  ∀ (op : Op) (w : Word) (rest : List Word), opcodeField w = op.code →
    (rest.length < op.nops → decode (w :: rest) = .truncated) ∧
    (op.nops ≤ rest.length → w &&& op.mask ≠ op.pattern →
      decode (w :: rest) = .illegal .mustBeZero (1 + op.nops))

/-- A command's line, operands as raw words, assembles to the command (30_encoding R79, R80). -/
def Obligations.AssembleReadsEveryLine : Prop := ∀ i : Instr, assemble (lineOf i) = some i

/-! ## Configuration and reset -/

/-- REFCFG is well-formed under both strategies (00_scope R8), and its TOP values give a frame of exactly 20 ms
(41_timer_config R108). -/
def Obligations.RefCfgWellFormed : Prop :=
  refCfg.WellFormed ∧ refCfgAlternate.WellFormed ∧
  ∀ u ∈ refCfg.units, (u.topValue + 1) * u.cpmDen = 20 * u.cpmNum

/-- The binding table of REFCFG, pin by pin (40_pinmap R91, R92): pin 10 follows the strategy, every other pin id is
unsupported. -/
def Obligations.RefCfgBindings : Prop :=
  ∀ pin : Byte,
    lookup refCfg pin =
      (if pin = 5 then some ⟨1, 0x13, 0x10, 0xC0, 0x80⟩
       else if pin = 6 then some ⟨2, 0x25, 0x20, 0x0C, 0x08⟩
       else if pin = 9 then some ⟨0, 0x03, 0x00, 0xC0, 0x80⟩
       else if pin = 10 then some ⟨0, 0x04, 0x00, 0x30, 0x20⟩
       else if pin = 11 then some ⟨0, 0x05, 0x00, 0x0C, 0x08⟩
       else if pin = 13 then some ⟨2, 0x23, 0x20, 0xC0, 0x80⟩
       else none) ∧
    lookup refCfgAlternate pin =
      (if pin = 10 then some ⟨2, 0x24, 0x20, 0x30, 0x20⟩ else lookup refCfg pin)

/-- What reset leaves in the contexts and the counters: in REFCFG, and in every configuration after a reset event in any
state (10_state R38, R39). -/
def Obligations.ResetContextsAndCounters : Prop :=
  (State.reset.chans = List.replicate 6
    { pin := 0, angleValid := false, angle := 0x00000000, minAngle := 0x00000000, maxAngle := 0x00B40000,
      minUs := 0x01F40000, maxUs := 0x09C40000 } ∧ ∀ u : Byte, State.reset.refcount u = 0) ∧
  ∀ s : State, s.cfg.WellFormed →
    (∀ ch : Byte, ch.toNat < s.cfg.nch → s.resetEvent.chan ch =
      { pin := 0, angleValid := false, angle := 0x00000000, minAngle := s.cfg.defMinAngle,
        maxAngle := s.cfg.defMaxAngle, minUs := s.cfg.defMinUs, maxUs := s.cfg.defMaxUs }) ∧
    ∀ u : Byte, s.resetEvent.refcount u = 0

/-- The invariant holds after reset, in every well-formed configuration and whatever the timer-unit registers hold
(10_state R40: reset does not write them). -/
def Obligations.ResetSatisfiesInv : Prop :=
  State.reset.Inv ∧
  ∀ (c : Config) (regs : Memory), regs.wf → (State.resetIn c regs).RegistersFit → (State.resetIn c regs).Inv

/-- Pin 0 is never supported (40_pinmap R93). -/
def Obligations.PinZeroUnsupported : Prop := ∀ c : Config, c.WellFormed → lookup c 0 = none

/-! ## The step -/

/-- A step runs the decoded command: the words at the command index decode to `i`, the index moves past them, and the step
is `exec i` from there (30_encoding R78); the machine with the recommended fault differs exactly where the command breaks
the calibration contract (60_exceptions R171). -/
def Obligations.StepRunsTheDecodedCommand : Prop :=
  ∀ (s : State) (i : Instr) (n : Nat), s.cfg.WellFormed → s.Quiet → decode (s.stream.drop s.cpc) = .instr i n →
    step s = exec i { s with cpc := s.cpc + n } ∧
    strictStep s = if contractKeptBy i s then step s else .fault .calibrationContract

/-- Words that are no command are answered ILLEGAL_COMMAND, consumed, and change nothing else (30_encoding R75, R78). -/
def Obligations.StepAnswersIllegalWords : Prop :=
  ∀ (s : State) (why : Illegal) (n : Nat), s.cfg.WellFormed → s.Quiet →
    decode (s.stream.drop s.cpc) = .illegal why n →
    step s = .next { s with
      cpc := s.cpc + n,
      log := s.log ++ [.respond { status := .illegalCommand, flag := false, data0 := 0, data1 := 0 }] }

/-- A truncated command is not executed (30_encoding R74): while the host may still send, the engine waits and the words
that arrive are put after those it has; when nothing more can come it is stuck. The same at the end of the stream. That
the stuck machine is a fault is the model's choice (log 4). -/
def Obligations.StepWaitsForMissingWords : Prop :=
  ∀ s : State, s.cfg.WellFormed →
    (s.Quiet → decode (s.stream.drop s.cpc) = .truncated → step s = .fault .commandTruncated) ∧
    (s.Quiet → decode (s.stream.drop s.cpc) = .empty → step s = .fault .commandStreamEnd) ∧
    ∀ ws : List Word, s.env = [[.send ws]] → decode ((s.stream ++ ws).drop s.cpc) = .truncated →
      step s = .next { s with stream := s.stream ++ ws, env := [] }

/-- An ill-formed configuration is refused, not run (00_scope R8). What is ill-formed is the model's reading where it goes
beyond the clauses of R8: constraints of R7, one binding per pin, distinct addresses, no HLATCH on a wide unit (log 11), and
masks over all units (log 12). The model asks neither 40_pinmap R92's one ambiguous pin (log 21) nor 10_state R26's mode
register of every unit (log 22). -/
def Obligations.IllFormedConfigRefused : Prop :=
  ∀ s : State, ¬ s.cfg.WellFormed → step s = .refused .illFormedConfig

/-- A reset event between commands (70_reset R180, R181): the contexts and the counters take their reset values, the
timer-unit registers keep what they hold, nothing happens on a port. That the words of a command which was still waiting for
operand words are dropped, that every word on CMD stays where a whole or an illegal command has not been taken (the beginning
of another behind it too), and that the step does nothing else, is the model's choice (log 8). -/
def Obligations.ResetBetweenCommands : Prop :=
  ∀ s : State, s.cfg.WellFormed → s.env = [[.reset]] →
    step s = .next { s with
      chans := List.replicate s.cfg.nch (resetChannel s.cfg),
      refcnt := Vector.replicate 16 0,
      env := [],
      cpc := if decode (s.stream.drop s.cpc) = .truncated then s.stream.length else s.cpc }

/-- A reset event before a command's first port action (70_reset R180, R181): the command is abandoned without a response
and without an access. That it lands there is the model's placing of it (log 8). -/
def Obligations.ResetAbandonsCommand : Prop :=
  ∀ (i : Instr) (s : State), s.cfg.WellFormed → s.Inv → s.env = [[.reset]] →
    ∃ t, exec i s = .next t ∧ t.log = s.log ∧ t.regs.read = s.regs.read ∧
      t.chans = List.replicate s.cfg.nch (resetChannel s.cfg) ∧ t.refcnt = Vector.replicate 16 0 ∧
      t.cfg = s.cfg ∧ t.cpc = s.cpc ∧ t.stream = s.stream ∧ t.env = []

/-! ## Illegal commands -/

/-- A command whose channel or unit does not exist answers ILLEGAL_COMMAND and does nothing else (30_encoding R75
clauses 3 and 4). -/
def Obligations.IllegalOperandsAnswered : Prop :=
  ∀ (i : Instr) (s : State), s.Quiet → ¬ i.WellFormed s.cfg →
    exec i s = .next { s with
      log := s.log ++ [.respond { status := .illegalCommand, flag := false, data0 := 0, data1 := 0 }] }

/-! ## Results of the commands that only answer -/

/-- LOOKUP (40_pinmap R94): its one word, and its answer: the binding's fields in data0 and data1, or UNSUPPORTED_PIN;
nothing else changes. -/
def Obligations.LookupAnswersTheBinding : Prop :=
  ∀ (pin : Byte) (s : State), s.Quiet →
    encode (.lookup pin) = [BitVec.ofNat 32 (0x01000000 + pin.toNat * 2 ^ 8)] ∧
    (lookup s.cfg pin = none →
      exec (.lookup pin) s = .next { s with
        log := s.log ++ [.respond { status := .unsupportedPin, flag := false, data0 := 0, data1 := 0 }] }) ∧
    ∀ b : Binding, lookup s.cfg pin = some b →
      exec (.lookup pin) s = .next { s with
        log := s.log ++ [.respond {
          status := .ok, flag := false,
          data0 := BitVec.ofNat 32 (b.unit.toNat * 2 ^ 8 + b.cmpReg.toNat),
          data1 := BitVec.ofNat 32
            (b.patch.reg.toNat * 2 ^ 16 + b.patch.mask.toNat * 2 ^ 8 + b.patch.value.toNat) }] }

/-- A2US under the contract (42_converter R114, R115): the floored interpolation of the clamped angle; nothing else
changes. -/
def Obligations.A2usAnswersThePulse : Prop :=
  ∀ (angle lo hi ulo uhi : Word) (s : State), s.Quiet → lo.toInt < hi.toInt →
    exec (.a2us angle lo hi ulo uhi) s = .next { s with
      log := s.log ++ [.respond {
        status := .ok, flag := false,
        data0 := BitVec.ofInt 32 (ulo.toInt +
          Int.fdiv ((uhi.toInt - ulo.toInt) * (max lo.toInt (min angle.toInt hi.toInt) - lo.toInt))
            (hi.toInt - lo.toInt)),
        data1 := 0 }] }

/-- A2US under a violated contract (42_converter R113): it answers OK with SOME data0 and changes nothing of the block;
that data0 is a free value is the model's choice (log 5). The machine with the fault that 60_exceptions R171 recommends stops
there. -/
def Obligations.A2usOutsideTheContract : Prop :=
  ∀ (angle lo hi ulo uhi : Word) (s : State), s.Quiet → hi.toInt ≤ lo.toInt →
    ∃ d : Word, exec (.a2us angle lo hi ulo uhi) s = .next { s with
      log := s.log ++ [.respond { status := .ok, flag := false, data0 := d, data1 := 0 }], free := s.free + 1 } ∧
      strictExec (.a2us angle lo hi ulo uhi) s = .fault .calibrationContract

/-- US2CNT (42_converter R116 to R118): its words, and its answer: the floored scaling of the clamped pulse width, reduced
to the unit's register width; nothing else changes. An id that is no unit's is an illegal command. -/
def Obligations.Us2cntAnswersTheCount : Prop :=
  ∀ (unit : Byte) (us : Word) (s : State), s.Quiet →
    encode (.us2cnt unit us) = [BitVec.ofNat 32 (0x04000000 + unit.toNat * 2 ^ 8), us] ∧
    (unitCfg? s.cfg unit = none → exec (.us2cnt unit us) s = .next { s with
      log := s.log ++ [.respond { status := .illegalCommand, flag := false, data0 := 0, data1 := 0 }] }) ∧
    ∀ u : UnitCfg, unitCfg? s.cfg unit = some u → exec (.us2cnt unit us) s = .next { s with
      log := s.log ++ [.respond {
        status := .ok, flag := false,
        data0 := BitVec.ofNat 32
          ((u.cpmNum * (max 0 (min us.toInt 0x4E200000)).toNat * s.cfg.calNum)
            / (u.cpmDen * 65536 * 1000 * s.cfg.calDen) % 2 ^ u.cntBits),
        data1 := 0 }] }

/-- READ (43_channel R137): its one word, and its answer: the stored angle and flag 1, or flag 0 and 0; nothing else
changes, attached or not. -/
def Obligations.ReadAnswersTheAngle : Prop :=
  ∀ (ch : Byte) (s : State), s.Quiet → ch.toNat < s.cfg.nch →
    encode (.read ch) = [BitVec.ofNat 32 (0x15000000 + ch.toNat * 2 ^ 16)] ∧
    exec (.read ch) s = .next { s with
      log := s.log ++ [.respond {
        status := .ok, flag := (s.chan ch).angleValid,
        data0 := if (s.chan ch).angleValid = true then (s.chan ch).angle else 0, data1 := 0 }] }

/-- ATTACHED (43_channel R138): its one word, and its answer: 1 when PIN is not 0, else 0; nothing else changes. -/
def Obligations.AttachedAnswersTheBinding : Prop :=
  ∀ (ch : Byte) (s : State), s.Quiet → ch.toNat < s.cfg.nch →
    encode (.attached ch) = [BitVec.ofNat 32 (0x16000000 + ch.toNat * 2 ^ 16)] ∧
    exec (.attached ch) s = .next { s with
      log := s.log ++ [.respond {
        status := .ok, flag := false, data0 := if (s.chan ch).pin ≠ 0 then 1 else 0, data1 := 0 }] }

/-! ## The converter -/

/-- The properties of the two functions (42_converter R119). -/
def Obligations.ConverterProperties : Prop :=
  (∀ lo hi ulo uhi : Int, lo < hi → a2usF lo lo hi ulo uhi = ulo ∧ a2usF hi lo hi ulo uhi = uhi) ∧
  (∀ a a' lo hi ulo uhi : Int, lo < hi → a ≤ a' →
    (ulo ≤ uhi → a2usF a lo hi ulo uhi ≤ a2usF a' lo hi ulo uhi) ∧
    (uhi ≤ ulo → a2usF a' lo hi ulo uhi ≤ a2usF a lo hi ulo uhi)) ∧
  (∀ a lo hi ulo uhi : Int, lo < hi → a2usF a lo hi ulo uhi = a2usF (clamp a lo hi) lo hi ulo uhi) ∧
  ∀ (c : Config) (u : UnitCfg), c.WellFormed → u ∈ c.units →
    (∀ us : Int, us2cntF c u us = us2cntF c u (clamp us 0 0x4E200000)) ∧
    (∀ us us' : Int, us ≤ us' → fullCount c u us < 2 ^ u.cntBits → fullCount c u us' < 2 ^ u.cntBits →
      us2cntF c u us ≤ us2cntF c u us') ∧
    ∀ us : Int, us ≤ 0 → us2cntF c u us = 0

/-- `A2usF` (42_converter R114): the clamped interpolation rounded down; it lies between `min_us` and `max_us`, so it fits
one word. -/
def Obligations.PulseFitsTheWord : Prop :=
  ∀ (a : Int) (lo hi ulo uhi : Word), raw lo < raw hi →
    a2usF a (raw lo) (raw hi) (raw ulo) (raw uhi) = raw ulo +
      Int.fdiv ((raw uhi - raw ulo) * (max (raw lo) (min a (raw hi)) - raw lo)) (raw hi - raw lo) ∧
    min (raw ulo) (raw uhi) ≤ a2usF a (raw lo) (raw hi) (raw ulo) (raw uhi) ∧
    a2usF a (raw lo) (raw hi) (raw ulo) (raw uhi) ≤ max (raw ulo) (raw uhi) ∧
    raw (wordOf (a2usF a (raw lo) (raw hi) (raw ulo) (raw uhi))) = a2usF a (raw lo) (raw hi) (raw ulo) (raw uhi)

/-- A count fits its unit's register, and a calibration factor STRICTLY below `2^cnt_bits / (20 * CPM)` never needs the
reduction (42_converter R117, whose sentence also allows the bound itself: see the next statement and log 20). -/
def Obligations.CountFitsTheRegister : Prop :=
  ∀ (c : Config) (u : UnitCfg) (us : Int), c.WellFormed → u ∈ c.units →
    us2cntF c u us < 2 ^ u.cntBits ∧
    (c.calNum * (20 * u.cpmNum) < 2 ^ u.cntBits * u.cpmDen * c.calDen → (us2cntF c u us : Int) = fullCount c u us)

/-- The sentence of 42_converter R117 read to the letter, with the bound itself allowed. Expected to FAIL: at
`CAL = 2^cnt_bits / (20 * CPM)` the count of 20000 microseconds is `2^cnt_bits`, which the reduction makes 0 (log 20). -/
def Obligations.CountBoundIncludingTheLimit : Prop :=
  ∀ (c : Config) (u : UnitCfg) (us : Int), c.WellFormed → u ∈ c.units →
    c.calNum * (20 * u.cpmNum) ≤ 2 ^ u.cntBits * u.cpmDen * c.calDen → fullCount c u us < 2 ^ u.cntBits

/-! ## CONFIGURE -/

/-- CONFIGURE completes (41_timer_config R102 to R104): inside the masks of the unit's patches the mode registers hold the
patch values, outside them every bit is as before, TOP and a narrow unit's latch hold the TOP value's parts, and every
other register, every context and every counter is unchanged. -/
def Obligations.ConfigureSetsTheUnit : Prop :=
  ∀ (unit : Byte) (u : UnitCfg) (s : State), s.cfg.WellFormed → s.Quiet → unitCfg? s.cfg unit = some u →
    ∃ t, exec (.configure unit) s = .next t ∧
      (∀ p ∈ u.wgmPatches ++ u.prescPatches, t.reg8 p.reg &&& p.mask = p.value) ∧
      (∀ a : RegAddr, a ∈ (u.wgmPatches ++ u.prescPatches).map (·.reg) → ∀ k < 8,
        (∀ p ∈ u.wgmPatches ++ u.prescPatches, p.reg = a → p.mask.getLsbD k = false) →
        (t.reg8 a).getLsbD k = (s.reg8 a).getLsbD k) ∧
      (t.reg u.topReg).toNat = u.topValue ∧
      (∀ h, u.hlatch = some h → (t.reg h).toNat = u.topValue / 2 ^ 8) ∧
      (∀ a : RegAddr, a ∉ (u.wgmPatches ++ u.prescPatches).map (·.reg) → a ≠ u.topReg → u.hlatch ≠ some a →
        t.reg a = s.reg a) ∧
      t.chans = s.chans ∧ t.refcnt = s.refcnt ∧ t.cfg = s.cfg ∧ t.stream = s.stream ∧ t.cpc = s.cpc ∧ t.free = s.free

/-- CONFIGURE's history (41_timer_config R102, R106, 70_reset R194): for each waveform patch and then each prescaler patch, in
list order, one read and one write of its register, two events per patch; then the one TOP write; then the response. They
access only the registers its settings name, so no compare register. -/
def Obligations.ConfigureHistory : Prop :=
  ∀ (unit : Byte) (u : UnitCfg) (s : State), s.cfg.WellFormed → s.Quiet → unitCfg? s.cfg unit = some u →
    ∃ (t : State) (es : List Event), exec (.configure unit) s = .next t ∧
      es = patchEvents s.reg8 (u.wgmPatches ++ u.prescPatches) ++ [Event.compareWrite u u.topReg u.topValue] ∧
      t.log = s.log ++ es ++ [.respond { status := .ok, flag := false, data0 := 0, data1 := 0 }] ∧
      es.length = 2 * (u.wgmPatches.length + u.prescPatches.length) + 1 ∧
      ∀ e ∈ es, ∀ a ∈ e.accessed,
        (a ∈ (u.wgmPatches ++ u.prescPatches).map (·.reg) ∨ a = u.topReg ∨ u.hlatch = some a) ∧
        ∀ v ∈ s.cfg.units, a ∉ v.cmpRegs

/-- CONFIGURE on a unit that already holds its configuration rewrites what is there (41_timer_config R105): no register
changes but a narrow unit's latch, and every write of the sequence writes the content already present. -/
def Obligations.ConfigureIdempotent : Prop :=
  ∀ (unit : Byte) (u : UnitCfg) (s : State), s.cfg.WellFormed → s.Inv → s.Quiet → unitCfg? s.cfg unit = some u →
    s.UnitHolds u →
    ∃ t, exec (.configure unit) s = .next t ∧
      (∀ a : RegAddr, u.hlatch ≠ some a → t.reg a = s.reg a) ∧
      (∀ h, u.hlatch = some h → (t.reg h).toNat = u.topValue / 2 ^ 8) ∧
      (∀ h hv a v, Event.locked h hv a v ∈ s.eventsTo t → (s.reg a).setWidth 8 = v) ∧
      (∀ a v, Event.wr8 a v ∈ s.eventsTo t → s.reg8 a = v) ∧
      ∀ a v, Event.wr16 a v ∈ s.eventsTo t → s.reg a = v

/-! ## ATTACH and ATTACHX -/

/-- ATTACH and ATTACHX of a supported pin complete (43_channel R131 to R133): the channel is on the pin with the
calibration applied (ATTACHX's operands, ATTACH's stored values) and its angle unchanged; the counters count it on its new
unit and no longer on an old one; the pin's mode field holds the patch value; the direction request and the response come
last; no other context changes. -/
def Obligations.AttachBindsTheChannel : Prop :=
  ∀ (ch pin : Byte) (k : Calibration) (b : Binding) (i : Instr) (s : State),
    s.cfg.WellFormed → s.Inv → s.Quiet → ch.toNat < s.cfg.nch → lookup s.cfg pin = some b →
    (i = .attachx ch pin k.minAngle k.maxAngle k.minUs k.maxUs ∨
      i = .attach ch pin ∧ k = (s.chan ch).calibration) →
    ∃ t, exec i s = .next t ∧
      t.chan ch = { s.chan ch with
        pin := pin, minAngle := k.minAngle, maxAngle := k.maxAngle, minUs := k.minUs, maxUs := k.maxUs } ∧
      (∀ c : Byte, c ≠ ch → t.chan c = s.chan c) ∧
      (∀ x : Byte, t.refcount x + (if State.Attached s.cfg x (s.chan ch) then 1 else 0)
        = s.refcount x + (if x = b.unit then 1 else 0)) ∧
      t.reg8 b.patch.reg &&& b.patch.mask = b.patch.value ∧
      (∃ es, t.log = s.log ++ es ++
        [.gpioDir pin .output, .respond { status := .ok, flag := false, data0 := 0, data1 := 0 }]) ∧
      t.cfg = s.cfg ∧ t.stream = s.stream ∧ t.cpc = s.cpc ∧ t.free = s.free

/-- What an attach leaves alone in the register space (43_channel R131): a successful attach by a channel that is not
attached elsewhere touches the pin's patch register, and the unit's mode registers, TOP and latch only when no channel was
attached to the unit; it writes no compare register; and in every mode register, whether the unit is configured or not, every
bit outside the masks applied is as before (20_memory R56). -/
def Obligations.AttachRegisterFrame : Prop :=
  ∀ (ch pin : Byte) (b : Binding) (u : UnitCfg) (i : Instr) (s t : State),
    s.cfg.WellFormed → s.Inv → s.Quiet → ch.toNat < s.cfg.nch → lookup s.cfg pin = some b →
    unitCfg? s.cfg b.unit = some u → (s.chan ch).pin = 0 ∨ (s.chan ch).pin = pin →
    (i = .attach ch pin ∨ ∃ lo hi ulo uhi, i = .attachx ch pin lo hi ulo uhi) → exec i s = .next t →
    (∀ a : RegAddr, a ≠ b.patch.reg →
      (s.refcount b.unit = 0 →
        a ∉ (u.wgmPatches ++ u.prescPatches).map (·.reg) ∧ a ≠ u.topReg ∧ u.hlatch ≠ some a) →
      t.reg a = s.reg a) ∧
    (∀ v ∈ s.cfg.units, ∀ a ∈ v.cmpRegs, t.reg a = s.reg a) ∧
    ∀ a ∈ s.cfg.modeRegs, ∀ k < 8, (b.patch.reg = a → b.patch.mask.getLsbD k = false) →
      (s.refcount b.unit = 0 → ∀ p ∈ u.wgmPatches ++ u.prescPatches, p.reg = a → p.mask.getLsbD k = false) →
      (t.reg8 a).getLsbD k = (s.reg8 a).getLsbD k

/-- An attach to a pin that is not supported (43_channel R131, 60_exceptions R161, 70_reset R189): the answer is
UNSUPPORTED_PIN, the channel ends unattached with its calibration and its angle unchanged; a channel that was attached has
been detached: first its old compare register is written zero, then its pin requested as input. -/
def Obligations.AttachToUnsupportedPin : Prop :=
  ∀ (ch pin : Byte) (i : Instr) (s : State),
    s.cfg.WellFormed → s.Inv → s.Quiet → ch.toNat < s.cfg.nch → lookup s.cfg pin = none →
    (i = .attach ch pin ∨ ∃ lo hi ulo uhi, i = .attachx ch pin lo hi ulo uhi) →
    ∃ t, exec i s = .next t ∧ t.chan ch = { s.chan ch with pin := 0 } ∧
      (∀ c : Byte, c ≠ ch → t.chan c = s.chan c) ∧
      ((s.chan ch).pin = 0 → t = { s with
        log := s.log ++ [.respond { status := .unsupportedPin, flag := false, data0 := 0, data1 := 0 }] }) ∧
      ∀ b u, lookup s.cfg (s.chan ch).pin = some b → unitCfg? s.cfg b.unit = some u →
        t.reg b.cmpReg = 0 ∧ (∀ h, u.hlatch = some h → t.reg h = 0) ∧
        (∀ a : RegAddr, a ≠ b.cmpReg → u.hlatch ≠ some a → t.reg a = s.reg a) ∧
        t.refcount b.unit + 1 = s.refcount b.unit ∧ (∀ x : Byte, x ≠ b.unit → t.refcount x = s.refcount x) ∧
        t.log = s.log ++ [Event.compareWrite u b.cmpReg 0, .gpioDir (s.chan ch).pin .input,
          .respond { status := .unsupportedPin, flag := false, data0 := 0, data1 := 0 }] ∧
        t.cfg = s.cfg ∧ t.stream = s.stream ∧ t.cpc = s.cpc ∧ t.free = s.free

/-- An attach by a channel that is attached to ANOTHER pin (43_channel R131 step 1): the old pin is released first, its
compare register written zero and then the input requested, before any access for the new pin; then the new pin is bound.
The old unit's bound compare register and latch, the new pin's patch register and, when no channel is left on the new unit,
that unit's mode registers, TOP and latch are all that can change; in every mode register every bit outside the masks applied
is as before (20_memory R56). -/
def Obligations.AttachElsewhereDetachesFirst : Prop :=
  ∀ (ch pin : Byte) (b b0 : Binding) (u u0 : UnitCfg) (i : Instr) (s : State),
    s.cfg.WellFormed → s.Inv → s.Quiet → ch.toNat < s.cfg.nch → lookup s.cfg pin = some b →
    unitCfg? s.cfg b.unit = some u → (s.chan ch).pin ≠ pin → lookup s.cfg (s.chan ch).pin = some b0 →
    unitCfg? s.cfg b0.unit = some u0 →
    (i = .attach ch pin ∨ ∃ lo hi ulo uhi, i = .attachx ch pin lo hi ulo uhi) →
    ∃ t, exec i s = .next t ∧ t.reg b0.cmpReg = 0 ∧
      (∀ a : RegAddr, a ≠ b0.cmpReg → u0.hlatch ≠ some a → a ≠ b.patch.reg →
        (s.refcount b.unit = (if b.unit = b0.unit then 1 else 0) →
          a ∉ (u.wgmPatches ++ u.prescPatches).map (·.reg) ∧ a ≠ u.topReg ∧ u.hlatch ≠ some a) →
        t.reg a = s.reg a) ∧
      (∀ a ∈ s.cfg.modeRegs, ∀ k < 8, (b.patch.reg = a → b.patch.mask.getLsbD k = false) →
        (s.refcount b.unit = (if b.unit = b0.unit then 1 else 0) →
          ∀ p ∈ u.wgmPatches ++ u.prescPatches, p.reg = a → p.mask.getLsbD k = false) →
        (t.reg8 a).getLsbD k = (s.reg8 a).getLsbD k) ∧
      ∃ es, t.log = s.log ++ [Event.compareWrite u0 b0.cmpReg 0, .gpioDir (s.chan ch).pin .input] ++ es ++
        [.gpioDir pin .output, .respond { status := .ok, flag := false, data0 := 0, data1 := 0 }]

/-- Re-attaching a channel to the pin it holds (43_channel R131, "elsewhere means a different pin"), by ATTACHX with new
calibration or by ATTACH with the stored one: no detach, no Configure, no counter change; the patch is applied again, the
calibration stored, the direction requested again. -/
def Obligations.ReattachToTheSamePin : Prop :=
  ∀ (ch pin : Byte) (k : Calibration) (b : Binding) (i : Instr) (s : State),
    s.cfg.WellFormed → s.Inv → s.Quiet → ch.toNat < s.cfg.nch → lookup s.cfg pin = some b → (s.chan ch).pin = pin →
    (i = .attachx ch pin k.minAngle k.maxAngle k.minUs k.maxUs ∨
      i = .attach ch pin ∧ k = (s.chan ch).calibration) →
    ∃ t, exec i s = .next t ∧
      t.chan ch = { s.chan ch with
        minAngle := k.minAngle, maxAngle := k.maxAngle, minUs := k.minUs, maxUs := k.maxUs } ∧
      (∀ c : Byte, c ≠ ch → t.chan c = s.chan c) ∧ t.refcnt = s.refcnt ∧
      t.log = s.log ++ [.rd b.patch.reg (s.reg8 b.patch.reg),
        .wr8 b.patch.reg (patched b.patch (s.reg8 b.patch.reg)), .gpioDir pin .output,
        .respond { status := .ok, flag := false, data0 := 0, data1 := 0 }] ∧
      ∀ a : RegAddr, a ≠ b.patch.reg → t.reg a = s.reg a

/-- An attach by an unattached channel on a unit that has attached channels performs one Rmw and one direction request and
no other access (43_channel R141 clause 6). -/
def Obligations.AttachOnSharedUnit : Prop :=
  ∀ (ch pin : Byte) (b : Binding) (i : Instr) (s : State),
    s.cfg.WellFormed → s.Inv → s.Quiet → ch.toNat < s.cfg.nch → lookup s.cfg pin = some b →
    (s.chan ch).pin = 0 → s.refcount b.unit ≠ 0 →
    (i = .attach ch pin ∨ ∃ lo hi ulo uhi, i = .attachx ch pin lo hi ulo uhi) →
    ∃ t, exec i s = .next t ∧
      s.eventsTo t = [.rd b.patch.reg (s.reg8 b.patch.reg),
        .wr8 b.patch.reg (patched b.patch (s.reg8 b.patch.reg)), .gpioDir pin .output,
        .respond { status := .ok, flag := false, data0 := 0, data1 := 0 }]

/-! ## DETACH -/

/-- DETACH of an attached channel (43_channel R130, R134): the bound compare register and a narrow unit's latch are zero,
the pin is requested as input, the unit's counter is one less, the channel is unattached with everything else it holds
unchanged; no other register, context or counter changes. -/
def Obligations.DetachReleasesTheChannel : Prop :=
  ∀ (ch : Byte) (b : Binding) (u : UnitCfg) (s : State),
    s.cfg.WellFormed → s.Inv → s.Quiet → ch.toNat < s.cfg.nch → lookup s.cfg (s.chan ch).pin = some b →
    unitCfg? s.cfg b.unit = some u →
    ∃ t, exec (.detach ch) s = .next t ∧
      t.chan ch = { s.chan ch with pin := 0 } ∧ (∀ c : Byte, c ≠ ch → t.chan c = s.chan c) ∧
      t.refcount b.unit + 1 = s.refcount b.unit ∧ (∀ x : Byte, x ≠ b.unit → t.refcount x = s.refcount x) ∧
      t.reg b.cmpReg = 0 ∧ (∀ h, u.hlatch = some h → t.reg h = 0) ∧
      (∀ a : RegAddr, a ≠ b.cmpReg → u.hlatch ≠ some a → t.reg a = s.reg a) ∧
      t.log = s.log ++ [
        match u.hlatch with
        | none => .wr16 b.cmpReg 0
        | some h => .locked h 0 b.cmpReg 0,
        .gpioDir (s.chan ch).pin .input, .respond { status := .ok, flag := false, data0 := 0, data1 := 0 }] ∧
      t.cfg = s.cfg ∧ t.stream = s.stream ∧ t.cpc = s.cpc ∧ t.free = s.free

/-- DETACH of an unattached channel is a complete no-op, and so is a second DETACH (43_channel R134, R141 clause 4). -/
def Obligations.DetachTwiceIsDetachOnce : Prop :=
  (∀ (ch : Byte) (s : State), s.Quiet → ch.toNat < s.cfg.nch → (s.chan ch).pin = 0 →
    exec (.detach ch) s = .next { s with
      log := s.log ++ [.respond { status := .ok, flag := false, data0 := 0, data1 := 0 }] }) ∧
  ∀ (ch : Byte) (s t : State), s.cfg.WellFormed → s.Inv → s.Quiet → ch.toNat < s.cfg.nch →
    exec (.detach ch) s = .next t →
    exec (.detach ch) t = .next { t with
      log := t.log ++ [.respond { status := .ok, flag := false, data0 := 0, data1 := 0 }] }

/-! ## WRITE and WRITEUS -/

/-- WRITE of an attached channel under the contract completes (43_channel R135): the clamped angle is stored and valid,
the bound compare register holds the count of the interpolated pulse (and a narrow unit's latch its high bits), written by
one compare write, and no other register, context or counter changes. -/
def Obligations.WriteMovesTheServo : Prop :=
  ∀ (ch : Byte) (angle : Word) (b : Binding) (u : UnitCfg) (s : State),
    s.cfg.WellFormed → s.Inv → s.Quiet → ch.toNat < s.cfg.nch → lookup s.cfg (s.chan ch).pin = some b →
    unitCfg? s.cfg b.unit = some u → raw (s.chan ch).minAngle < raw (s.chan ch).maxAngle →
    ∃ t, exec (.write ch angle) s = .next t ∧
      t.chan ch = { s.chan ch with
        angle := wordOf (max (raw (s.chan ch).minAngle) (min (raw angle) (raw (s.chan ch).maxAngle))),
        angleValid := true } ∧
      (∀ c : Byte, c ≠ ch → t.chan c = s.chan c) ∧ t.refcnt = s.refcnt ∧
      (t.reg b.cmpReg).toNat = us2cntF s.cfg u (a2usF (raw angle) (raw (s.chan ch).minAngle)
        (raw (s.chan ch).maxAngle) (raw (s.chan ch).minUs) (raw (s.chan ch).maxUs)) ∧
      (∀ h, u.hlatch = some h → (t.reg h).toNat = (t.reg b.cmpReg).toNat / 2 ^ 8) ∧
      (∀ a : RegAddr, a ≠ b.cmpReg → u.hlatch ≠ some a → t.reg a = s.reg a) ∧
      t.log = s.log ++ [Event.compareWrite u b.cmpReg (t.reg b.cmpReg).toNat,
        .respond { status := .ok, flag := false, data0 := 0, data1 := 0 }] ∧
      t.cfg = s.cfg ∧ t.stream = s.stream ∧ t.cpc = s.cpc ∧ t.free = s.free

/-- WRITEUS (43_channel R136): its words; on an unattached channel it is a no-op answering OK; on an attached one the count
of the clamped pulse width goes to the bound compare register by one compare write, also under a violated calibration
contract; no context and no counter changes, so READ answers as before. -/
def Obligations.WriteusSetsThePulse : Prop :=
  (∀ (ch : Byte) (us : Word), encode (.writeus ch us) = [BitVec.ofNat 32 (0x14000000 + ch.toNat * 2 ^ 16), us]) ∧
  (∀ (ch : Byte) (us : Word) (s : State), s.Quiet → ch.toNat < s.cfg.nch → (s.chan ch).pin = 0 →
    exec (.writeus ch us) s = .next { s with
      log := s.log ++ [.respond { status := .ok, flag := false, data0 := 0, data1 := 0 }] }) ∧
  ∀ (ch : Byte) (us : Word) (b : Binding) (u : UnitCfg) (s : State),
    s.cfg.WellFormed → s.Quiet → ch.toNat < s.cfg.nch → lookup s.cfg (s.chan ch).pin = some b →
    unitCfg? s.cfg b.unit = some u →
    ∃ t, exec (.writeus ch us) s = .next t ∧
      t.chans = s.chans ∧ t.refcnt = s.refcnt ∧
      (t.reg b.cmpReg).toNat = us2cntF s.cfg u (raw us) ∧
      (∀ h, u.hlatch = some h → (t.reg h).toNat = us2cntF s.cfg u (raw us) / 2 ^ 8) ∧
      (∀ a : RegAddr, a ≠ b.cmpReg → u.hlatch ≠ some a → t.reg a = s.reg a) ∧
      t.log = s.log ++ [Event.compareWrite u b.cmpReg (us2cntF s.cfg u (raw us)),
        .respond { status := .ok, flag := false, data0 := 0, data1 := 0 }] ∧
      t.cfg = s.cfg ∧ t.stream = s.stream ∧ t.cpc = s.cpc ∧ t.free = s.free

/-- WRITE and WRITEUS on an unattached channel change nothing and answer OK (43_channel R135, R136, 70_reset R190). -/
def Obligations.UnattachedWritesAreNoOps : Prop :=
  ∀ (ch : Byte) (x : Word) (i : Instr) (s : State), s.Quiet → ch.toNat < s.cfg.nch → (s.chan ch).pin = 0 →
    (i = .write ch x ∨ i = .writeus ch x) →
    exec i s = .next { s with
      log := s.log ++ [.respond { status := .ok, flag := false, data0 := 0, data1 := 0 }] }

/-- The pipeline (42_converter R120): WRITE leaves `Us2cntF` of `A2usF` in the bound compare register, and leaves in every
register and in the history what WRITEUS leaves when it is given the data0 that A2US answers for the channel's
calibration. -/
def Obligations.WriteIsWriteusOfA2us : Prop :=
  ∀ (ch : Byte) (angle x : Word) (s r t t' : State), s.cfg.WellFormed → s.Inv → s.Quiet → ch.toNat < s.cfg.nch →
    raw (s.chan ch).minAngle < raw (s.chan ch).maxAngle →
    exec (.a2us angle (s.chan ch).minAngle (s.chan ch).maxAngle (s.chan ch).minUs (s.chan ch).maxUs) s = .next r →
    r.log = s.log ++ [.respond { status := .ok, flag := false, data0 := x, data1 := 0 }] →
    exec (.write ch angle) s = .next t → exec (.writeus ch x) s = .next t' →
    t.regs = t'.regs ∧ t.log = t'.log ∧
    ∀ b u, lookup s.cfg (s.chan ch).pin = some b → unitCfg? s.cfg b.unit = some u →
      (t.reg b.cmpReg).toNat = us2cntF s.cfg u (a2usF (raw angle) (raw (s.chan ch).minAngle)
        (raw (s.chan ch).maxAngle) (raw (s.chan ch).minUs) (raw (s.chan ch).maxUs))

/-- Angles that clamp to the same angle have the same effect, whatever the outside does. Under the calibration contract this
is 43_channel R141 clause 2. For an attached channel with MIN_ANGLE ≥ MAX_ANGLE, whose WRITE the spec leaves unspecified
(42_converter R113), it is the model's choice: the free values are taken at the counter, not at the angle (log 5, log 6). -/
def Obligations.WriteDependsOnTheClampedAngle : Prop :=
  ∀ (ch : Byte) (a a' : Word) (s : State),
    clamp (raw a) (raw (s.chan ch).minAngle) (raw (s.chan ch).maxAngle)
      = clamp (raw a') (raw (s.chan ch).minAngle) (raw (s.chan ch).maxAngle) →
    exec (.write ch a) s = exec (.write ch a') s

/-- WRITE under a violated contract (43_channel R135): it answers OK; ANGLE, ANGLE_VALID, the bound compare register and a
narrow unit's latch may hold anything, and nothing else changes. That it runs, with free values, is the model's choice
(log 5). The history holds unspecified accesses to those two registers only. The machine with the fault that 60_exceptions
R171 recommends stops there. -/
def Obligations.WriteOutsideTheContract : Prop :=
  ∀ (ch : Byte) (angle : Word) (b : Binding) (u : UnitCfg) (s : State),
    s.cfg.WellFormed → s.Inv → s.Quiet → ch.toNat < s.cfg.nch → lookup s.cfg (s.chan ch).pin = some b →
    unitCfg? s.cfg b.unit = some u → raw (s.chan ch).maxAngle ≤ raw (s.chan ch).minAngle →
    ∃ t, exec (.write ch angle) s = .next t ∧
      (∃ a v, t.chan ch = { s.chan ch with angle := a, angleValid := v }) ∧
      (∀ c : Byte, c ≠ ch → t.chan c = s.chan c) ∧ t.refcnt = s.refcnt ∧
      (∀ a : RegAddr, a ≠ b.cmpReg → u.hlatch ≠ some a → t.reg a = s.reg a) ∧
      (∃ es, t.log = s.log ++ es ++ [.respond { status := .ok, flag := false, data0 := 0, data1 := 0 }] ∧
        ∀ e ∈ es, ∃ a, e = .unspecified a ∧ (a = b.cmpReg ∨ u.hlatch = some a)) ∧
      t.cfg = s.cfg ∧ t.stream = s.stream ∧ t.cpc = s.cpc ∧
      strictExec (.write ch angle) s = .fault .calibrationContract

/-! ## The bus -/

/-- The locked pair (20_memory R54, R55): whatever foreign accesses the schedule holds, right after the pair the 10-bit
register holds `v[9:0]` and the latch holds `zext_8(v[9:8])`. -/
def Obligations.LockedPairIsIndivisible : Prop :=
  ∀ (u : UnitCfg) (h a : RegAddr) (v : Half) (s t : State), s.cfg.WellFormed → u ∈ s.cfg.units →
    u.variant = .narrow → u.hlatch = some h → (a = u.topReg ∨ a ∈ u.cmpRegs) →
    wideWrite u a v s = .ok t →
    (t.reg a).toNat = v.toNat % 2 ^ 10 ∧ (t.reg h).toNat = v.toNat / 2 ^ 8 % 2 ^ 2

/-- The lost update (20_memory R61, 70_reset R184): a foreign write to the register between the read and the write of
`Rmw` is overwritten with the stale bits. -/
def Obligations.ForeignWriteInsideRmwIsLost : Prop :=
  ∀ (p : Patch) (v : Half) (s : State), regKind s.cfg p.reg = some .mode → s.env = [[], [.foreignWrite p.reg v]] →
    ∃ t, rmw p s = .ok t ∧
      (t.reg p.reg).toNat = ((s.reg8 p.reg &&& ~~~p.mask) ||| (p.value &&& p.mask)).toNat ∧
      ∀ a : RegAddr, a ≠ p.reg → t.reg a = s.reg a

/-- Non-interference of the dispatch procedures (40_pinmap R97): for two different pins of one strategy, a compare write
for one leaves the other's compare register, and a mode patch of one leaves every bit of the other's patch field and of the
waveform-mode and prescaler fields. -/
def Obligations.PinsDoNotInterfere : Prop :=
  ∀ (p q : Byte) (b d : Binding) (u : UnitCfg) (count : Half) (s : State), s.cfg.WellFormed → s.Quiet → p ≠ q →
    lookup s.cfg p = some b → lookup s.cfg q = some d → unitCfg? s.cfg b.unit = some u →
    (∃ t, cmpWrite u b count s = .ok t ∧ t.reg d.cmpReg = s.reg d.cmpReg) ∧
    ∃ t, applyModePatch b s = .ok t ∧
      t.reg8 d.patch.reg &&& d.patch.mask = s.reg8 d.patch.reg &&& d.patch.mask ∧
      ∀ r ∈ s.cfg.unitPatches, t.reg8 r.reg &&& r.mask = s.reg8 r.reg &&& r.mask

/-- Every access of the block, under any outside, names a register of the width of the access, and the block reads mode
registers only (20_memory R51, R67). The unspecified accesses of a WRITE under a violated contract (the model's choice, log 5)
name implemented registers and say no more; a command that keeps the contract makes none. -/
def Obligations.AccessesFitTheirRegisters : Prop :=
  ∀ (i : Instr) (s t : State), s.cfg.WellFormed → exec i s = .next t → ∀ e ∈ s.eventsTo t,
    e.fits s.cfg ∧ (contractKeptBy i s → e.isUnspecified = false)

/-! ## The whole machine -/

/-- Every step, whatever the outside does, keeps the invariant: the contexts' number, clauses 1 and 2 of 10_state R41,
the canonical register file, every register within its width. -/
def Obligations.EveryStepKeepsInv : Prop := ∀ s t : State, s.Inv → step s = .next t → t.Inv

/-- Every step of a quiet outside keeps clause 3 of 10_state R41: a unit that has attached channels holds its configured
mode, prescaler and TOP fields. -/
def Obligations.EveryStepKeepsConfiguredUnits : Prop :=
  ∀ s t : State, s.Inv → s.Quiet → s.ConfiguredUnitsHold → step s = .next t → t.ConfiguredUnitsHold

/-- Under NoForeignAccess every command is one atomic transition (20_memory R61): in a sound state `exec` answers, for
every command, the state that the transition functions of Machine/Atomic.lean give. For an A2US and an attached WRITE under a
violated contract both sides are the model's choice, a run with free values (log 5). -/
def Obligations.CommandsAreAtomicTransitions : Prop :=
  ∀ (i : Instr) (s : State), s.cfg.WellFormed → s.Inv → s.Quiet → exec i s = .next (s.atomic i)

/-- No command moves the command index, changes the configuration, takes words out of the stream or events out of the
history, whatever the outside does (10_state R36 for a command that runs to its end). That a reset which ends a command also
leaves the command index and the later words on CMD is the model's choice (log 8). -/
def Obligations.CommandsKeepTheStream : Prop :=
  ∀ (i : Instr) (s t : State), exec i s = .next t →
    t.cpc = s.cpc ∧ t.cfg = s.cfg ∧ s.stream <+: t.stream ∧ s.log <+: t.log

/-- Every command that ends emits exactly one response, after all its other effects (30_encoding R76). -/
def Obligations.OneResponsePerCommand : Prop :=
  ∀ (i : Instr) (s t : State), s.Quiet → exec i s = .next t →
    ∃ es r, t.log = s.log ++ es ++ [.respond r] ∧ ∀ e ∈ es, e.isRespond = false

/-- The only outcomes that are not OK (60_exceptions R161): UNSUPPORTED_PIN from LOOKUP, ATTACH and ATTACHX of an
unsupported pin, ILLEGAL_COMMAND from an illegal command. -/
def Obligations.OnlyTheseCommandsFail : Prop :=
  ∀ (i : Instr) (s t : State) (es : List Event) (r : Response), s.Quiet → exec i s = .next t →
    t.log = s.log ++ es ++ [.respond r] →
    (r.status = .illegalCommand ↔ ¬ i.WellFormed s.cfg) ∧
    (r.status = .unsupportedPin → ∃ ch pin, lookup s.cfg pin = none ∧
      (i = .lookup pin ∨ i = .attach ch pin ∨ ∃ lo hi ulo uhi, i = .attachx ch pin lo hi ulo uhi))

/-- The lifecycle of a channel (43_channel R139): attached after an attach exactly when the pin is supported, unattached
after DETACH, otherwise as before; and an attached channel is on the pin it was attached to. -/
def Obligations.ChannelLifecycle : Prop :=
  ∀ (ch pin : Byte) (i : Instr) (x : Word) (s t : State), s.cfg.WellFormed → s.Inv → s.Quiet → ch.toNat < s.cfg.nch →
    exec i s = .next t →
    ((i = .attach ch pin ∨ ∃ lo hi ulo uhi, i = .attachx ch pin lo hi ulo uhi) →
      (t.chan ch).pin = if (lookup s.cfg pin).isSome then pin else 0) ∧
    (i = .detach ch → (t.chan ch).pin = 0) ∧
    ((i = .write ch x ∨ i = .writeus ch x ∨ i = .read ch ∨ i = .attached ch) → (t.chan ch).pin = (s.chan ch).pin)

/-- Only ATTACH, ATTACHX and DETACH move a pin, change a counter or request a direction (10_state R42, 60_exceptions
R169); and they do so for the channel they name only. -/
def Obligations.OnlyAttachAndDetachBind : Prop :=
  ∀ (i : Instr) (s t : State), s.Quiet → exec i s = .next t →
    ((∀ ch pin, i ≠ .attach ch pin) → (∀ ch pin lo hi ulo uhi, i ≠ .attachx ch pin lo hi ulo uhi) →
      (∀ ch, i ≠ .detach ch) →
      (∀ c : Byte, (t.chan c).pin = (s.chan c).pin) ∧ t.refcnt = s.refcnt ∧
      ∀ e ∈ s.eventsTo t, e.isGpio = false) ∧
    ∀ c : Byte, i.channel? ≠ some c → t.chan c = s.chan c

/-- Only WRITE changes a stored angle, and only ATTACHX a stored calibration (10_state R23, R24). -/
def Obligations.OnlyWriteAndAttachxStore : Prop :=
  ∀ (i : Instr) (s t : State), s.Quiet → exec i s = .next t → ∀ c : Byte,
    ((∀ ch a, i ≠ .write ch a) →
      (t.chan c).angle = (s.chan c).angle ∧ (t.chan c).angleValid = (s.chan c).angleValid) ∧
    ((∀ ch pin lo hi ulo uhi, i ≠ .attachx ch pin lo hi ulo uhi) →
      (t.chan c).calibration = (s.chan c).calibration)

/-- LOOKUP, A2US, US2CNT, READ and ATTACHED change no context, counter or register, and make no access (10_state R42). -/
def Obligations.AnsweringCommandsChangeNothing : Prop :=
  ∀ (i : Instr) (s t : State), s.Quiet → exec i s = .next t →
    ((∃ pin, i = .lookup pin) ∨ (∃ a lo hi ulo uhi, i = .a2us a lo hi ulo uhi) ∨ (∃ u us, i = .us2cnt u us) ∨
      (∃ ch, i = .read ch) ∨ ∃ ch, i = .attached ch) →
    t.chans = s.chans ∧ t.refcnt = s.refcnt ∧ t.regs = s.regs ∧ ∃ r, t.log = s.log ++ [.respond r]

/-- The properties of the channel commands that 43_channel R141 lists (marked there as derived), clause by clause in
`State.ChannelProperties`, in every sound state with a quiet outside; the premise of R142 is not needed. Clause 2 for an attached channel under a
violated contract, which the spec leaves unspecified (42_converter R113), is the model's choice: the free values are taken at
the counter, not at the angle (log 5, log 6). -/
def Obligations.ChannelPropertiesHold : Prop :=
  ∀ s : State, s.cfg.WellFormed → s.Inv → s.Quiet → s.ChannelProperties
end

