-- ==== Sys2Proof/Laws/Converter.lean ====
section
/-! SUPPORT. The integer functions of the converter: clamping, the sign and the monotonicity of the unreduced count, and
words as raw integers. -/

namespace Sys2Proof.Machine

theorem clamp_eq {x lo hi : Int} (h : lo ≤ hi) : clamp x lo hi = max lo (min x hi) := by
  unfold clamp; split <;> [skip; split] <;> omega

theorem clamp_mem {x lo hi : Int} (h : lo ≤ hi) : lo ≤ clamp x lo hi ∧ clamp x lo hi ≤ hi := by
  rw [clamp_eq h]; omega

theorem clamp_mono {x y lo hi : Int} (h : lo ≤ hi) (hxy : x ≤ y) : clamp x lo hi ≤ clamp y lo hi := by
  rw [clamp_eq h, clamp_eq h]; omega

theorem clamp_clamp {x lo hi : Int} (h : lo ≤ hi) : clamp (clamp x lo hi) lo hi = clamp x lo hi := by
  rw [clamp_eq h, clamp_eq h]; omega

theorem maxPulse_eq : maxPulse = 0x4E200000 := by decide

theorem maxPulse_nonneg : 0 ≤ maxPulse := by decide

theorem fullCount_mono (c : Config) (u : UnitCfg) {x y : Int} (h : x ≤ y) : fullCount c u x ≤ fullCount c u y := by
  unfold fullCount
  have hc := clamp_mono maxPulse_nonneg h
  rcases Nat.eq_zero_or_pos (u.cpmDen * c.calDen) with hz | hz
  · have : (u.cpmDen * 65536 * 1000 * c.calDen : Int) = 0 := by
      have : ((u.cpmDen * c.calDen : Nat) : Int) = 0 := by simp [hz]
      push_cast at this
      linear_combination 65536000 * this
    simp [this]
  · apply Int.ediv_le_ediv
    · have : (0 : Int) < ((u.cpmDen * c.calDen : Nat) : Int) := by exact_mod_cast hz
      push_cast at this
      nlinarith
    · gcongr

theorem fullCount_nonneg (c : Config) (u : UnitCfg) (x : Int) : 0 ≤ fullCount c u x := by
  have hk := (clamp_mem (x := x) maxPulse_nonneg).1
  unfold fullCount
  generalize clamp x 0 maxPulse = k at *
  have h2 : (0 : Int) ≤ ((u.cpmDen * 65536 * 1000 * c.calDen : Nat) : Int) := Int.natCast_nonneg _
  push_cast at h2
  exact Int.ediv_nonneg (mul_nonneg (mul_nonneg (Int.natCast_nonneg _) hk) (Int.natCast_nonneg _)) h2

/-- A raw value that fits one word goes through the word unchanged. -/
theorem raw_wordOf {x : Int} (h1 : -2147483648 ≤ x) (h2 : x ≤ 2147483647) : raw (wordOf x) = x := by
  simp only [raw, wordOf, BitVec.toInt_ofInt]
  rw [Int.bmod_eq_of_le] <;> omega

/-- A word is the word of its raw value. -/
theorem wordOf_raw (w : Word) : wordOf (raw w) = w := BitVec.ofInt_toInt

/-- Clamping a word's raw value to two words' raw values stays inside one word. -/
theorem raw_wordOf_clamp (a lo hi : Word) (h : raw lo ≤ raw hi) :
    raw (wordOf (clamp (raw a) (raw lo) (raw hi))) = clamp (raw a) (raw lo) (raw hi) := by
  obtain ⟨h1, h2⟩ := clamp_mem (x := raw a) h
  have b1 := BitVec.le_toInt lo
  have b2 := BitVec.toInt_lt (x := hi)
  refine raw_wordOf ?_ ?_ <;> simp only [raw] at * <;> omega

end Sys2Proof.Machine
end

