-- ==== Sys2Proof/Laws/Config.lean ====
section
/-! SUPPORT. What a well-formed configuration gives: every register its tables name is implemented, with the width its use
needs; every binding names a unit and one of that unit's compare registers. -/

namespace Sys2Proof.Machine

/-- The TOP, compare and HLATCH registers of one unit. -/
theorem mem_dataRegs {c : Config} {u : UnitCfg} (hu : u ∈ c.units) {a : RegAddr}
    (ha : a = u.topReg ∨ a ∈ u.cmpRegs ∨ u.hlatch = some a) : a ∈ c.dataRegs := by
  refine List.mem_flatMap.2 ⟨u, hu, ?_⟩
  rcases ha with rfl | h | h
  · simp
  · simp [h]
  · simp [h]

/-- A data register belongs to one unit only. -/
theorem dataReg_owner {c : Config} (h : c.dataRegs.Nodup) {u v : UnitCfg} (hu : u ∈ c.units) (hv : v ∈ c.units)
    {a : RegAddr} (hua : a ∈ u.topReg :: (u.cmpRegs ++ u.hlatch.toList))
    (hva : a ∈ v.topReg :: (v.cmpRegs ++ v.hlatch.toList)) : u = v := by
  by_contra hne
  have hp := (List.nodup_flatMap.1 h).2
  have hsymm : Std.Symm (Function.onFun List.Disjoint fun u : UnitCfg => u.topReg :: (u.cmpRegs ++ u.hlatch.toList)) :=
    ⟨fun _ _ hd => List.Disjoint.symm hd⟩
  have : List.Disjoint (u.topReg :: (u.cmpRegs ++ u.hlatch.toList)) (v.topReg :: (v.cmpRegs ++ v.hlatch.toList)) :=
    hp.forall hu hv hne
  exact this hua hva

/-- The unit that owns a TOP or compare register is found. -/
theorem wideOwner_of_mem {c : Config} (h : c.dataRegs.Nodup) {u : UnitCfg} (hu : u ∈ c.units) {a : RegAddr}
    (ha : a = u.topReg ∨ a ∈ u.cmpRegs) : wideOwner c a = some u := by
  have hex : (wideOwner c a).isSome := by
    rw [wideOwner, List.find?_isSome]
    exact ⟨u, hu, by rcases ha with rfl | ha <;> simp [*]⟩
  obtain ⟨v, hv⟩ := Option.isSome_iff_exists.1 hex
  have hvm := List.mem_of_find?_eq_some hv
  have hvp := List.find?_some hv
  have hva : a = v.topReg ∨ a ∈ v.cmpRegs := by
    rw [Bool.or_eq_true, beq_iff_eq, List.contains_iff_mem] at hvp
    exact hvp.imp_left Eq.symm
  rw [hv, dataReg_owner h hvm hu (a := a)]
  · rcases hva with rfl | h <;> simp [*]
  · rcases ha with rfl | h <;> simp [*]

/-- A wide unit's TOP and compare registers are 16-bit registers. -/
theorem regKind_wide {c : Config} (h : c.dataRegs.Nodup) {u : UnitCfg} (hu : u ∈ c.units) (hv : u.variant = .wide)
    {a : RegAddr} (ha : a = u.topReg ∨ a ∈ u.cmpRegs) : regKind c a = some .wide := by
  simp [regKind, wideOwner_of_mem h hu ha, hv]

/-- A narrow unit's TOP and compare registers are 10-bit registers behind its latch. -/
theorem regKind_narrow {c : Config} (h : c.dataRegs.Nodup) {u : UnitCfg} (hu : u ∈ c.units) (hv : u.variant = .narrow)
    {l : RegAddr} (hl : u.hlatch = some l) {a : RegAddr} (ha : a = u.topReg ∨ a ∈ u.cmpRegs) :
    regKind c a = some (.narrow l) := by
  simp [regKind, wideOwner_of_mem h hu ha, hv, hl]

/-- An address that no unit uses for TOP or a compare register has no wide owner. -/
theorem wideOwner_eq_none {c : Config} {a : RegAddr} (h : ∀ u ∈ c.units, a ≠ u.topReg ∧ a ∉ u.cmpRegs) :
    wideOwner c a = none := by
  rw [wideOwner, List.find?_eq_none]
  intro u hu
  rw [Bool.or_eq_true, beq_iff_eq, List.contains_iff_mem, not_or]
  exact ⟨fun e => (h u hu).1 e.symm, (h u hu).2⟩

/-- A unit's HLATCH is an 8-bit latch register. -/
theorem regKind_latch {c : Config} (h : c.dataRegs.Nodup) {u : UnitCfg} (hu : u ∈ c.units) {l : RegAddr}
    (hl : u.hlatch = some l) : regKind c l = some .latch := by
  have hnone : wideOwner c l = none := by
    refine wideOwner_eq_none fun v hv => ?_
    have hlu : l ∈ u.topReg :: (u.cmpRegs ++ u.hlatch.toList) := by simp [hl]
    have hself := (List.nodup_flatMap.1 h).1 u hu
    have hnot : l ≠ u.topReg ∧ l ∉ u.cmpRegs := by
      simp only [hl, Option.toList_some, List.nodup_cons, List.mem_append, List.mem_singleton, not_or] at hself
      refine ⟨fun e => hself.1.2 e.symm, fun hm => ?_⟩
      exact (List.disjoint_of_nodup_append hself.2) hm (by simp)
    by_cases hvm : l ∈ v.topReg :: (v.cmpRegs ++ v.hlatch.toList)
    · rwa [← dataReg_owner h hu hv hlu hvm]
    · simp only [List.mem_cons, List.mem_append, not_or] at hvm
      exact ⟨hvm.1, hvm.2.1⟩
  have hany : (c.units.any fun u => u.hlatch == some l) = true := List.any_eq_true.2 ⟨u, hu, by simp [hl]⟩
  simp [regKind, hnone, hany]

/-- An address that a patch names and no unit uses for data is an 8-bit mode register. -/
theorem regKind_mode {c : Config} {p : Patch} (hp : p ∈ c.allPatches) (h : p.reg ∉ c.dataRegs) :
    regKind c p.reg = some .mode := by
  have hnone : wideOwner c p.reg = none := wideOwner_eq_none fun u hu =>
    ⟨fun e => h (mem_dataRegs hu (.inl e)), fun e => h (mem_dataRegs hu (.inr (.inl e)))⟩
  have hany : (c.units.any fun u => u.hlatch == some p.reg) = false := by
    rw [List.any_eq_false]
    intro u hu e
    exact h (mem_dataRegs hu (.inr (.inr (by simpa using e))))
  have hm : p.reg ∈ c.modeRegs := List.mem_map.2 ⟨p, hp, rfl⟩
  simp [regKind, hnone, hany, hm]

/-- Only a patch's register is a mode register, and it is no data register. -/
theorem regKind_mode_not_data {c : Config} {a : RegAddr} (h : regKind c a = some .mode) : a ∉ c.dataRegs := by
  intro hd
  obtain ⟨u, hu, ha⟩ := List.mem_flatMap.1 hd
  have hw : wideOwner c a = none := by
    unfold regKind at h
    split at h
    · split at h <;> simp at h
    · assumption
  have hn := List.find?_eq_none.1 hw u hu
  simp only [Bool.or_eq_true, beq_iff_eq, List.contains_iff_mem, not_or] at hn
  rcases List.mem_cons.1 ha with rfl | ha
  · exact hn.1 rfl
  · rcases List.mem_append.1 ha with ha | ha
    · exact hn.2 ha
    · have hl : u.hlatch = some a := by simpa using ha
      have : (c.units.any fun u => u.hlatch == some a) = true := List.any_eq_true.2 ⟨u, hu, by simp [hl]⟩
      simp [regKind, hw, this] at h

/-- `unitCfg?` answers a unit of UNITS with the id asked for. -/
theorem unitCfg?_some {c : Config} {i : Byte} {u : UnitCfg} (h : unitCfg? c i = some u) : u ∈ c.units ∧ u.id = i :=
  ⟨List.mem_of_find?_eq_some h, by simpa using List.find?_some h⟩

/-- Every id of UNITS has its settings. -/
theorem unitCfg?_of_mem {c : Config} {i : Byte} (h : i ∈ c.unitIds) : ∃ u, unitCfg? c i = some u := by
  obtain ⟨u, hu, rfl⟩ := List.mem_map.1 h
  refine Option.isSome_iff_exists.1 ?_
  rw [unitCfg?, List.find?_isSome]
  exact ⟨u, hu, by simp⟩

/-- A binding that `Lookup` answers stands in an active row of PINMAP for that pin. -/
theorem lookup_some {c : Config} {pin : Byte} {b : Binding} (h : lookup c pin = some b) :
    ∃ r ∈ c.activeRows, r ∈ c.pinMap ∧ r.pin = pin ∧ r.binding = b := by
  obtain ⟨r, hr, rfl⟩ := Option.map_eq_some_iff.1 h
  have hm := List.mem_of_find?_eq_some hr
  exact ⟨r, hm, (List.mem_filter.1 hm).1, by simpa using List.find?_some hr, rfl⟩

/-- In a well-formed configuration a binding's unit has its settings, and its compare register is that unit's. -/
theorem lookup_unit {c : Config} (hc : c.WellFormed) {pin : Byte} {b : Binding} (h : lookup c pin = some b) :
    ∃ u, unitCfg? c b.unit = some u ∧ u ∈ c.units ∧ u.id = b.unit ∧ b.cmpReg ∈ u.cmpRegs := by
  obtain ⟨r, -, hr, -, rfl⟩ := lookup_some h
  obtain ⟨⟨u, hu, hid, hcmp⟩, -⟩ := hc.2.2.2.1 r hr
  obtain ⟨v, hv⟩ := unitCfg?_of_mem (c := c) (i := r.binding.unit) (hid ▸ List.mem_map.2 ⟨u, hu, rfl⟩)
  obtain ⟨hvm, hvid⟩ := unitCfg?_some hv
  have : v = u := by
    have hnd : (c.units.map (·.id)).Nodup := hc.1.2.2.2.2.2.1
    exact List.inj_on_of_nodup_map hnd hvm hu (hvid.trans hid.symm)
  subst this
  exact ⟨v, hv, hvm, hvid, hcmp⟩

/-- In a well-formed configuration a binding's patch register is a mode register. -/
theorem lookup_patch {c : Config} (hc : c.WellFormed) {pin : Byte} {b : Binding} (h : lookup c pin = some b) :
    regKind c b.patch.reg = some .mode := by
  obtain ⟨r, -, hr, -, rfl⟩ := lookup_some h
  refine regKind_mode ?_ (hc.2.2.2.1 r hr).2
  exact List.mem_append_right _ (List.mem_map.2 ⟨r, hr, rfl⟩)

/-- In a well-formed configuration the units' patch registers are mode registers. -/
theorem unitPatch_mode {c : Config} (hc : c.WellFormed) {u : UnitCfg} (hu : u ∈ c.units) {p : Patch}
    (hp : p ∈ u.wgmPatches ++ u.prescPatches) : regKind c p.reg = some .mode := by
  have hm : p ∈ c.unitPatches := List.mem_flatMap.2 ⟨u, hu, hp⟩
  exact regKind_mode (List.mem_append_left _ hm) (hc.2.2.2.2.2.2.2.2.2.2.2 p hm)

/-- Pin 0 is never supported (40_pinmap R93). -/
theorem lookup_ne_zero {c : Config} (hc : c.PinZeroFree) {pin : Byte} {b : Binding} (h : lookup c pin = some b) :
    pin ≠ 0 := by
  obtain ⟨r, -, hr, rfl, -⟩ := lookup_some h
  exact hc r hr

end Sys2Proof.Machine
end

