-- ==== Sys2Proof/Laws/Memory.lean ====
section
/-! SUPPORT. The register file: a read after a write, the canonical form, and the bus write. -/

namespace Sys2Proof.Machine.Memory

theorem read_nil (a : Nat) : read [] a = absent := rfl

theorem read_cons (b : Nat) (w : Half) (m : Memory) (a : Nat) :
    read ((b, w) :: m) a = if b = a then w else read m a := rfl

/-- A cell that is put in place is read back. -/
theorem read_place_same (a : Nat) (v : Half) (m : Memory) (h : ∀ c ∈ m, c.1 ≠ a) : read (place a v m) a = v := by
  induction m with
  | nil => simp [place, read]
  | cons c m ih =>
    have hc : c.1 ≠ a := h c (by simp)
    have hm := ih fun d hd => h d (by simp [hd])
    by_cases hlt : a < c.1
    · simp [place, hlt, read]
    · simp [place, hlt, read, hc, hm]

/-- Putting a cell in place leaves every other address alone. -/
theorem read_place_other {a b : Nat} (h : b ≠ a) (v : Half) (m : Memory) : read (place a v m) b = read m b := by
  induction m with
  | nil => simp [place, read, h.symm]
  | cons c m ih => by_cases hlt : a < c.1 <;> simp [place, hlt, read, h.symm, ih]

/-- Taking the cells of one address out leaves every other address alone. -/
theorem read_erase_other {a b : Nat} (h : b ≠ a) (m : Memory) : read (m.filter fun c => c.1 != a) b = read m b := by
  induction m with
  | nil => rfl
  | cons c m ih =>
    by_cases hc : c.1 = a
    · have hb : c.1 ≠ b := fun e => h (e ▸ hc)
      rw [List.filter_cons_of_neg (by simp [hc]), ih, read, if_neg hb]
    · rw [List.filter_cons_of_pos (by simp [hc]), read, read, ih]

/-- With the cells of one address taken out, that address reads as absent. -/
theorem read_erase_same (a : Nat) (m : Memory) : read (m.filter fun c => c.1 != a) a = absent := by
  induction m with
  | nil => rfl
  | cons c m ih =>
    by_cases hc : c.1 = a
    · rw [List.filter_cons_of_neg (by simp [hc]), ih]
    · rw [List.filter_cons_of_pos (by simp [hc]), read, if_neg hc, ih]

@[simp] theorem read_write_same (m : Memory) (a : Nat) (v : Half) : (m.write a v).read a = v := by
  by_cases h : v = absent
  · simp [write, h, read_erase_same]
  · simp only [write, h, if_false]
    exact read_place_same a v _ (by simp)

theorem read_write_other (m : Memory) {a b : Nat} (h : b ≠ a) (v : Half) : (m.write a v).read b = m.read b := by
  by_cases hv : v = absent <;> simp [write, hv, read_erase_other h, read_place_other h]

/-- Reading after a write, both cases. -/
theorem read_write (m : Memory) (a b : Nat) (v : Half) :
    (m.write a v).read b = if b = a then v else m.read b := by
  by_cases h : b = a
  · simp [h]
  · simp [h, read_write_other]

/-! The canonical form. -/

theorem mem_place {a : Nat} {v : Half} {m : Memory} {c : Nat × Half} (h : c ∈ place a v m) : c = (a, v) ∨ c ∈ m := by
  induction m with
  | nil => simpa [place] using h
  | cons d m ih =>
    by_cases hlt : a < d.1
    · simpa [place, hlt] using h
    · simp only [place, hlt, if_false, List.mem_cons] at h ⊢
      rcases h with h | h
      · exact .inr (.inl h)
      · exact (ih h).imp_right .inr

theorem mem_write {m : Memory} {a : Nat} {v : Half} {c : Nat × Half} (h : c ∈ m.write a v) : c = (a, v) ∨ c ∈ m := by
  by_cases hv : v = absent
  · simp only [write, hv, if_true, List.mem_filter] at h
    exact .inr h.1
  · simp only [write, hv, if_false] at h
    exact (mem_place h).imp_right fun h => (List.mem_filter.1 h).1

theorem pairwise_place {a : Nat} {v : Half} {m : Memory} (hm : m.Pairwise fun c d => c.1 < d.1)
    (h : ∀ c ∈ m, c.1 ≠ a) : (place a v m).Pairwise fun c d => c.1 < d.1 := by
  induction m with
  | nil => simp [place]
  | cons d m ih =>
    obtain ⟨hd, hm'⟩ := List.pairwise_cons.1 hm
    by_cases hlt : a < d.1
    · simp only [place, hlt, if_true, List.pairwise_cons]
      refine ⟨?_, hd, hm'⟩
      intro c hc
      rcases List.mem_cons.1 hc with rfl | hc
      · exact hlt
      · exact hlt.trans (hd c hc)
    · simp only [place, hlt, if_false, List.pairwise_cons]
      refine ⟨?_, ih hm' fun c hc => h c (by simp [hc])⟩
      intro c hc
      rcases mem_place hc with rfl | hc
      · have := h d (by simp)
        show d.1 < a
        omega
      · exact hd c hc

/-- Every write keeps the canonical form. -/
theorem write_wf {m : Memory} (h : m.wf) (a : Nat) (v : Half) : (m.write a v).wf := by
  obtain ⟨hs, hz⟩ := h
  have hf : (m.filter fun c => c.1 != a).Pairwise fun c d => c.1 < d.1 := hs.filter _
  refine ⟨?_, ?_⟩
  · by_cases hv : v = absent
    · simpa [write, hv] using hf
    · simp only [write, hv, if_false]
      exact pairwise_place hf (by simp)
  · intro c hc
    by_cases hv : v = absent
    · rw [write, if_pos hv, List.mem_filter] at hc
      exact hz c hc.1
    · rcases mem_write hc with rfl | hc
      · exact hv
      · exact hz c hc

/-- A listed cell of a canonical file is what its address reads as. -/
theorem read_of_mem {m : Memory} (h : m.wf) {a : Nat} {v : Half} (hm : (a, v) ∈ m) : m.read a = v := by
  induction m with
  | nil => simp at hm
  | cons c m ih =>
    obtain ⟨hc, hs⟩ := List.pairwise_cons.1 h.1
    rcases List.mem_cons.1 hm with rfl | hm'
    · simp [read]
    · have hne : c.1 ≠ a := by have := hc _ hm'; simp at this; omega
      have := ih ⟨hs, fun d hd => h.2 d (by simp [hd])⟩ hm'
      simp [read, hne, this]

/-- An address that does not read as absent is listed. -/
theorem mem_of_read {m : Memory} {a : Nat} (h : m.read a ≠ absent) : (a, m.read a) ∈ m := by
  induction m with
  | nil => simp [read] at h
  | cons c m ih =>
    by_cases hc : c.1 = a
    · subst hc; simp [read]
    · simp only [read, hc, if_false] at h ⊢
      exact .tail _ (ih h)

/-- The effect of a bus write on what addresses read as: only the register at `a` can change. -/
theorem read_busStore_other (c : Config) {a b : RegAddr} (h : b ≠ a) (v : Half) (m : Memory) :
    (busStore c a v m).read b.toNat = m.read b.toNat := by
  have hn : b.toNat ≠ a.toNat := fun e => h (BitVec.eq_of_toNat_eq e)
  unfold busStore
  split <;> simp [read_write_other _ hn]

theorem busStore_wf {m : Memory} (c : Config) (h : m.wf) (a : RegAddr) (v : Half) : (busStore c a v m).wf := by
  unfold busStore
  split <;> first | exact h | exact write_wf h _ _

end Sys2Proof.Machine.Memory

namespace Sys2Proof.Machine

/-! The bus write of each kind of register, read back. -/

theorem busStore_mode {c : Config} {a : RegAddr} (h : regKind c a = some .mode) (v : Half) (m : Memory) :
    (busStore c a v m).read a.toNat = (v.setWidth 8).setWidth 16 := by simp [busStore, h]

theorem busStore_latch {c : Config} {a : RegAddr} (h : regKind c a = some .latch) (v : Half) (m : Memory) :
    (busStore c a v m).read a.toNat = (v.setWidth 8).setWidth 16 := by simp [busStore, h]

theorem busStore_wide {c : Config} {a : RegAddr} (h : regKind c a = some .wide) (v : Half) (m : Memory) :
    (busStore c a v m).read a.toNat = v := by simp [busStore, h]

theorem busStore_narrow {c : Config} {a l : RegAddr} (h : regKind c a = some (.narrow l)) (v : Half) (m : Memory) :
    (busStore c a v m).read a.toNat =
      (narrowValue ((m.read l.toNat).setWidth 8) (v.setWidth 8)).setWidth 16 := by simp [busStore, h]

end Sys2Proof.Machine
end

