-- ==== Sys2Proof/Laws/State.lean ====
section
/-! SUPPORT. One lemma per field per update of State, so that no proof unfolds a record update; and the accessors over the
updates. -/

namespace Sys2Proof.Machine.State

/-! `setChan`. -/

@[simp] theorem setChan_chans (s : State) (ch : Byte) (x : Channel) : (s.setChan ch x).chans = s.chans.set ch.toNat x := rfl
@[simp] theorem setChan_refcnt (s : State) (ch : Byte) (x : Channel) : (s.setChan ch x).refcnt = s.refcnt := rfl
@[simp] theorem setChan_regs (s : State) (ch : Byte) (x : Channel) : (s.setChan ch x).regs = s.regs := rfl
@[simp] theorem setChan_cfg (s : State) (ch : Byte) (x : Channel) : (s.setChan ch x).cfg = s.cfg := rfl
@[simp] theorem setChan_stream (s : State) (ch : Byte) (x : Channel) : (s.setChan ch x).stream = s.stream := rfl
@[simp] theorem setChan_cpc (s : State) (ch : Byte) (x : Channel) : (s.setChan ch x).cpc = s.cpc := rfl
@[simp] theorem setChan_log (s : State) (ch : Byte) (x : Channel) : (s.setChan ch x).log = s.log := rfl
@[simp] theorem setChan_env (s : State) (ch : Byte) (x : Channel) : (s.setChan ch x).env = s.env := rfl
@[simp] theorem setChan_free (s : State) (ch : Byte) (x : Channel) : (s.setChan ch x).free = s.free := rfl

/-! `setRefcount`. -/

@[simp] theorem setRefcount_chans (s : State) (u : Byte) (n : Nat) : (s.setRefcount u n).chans = s.chans := rfl
@[simp] theorem setRefcount_refcnt (s : State) (u : Byte) (n : Nat) : (s.setRefcount u n).refcnt = s.refcnt.setIfInBounds u.toNat (n % 2 ^ s.cfg.refcntBits) := rfl
@[simp] theorem setRefcount_regs (s : State) (u : Byte) (n : Nat) : (s.setRefcount u n).regs = s.regs := rfl
@[simp] theorem setRefcount_cfg (s : State) (u : Byte) (n : Nat) : (s.setRefcount u n).cfg = s.cfg := rfl
@[simp] theorem setRefcount_stream (s : State) (u : Byte) (n : Nat) : (s.setRefcount u n).stream = s.stream := rfl
@[simp] theorem setRefcount_cpc (s : State) (u : Byte) (n : Nat) : (s.setRefcount u n).cpc = s.cpc := rfl
@[simp] theorem setRefcount_log (s : State) (u : Byte) (n : Nat) : (s.setRefcount u n).log = s.log := rfl
@[simp] theorem setRefcount_env (s : State) (u : Byte) (n : Nat) : (s.setRefcount u n).env = s.env := rfl
@[simp] theorem setRefcount_free (s : State) (u : Byte) (n : Nat) : (s.setRefcount u n).free = s.free := rfl

/-! `incRefcount`. -/

@[simp] theorem incRefcount_chans (s : State) (u : Byte) : (s.incRefcount u).chans = s.chans := rfl
@[simp] theorem incRefcount_refcnt (s : State) (u : Byte) : (s.incRefcount u).refcnt = s.refcnt.setIfInBounds u.toNat ((s.refcount u + 1) % 2 ^ s.cfg.refcntBits) := rfl
@[simp] theorem incRefcount_regs (s : State) (u : Byte) : (s.incRefcount u).regs = s.regs := rfl
@[simp] theorem incRefcount_cfg (s : State) (u : Byte) : (s.incRefcount u).cfg = s.cfg := rfl
@[simp] theorem incRefcount_stream (s : State) (u : Byte) : (s.incRefcount u).stream = s.stream := rfl
@[simp] theorem incRefcount_cpc (s : State) (u : Byte) : (s.incRefcount u).cpc = s.cpc := rfl
@[simp] theorem incRefcount_log (s : State) (u : Byte) : (s.incRefcount u).log = s.log := rfl
@[simp] theorem incRefcount_env (s : State) (u : Byte) : (s.incRefcount u).env = s.env := rfl
@[simp] theorem incRefcount_free (s : State) (u : Byte) : (s.incRefcount u).free = s.free := rfl

/-! `decRefcount`. -/

@[simp] theorem decRefcount_chans (s : State) (u : Byte) : (s.decRefcount u).chans = s.chans := rfl
@[simp] theorem decRefcount_refcnt (s : State) (u : Byte) : (s.decRefcount u).refcnt = s.refcnt.setIfInBounds u.toNat ((s.refcount u + 2 ^ s.cfg.refcntBits - 1) % 2 ^ s.cfg.refcntBits) := rfl
@[simp] theorem decRefcount_regs (s : State) (u : Byte) : (s.decRefcount u).regs = s.regs := rfl
@[simp] theorem decRefcount_cfg (s : State) (u : Byte) : (s.decRefcount u).cfg = s.cfg := rfl
@[simp] theorem decRefcount_stream (s : State) (u : Byte) : (s.decRefcount u).stream = s.stream := rfl
@[simp] theorem decRefcount_cpc (s : State) (u : Byte) : (s.decRefcount u).cpc = s.cpc := rfl
@[simp] theorem decRefcount_log (s : State) (u : Byte) : (s.decRefcount u).log = s.log := rfl
@[simp] theorem decRefcount_env (s : State) (u : Byte) : (s.decRefcount u).env = s.env := rfl
@[simp] theorem decRefcount_free (s : State) (u : Byte) : (s.decRefcount u).free = s.free := rfl

/-! `resetEvent`. -/

@[simp] theorem resetEvent_chans (s : State) : (s.resetEvent).chans = resetChannels s.cfg := rfl
@[simp] theorem resetEvent_refcnt (s : State) : (s.resetEvent).refcnt = Vector.replicate 16 0 := rfl
@[simp] theorem resetEvent_regs (s : State) : (s.resetEvent).regs = s.regs := rfl
@[simp] theorem resetEvent_cfg (s : State) : (s.resetEvent).cfg = s.cfg := rfl
@[simp] theorem resetEvent_stream (s : State) : (s.resetEvent).stream = s.stream := rfl
@[simp] theorem resetEvent_cpc (s : State) : (s.resetEvent).cpc = s.cpc := rfl
@[simp] theorem resetEvent_log (s : State) : (s.resetEvent).log = s.log := rfl
@[simp] theorem resetEvent_env (s : State) : (s.resetEvent).env = s.env := rfl
@[simp] theorem resetEvent_free (s : State) : (s.resetEvent).free = s.free := rfl

/-! `store`. -/

@[simp] theorem store_chans (s : State) (a : RegAddr) (v : Half) : (s.store a v).chans = s.chans := rfl
@[simp] theorem store_refcnt (s : State) (a : RegAddr) (v : Half) : (s.store a v).refcnt = s.refcnt := rfl
@[simp] theorem store_regs (s : State) (a : RegAddr) (v : Half) : (s.store a v).regs = busStore s.cfg a v s.regs := rfl
@[simp] theorem store_cfg (s : State) (a : RegAddr) (v : Half) : (s.store a v).cfg = s.cfg := rfl
@[simp] theorem store_stream (s : State) (a : RegAddr) (v : Half) : (s.store a v).stream = s.stream := rfl
@[simp] theorem store_cpc (s : State) (a : RegAddr) (v : Half) : (s.store a v).cpc = s.cpc := rfl
@[simp] theorem store_log (s : State) (a : RegAddr) (v : Half) : (s.store a v).log = s.log := rfl
@[simp] theorem store_env (s : State) (a : RegAddr) (v : Half) : (s.store a v).env = s.env := rfl
@[simp] theorem store_free (s : State) (a : RegAddr) (v : Half) : (s.store a v).free = s.free := rfl

/-! `emit`. -/

@[simp] theorem emit_chans (s : State) (e : Event) : (s.emit e).chans = s.chans := rfl
@[simp] theorem emit_refcnt (s : State) (e : Event) : (s.emit e).refcnt = s.refcnt := rfl
@[simp] theorem emit_regs (s : State) (e : Event) : (s.emit e).regs = s.regs := rfl
@[simp] theorem emit_cfg (s : State) (e : Event) : (s.emit e).cfg = s.cfg := rfl
@[simp] theorem emit_stream (s : State) (e : Event) : (s.emit e).stream = s.stream := rfl
@[simp] theorem emit_cpc (s : State) (e : Event) : (s.emit e).cpc = s.cpc := rfl
@[simp] theorem emit_log (s : State) (e : Event) : (s.emit e).log = s.log ++ [e] := rfl
@[simp] theorem emit_env (s : State) (e : Event) : (s.emit e).env = s.env := rfl
@[simp] theorem emit_free (s : State) (e : Event) : (s.emit e).free = s.free := rfl

/-! `advance`. -/

@[simp] theorem advance_chans (s : State) (n : Nat) : (s.advance n).chans = s.chans := rfl
@[simp] theorem advance_refcnt (s : State) (n : Nat) : (s.advance n).refcnt = s.refcnt := rfl
@[simp] theorem advance_regs (s : State) (n : Nat) : (s.advance n).regs = s.regs := rfl
@[simp] theorem advance_cfg (s : State) (n : Nat) : (s.advance n).cfg = s.cfg := rfl
@[simp] theorem advance_stream (s : State) (n : Nat) : (s.advance n).stream = s.stream := rfl
@[simp] theorem advance_cpc (s : State) (n : Nat) : (s.advance n).cpc = s.cpc + n := rfl
@[simp] theorem advance_log (s : State) (n : Nat) : (s.advance n).log = s.log := rfl
@[simp] theorem advance_env (s : State) (n : Nat) : (s.advance n).env = s.env := rfl
@[simp] theorem advance_free (s : State) (n : Nat) : (s.advance n).free = s.free := rfl

/-! `takeFree`. -/

@[simp] theorem takeFree_chans (s : State) : (s.takeFree).chans = s.chans := rfl
@[simp] theorem takeFree_refcnt (s : State) : (s.takeFree).refcnt = s.refcnt := rfl
@[simp] theorem takeFree_regs (s : State) : (s.takeFree).regs = s.regs := rfl
@[simp] theorem takeFree_cfg (s : State) : (s.takeFree).cfg = s.cfg := rfl
@[simp] theorem takeFree_stream (s : State) : (s.takeFree).stream = s.stream := rfl
@[simp] theorem takeFree_cpc (s : State) : (s.takeFree).cpc = s.cpc := rfl
@[simp] theorem takeFree_log (s : State) : (s.takeFree).log = s.log := rfl
@[simp] theorem takeFree_env (s : State) : (s.takeFree).env = s.env := rfl
@[simp] theorem takeFree_free (s : State) : (s.takeFree).free = s.free + 1 := rfl

/-! The accessors over the updates that leave their fields alone. -/

@[simp] theorem emit_chan (s : State) (e : Event) (ch : Byte) : (s.emit e).chan ch = s.chan ch := rfl
@[simp] theorem store_chan (s : State) (a : RegAddr) (v : Half) (ch : Byte) : (s.store a v).chan ch = s.chan ch := rfl
@[simp] theorem advance_chan (s : State) (n : Nat) (ch : Byte) : (s.advance n).chan ch = s.chan ch := rfl
@[simp] theorem setRefcount_chan (s : State) (u : Byte) (n : Nat) (ch : Byte) :
    (s.setRefcount u n).chan ch = s.chan ch := rfl
@[simp] theorem incRefcount_chan (s : State) (u : Byte) (ch : Byte) : (s.incRefcount u).chan ch = s.chan ch := rfl
@[simp] theorem decRefcount_chan (s : State) (u : Byte) (ch : Byte) : (s.decRefcount u).chan ch = s.chan ch := rfl

@[simp] theorem takeFree_chan (s : State) (ch : Byte) : s.takeFree.chan ch = s.chan ch := rfl
@[simp] theorem takeFree_reg (s : State) (a : RegAddr) : s.takeFree.reg a = s.reg a := rfl
@[simp] theorem emit_reg (s : State) (e : Event) (a : RegAddr) : (s.emit e).reg a = s.reg a := rfl
@[simp] theorem advance_reg (s : State) (n : Nat) (a : RegAddr) : (s.advance n).reg a = s.reg a := rfl
@[simp] theorem setChan_reg (s : State) (ch : Byte) (x : Channel) (a : RegAddr) : (s.setChan ch x).reg a = s.reg a := rfl
@[simp] theorem setRefcount_reg (s : State) (u : Byte) (n : Nat) (a : RegAddr) :
    (s.setRefcount u n).reg a = s.reg a := rfl
@[simp] theorem incRefcount_reg (s : State) (u : Byte) (a : RegAddr) : (s.incRefcount u).reg a = s.reg a := rfl
@[simp] theorem decRefcount_reg (s : State) (u : Byte) (a : RegAddr) : (s.decRefcount u).reg a = s.reg a := rfl
@[simp] theorem resetEvent_reg (s : State) (a : RegAddr) : s.resetEvent.reg a = s.reg a := rfl

@[simp] theorem emit_refcount (s : State) (e : Event) (u : Byte) : (s.emit e).refcount u = s.refcount u := rfl
@[simp] theorem store_refcount (s : State) (a : RegAddr) (v : Half) (u : Byte) :
    (s.store a v).refcount u = s.refcount u := rfl
@[simp] theorem advance_refcount (s : State) (n : Nat) (u : Byte) : (s.advance n).refcount u = s.refcount u := rfl
@[simp] theorem setChan_refcount (s : State) (ch : Byte) (x : Channel) (u : Byte) :
    (s.setChan ch x).refcount u = s.refcount u := rfl

/-- A context just written is read back, in a machine that has it. -/
theorem setChan_chan_same {s : State} {ch : Byte} (h : ch.toNat < s.chans.length) (x : Channel) :
    (s.setChan ch x).chan ch = x := by
  simp [chan, setChan, List.getD_eq_getElem?_getD, h]

/-- Writing one context leaves the others alone. -/
theorem setChan_chan_other {s : State} {ch c : Byte} (h : c ≠ ch) (x : Channel) :
    (s.setChan ch x).chan c = s.chan c := by
  have : ch.toNat ≠ c.toNat := fun e => h (BitVec.eq_of_toNat_eq e.symm)
  simp [chan, setChan, List.getD_eq_getElem?_getD, this]

/-- A counter just written is read back, modulo its width. -/
theorem setRefcount_refcount_same {s : State} {u : Byte} (h : u.toNat < 16) (n : Nat) :
    (s.setRefcount u n).refcount u = n % 2 ^ s.cfg.refcntBits := by
  simp [refcount, h]

/-- Writing one counter leaves the others alone. -/
theorem setRefcount_refcount_other {s : State} {u v : Byte} (h : v ≠ u) (n : Nat) :
    (s.setRefcount u n).refcount v = s.refcount v := by
  have : u.toNat ≠ v.toNat := fun e => h (BitVec.eq_of_toNat_eq e.symm)
  simp [refcount, this]

end Sys2Proof.Machine.State
end

