-- ==== Sys2Proof/Laws/Ports.lean ====
section
/-! SUPPORT. The shared operations: what each computes with a quiet outside, and what each can do with any outside. -/

namespace Sys2Proof.Machine

/-! Sequencing. -/

@[simp] theorem ok_bind {α β : Type} (a : α) (f : α → Except Stop β) : (Except.ok a >>= f) = f a := rfl
@[simp] theorem error_bind {α β : Type} (e : Stop) (f : α → Except Stop β) :
    ((Except.error e : Except Stop α) >>= f) = Except.error e := rfl
@[simp] theorem finish_ok (s : State) : finish (.ok s) = .next s := rfl

/-! A quiet outside. -/

section Quiet
variable {s : State}

theorem portSlot_quiet (h : s.Quiet) : portSlot s = .ok s := by simp [portSlot, h]

theorem respond_quiet (h : s.Quiet) (r : Response) : respond r s = .ok (s.answer r) := by
  simp [respond, portSlot_quiet h, State.answer]

theorem gpioDir_quiet (h : s.Quiet) (pin : Byte) (d : Direction) :
    gpioDir pin d s = .ok (s.emit (.gpioDir pin d)) := by simp [gpioDir, portSlot_quiet h]

theorem memRead8_quiet (h : s.Quiet) {a : RegAddr} (hk : regKind s.cfg a = some .mode) :
    memRead8 a s = .ok (s.reg8 a, s.emit (.rd a (s.reg8 a))) := by simp [memRead8, portSlot_quiet h, hk]

theorem memWrite8_quiet (h : s.Quiet) {a : RegAddr} (hk : regKind s.cfg a = some .mode) (v : Byte) :
    memWrite8 a v s = .ok ((s.store a (v.setWidth 16)).emit (.wr8 a v)) := by simp [memWrite8, portSlot_quiet h, hk]

theorem rmw_quiet (h : s.Quiet) {p : Patch} (hk : regKind s.cfg p.reg = some .mode) :
    rmw p s = .ok (s.rmwAtomic p) := by
  have h2 : (s.emit (.rd p.reg (s.reg8 p.reg))).Quiet := h
  simp [rmw, memRead8_quiet h hk, memWrite8_quiet h2 hk, State.rmwAtomic]

/-- A write of a unit's TOP or compare register, in a well-formed configuration. -/
theorem wideWrite_quiet (h : s.Quiet) (hc : s.cfg.WellFormed) {u : UnitCfg} (hu : u ∈ s.cfg.units) {a : RegAddr}
    (ha : a = u.topReg ∨ a ∈ u.cmpRegs) (v : Half) : wideWrite u a v s = .ok (s.wideAtomic u a v) := by
  have hnd : s.cfg.dataRegs.Nodup := hc.2.2.2.2.2.2.2.2.2.2.1
  rcases hc.2.2.2.2.2.2.2.2.1 u hu with ⟨hv, -, -⟩ | ⟨hv, -, hl⟩
  · have hk := regKind_wide hnd hu hv ha
    simp [wideWrite, State.wideAtomic, hv, memWrite16, portSlot_quiet h, hk]
  · obtain ⟨l, hl⟩ := Option.isSome_iff_exists.1 hl
    have hk := regKind_narrow hnd hu hv hl ha
    simp [wideWrite, State.wideAtomic, hv, hl, memWriteLocked, portSlot_quiet h, hk]

end Quiet

/-! The atomic transitions leave everything but the registers and the history alone. -/

section AtomicFrame
variable (s : State)

@[simp] theorem rmwAtomic_cfg (p : Patch) : (s.rmwAtomic p).cfg = s.cfg := rfl
@[simp] theorem rmwAtomic_env (p : Patch) : (s.rmwAtomic p).env = s.env := rfl
@[simp] theorem rmwAtomic_chans (p : Patch) : (s.rmwAtomic p).chans = s.chans := rfl
@[simp] theorem rmwAtomic_refcnt (p : Patch) : (s.rmwAtomic p).refcnt = s.refcnt := rfl
@[simp] theorem rmwAtomic_stream (p : Patch) : (s.rmwAtomic p).stream = s.stream := rfl
@[simp] theorem rmwAtomic_cpc (p : Patch) : (s.rmwAtomic p).cpc = s.cpc := rfl
@[simp] theorem rmwAtomic_free (p : Patch) : (s.rmwAtomic p).free = s.free := rfl
@[simp] theorem rmwAtomic_regs (p : Patch) : (s.rmwAtomic p).regs =
    busStore s.cfg p.reg ((patched p (s.reg8 p.reg)).setWidth 16) s.regs := rfl
@[simp] theorem rmwAtomic_log (p : Patch) : (s.rmwAtomic p).log =
    s.log ++ [.rd p.reg (s.reg8 p.reg)] ++ [.wr8 p.reg (patched p (s.reg8 p.reg))] := rfl

variable (u : UnitCfg) (a : RegAddr) (v : Half)

@[simp] theorem wideAtomic_cfg : (s.wideAtomic u a v).cfg = s.cfg := by unfold State.wideAtomic; split <;> rfl
@[simp] theorem wideAtomic_env : (s.wideAtomic u a v).env = s.env := by unfold State.wideAtomic; split <;> rfl
@[simp] theorem wideAtomic_chans : (s.wideAtomic u a v).chans = s.chans := by unfold State.wideAtomic; split <;> rfl
@[simp] theorem wideAtomic_refcnt : (s.wideAtomic u a v).refcnt = s.refcnt := by unfold State.wideAtomic; split <;> rfl
@[simp] theorem wideAtomic_stream : (s.wideAtomic u a v).stream = s.stream := by unfold State.wideAtomic; split <;> rfl
@[simp] theorem wideAtomic_cpc : (s.wideAtomic u a v).cpc = s.cpc := by unfold State.wideAtomic; split <;> rfl
@[simp] theorem wideAtomic_free : (s.wideAtomic u a v).free = s.free := by unfold State.wideAtomic; split <;> rfl

end AtomicFrame

/-- The fields that no port action touches, whatever the outside does between: contexts, counters, configuration, command
index, free-value counter. -/
abbrev SameCore (s t : State) : Prop :=
  t.chans = s.chans ∧ t.refcnt = s.refcnt ∧ t.cfg = s.cfg ∧ t.cpc = s.cpc ∧ t.free = s.free

theorem SameCore.chan {s t : State} (h : SameCore s t) (ch : Byte) : t.chan ch = s.chan ch := by
  simp [State.chan, h.1, h.2.2.1]

theorem SameCore.refcount {s t : State} (h : SameCore s t) (u : Byte) : t.refcount u = s.refcount u := by
  simp [State.refcount, h.2.1]

theorem SameCore.trans {r s t : State} (h : SameCore r s) (k : SameCore s t) : SameCore r t :=
  ⟨k.1.trans h.1, k.2.1.trans h.2.1, k.2.2.1.trans h.2.2.1, k.2.2.2.1.trans h.2.2.2.1, k.2.2.2.2.trans h.2.2.2.2⟩

theorem SameCore.refl (s : State) : SameCore s s := ⟨rfl, rfl, rfl, rfl, rfl⟩

@[simp] theorem applyEvents_nil (s : State) : s.applyEvents [] = s := rfl
@[simp] theorem applyEvents_cons (s : State) (e : EnvEvent) (es : List EnvEvent) :
    s.applyEvents (e :: es) = (s.applyEvent e).applyEvents es := rfl

@[simp] theorem applyEvent_cfg (s : State) (e : EnvEvent) : (s.applyEvent e).cfg = s.cfg := by cases e <;> rfl

@[simp] theorem applyEvents_cfg (s : State) (es : List EnvEvent) : (s.applyEvents es).cfg = s.cfg := by
  induction es generalizing s with
  | nil => rfl
  | cons e es ih => simp [ih]

/-- Events without a reset leave the core alone. -/
theorem applyEvents_core {es : List EnvEvent} (h : EnvEvent.reset ∉ es) (s : State) : SameCore s (s.applyEvents es) := by
  induction es generalizing s with
  | nil => exact .refl s
  | cons e es ih =>
    simp only [List.mem_cons, not_or] at h
    refine .trans ?_ (ih h.2 (s.applyEvent e))
    cases e with
    | reset => exact absurd rfl h.1
    | send ws => exact ⟨rfl, rfl, rfl, rfl, rfl⟩
    | foreignRead a => exact .refl s
    | foreignWrite a v => exact ⟨rfl, rfl, rfl, rfl, rfl⟩

/-- A slot that does not stop the command leaves the core alone; the history is the block's alone. -/
theorem portSlot_ok {s t : State} (h : portSlot s = .ok t) : SameCore s t := by
  unfold portSlot at h
  split at h
  · cases h; exact .refl s
  · split at h
    · cases h
    · cases h
      rename_i slot later _ hr
      exact applyEvents_core hr { s with env := later }

/-- The events of the outside add nothing to the history. -/
theorem applyEvents_log (s : State) (es : List EnvEvent) : (s.applyEvents es).log = s.log := by
  induction es generalizing s with
  | nil => rfl
  | cons e es ih => rw [applyEvents_cons, ih]; cases e <;> rfl

end Sys2Proof.Machine
end

