-- ==== Sys2Proof/Laws/Runs.lean ====
section
/-! SUPPORT. The procedures of the components with a quiet outside: each runs to its end and computes its atomic
transition. -/

namespace Sys2Proof.Machine

theorem onChannel_legal {ch : Byte} {s : State} (h : ch.toNat < s.cfg.nch) (f : Channel → Run) :
    onChannel ch s f = finish (f (s.chan ch)) := by simp [onChannel, h]

theorem onChannel_illegal {ch : Byte} {s : State} (h : ¬ ch.toNat < s.cfg.nch) (f : Channel → Run) :
    onChannel ch s f = finish (respond illegalCommand s) := by simp [onChannel, h]

theorem onUnit_legal {u : Byte} {s : State} {x : UnitCfg} (h : unitCfg? s.cfg u = some x) (f : UnitCfg → Run) :
    onUnit u s f = finish (f x) := by simp [onUnit, h]

theorem onUnit_illegal {u : Byte} {s : State} (h : unitCfg? s.cfg u = none) (f : UnitCfg → Run) :
    onUnit u s f = finish (respond illegalCommand s) := by simp [onUnit, h]

theorem boundTo_some {pin : Byte} {s : State} {b : Binding} (h : lookup s.cfg pin = some b) :
    boundTo pin s = .ok b := by simp [boundTo, h]

theorem needUnit_some {u : Byte} {s : State} {x : UnitCfg} (h : unitCfg? s.cfg u = some x) :
    needUnit u s = .ok x := by simp [needUnit, h]

@[simp] theorem foldl_rmwAtomic_cfg (ps : List Patch) (s : State) : (ps.foldl State.rmwAtomic s).cfg = s.cfg := by
  induction ps generalizing s with
  | nil => rfl
  | cons p ps ih => simp [ih]

@[simp] theorem foldl_rmwAtomic_env (ps : List Patch) (s : State) : (ps.foldl State.rmwAtomic s).env = s.env := by
  induction ps generalizing s with
  | nil => rfl
  | cons p ps ih => simp [ih]

/-- A run of patches changes only registers and history. -/
theorem foldl_rmwAtomic_core (ps : List Patch) (s : State) : SameCore s (ps.foldl State.rmwAtomic s) := by
  induction ps generalizing s with
  | nil => exact .refl s
  | cons p ps ih => exact SameCore.trans ⟨rfl, rfl, rfl, rfl, rfl⟩ (ih (s.rmwAtomic p))

@[simp] theorem foldl_rmwAtomic_stream (ps : List Patch) (s : State) :
    (ps.foldl State.rmwAtomic s).stream = s.stream := by
  induction ps generalizing s with
  | nil => rfl
  | cons p ps ih => simp [ih]

theorem wideAtomic_core (s : State) (u : UnitCfg) (a : RegAddr) (v : Half) : SameCore s (s.wideAtomic u a v) := by
  simp [SameCore]

theorem applyPatches_quiet (ps : List Patch) {s : State} (h : s.Quiet)
    (hk : ∀ p ∈ ps, regKind s.cfg p.reg = some .mode) : applyPatches ps s = .ok (ps.foldl State.rmwAtomic s) := by
  induction ps generalizing s with
  | nil => rfl
  | cons p ps ih =>
    simp only [applyPatches, rmw_quiet h (hk p (by simp)), ok_bind, List.foldl_cons]
    exact ih h fun q hq => hk q (by simp [hq])

/-- `Configure(u)` of a well-formed configuration's unit. -/
theorem configure_quiet {s : State} (h : s.Quiet) (hc : s.cfg.WellFormed) {u : UnitCfg} (hu : u ∈ s.cfg.units) :
    configure u s = .ok (s.configureAtomic u) := by
  have hm : ∀ p ∈ u.wgmPatches ++ u.prescPatches, regKind s.cfg p.reg = some .mode := fun p hp =>
    unitPatch_mode hc hu hp
  have hp2 := applyPatches_quiet u.prescPatches (s := u.wgmPatches.foldl State.rmwAtomic s) (by simpa [State.Quiet] using h)
    (by simpa using fun p hp => hm p (List.mem_append_right _ hp))
  have hw := wideWrite_quiet (s := u.prescPatches.foldl State.rmwAtomic (u.wgmPatches.foldl State.rmwAtomic s))
    (by simpa [State.Quiet] using h) (by rw [foldl_rmwAtomic_cfg, foldl_rmwAtomic_cfg]; exact hc)
    (u := u) (by simpa using hu) (.inl rfl) (BitVec.ofNat 16 u.topValue)
  simp only [configure, applyPatches_quiet u.wgmPatches h fun p hp => hm p (List.mem_append_left _ hp), ok_bind, hp2, hw]
  rfl

theorem configureAtomic_core (s : State) (u : UnitCfg) : SameCore s (s.configureAtomic u) :=
  (foldl_rmwAtomic_core _ s).trans ((foldl_rmwAtomic_core _ _).trans (wideAtomic_core _ _ _ _))

@[simp] theorem configureAtomic_env (s : State) (u : UnitCfg) : (s.configureAtomic u).env = s.env := by
  simp [State.configureAtomic]

@[simp] theorem configureAtomic_stream (s : State) (u : UnitCfg) : (s.configureAtomic u).stream = s.stream := by
  simp [State.configureAtomic]

/-- `DetachCore(c)` of a channel whose pin is bound. -/
theorem detachCore_quiet {s : State} (h : s.Quiet) (hc : s.cfg.WellFormed) {ch : Byte} {b : Binding}
    (hb : lookup s.cfg (s.chan ch).pin = some b) : detachCore ch s = .ok (s.detachAtomic ch) := by
  obtain ⟨u, hu, hum, -, hcmp⟩ := lookup_unit hc hb
  have hq : (s.wideAtomic u b.cmpReg 0).Quiet := by simpa [State.Quiet] using h
  simp only [detachCore, boundTo_some hb, needUnit_some hu, cmpWrite, wideWrite_quiet h hc hum (.inr hcmp),
    gpioDir_quiet hq, State.detachAtomic, State.onBinding, hb, hu, ok_bind]

@[simp] theorem onBinding_cfg (s : State) (pin : Byte) (f : Binding → UnitCfg → State)
    (hf : ∀ b u, (f b u).cfg = s.cfg) : (s.onBinding pin f).cfg = s.cfg := by
  unfold State.onBinding
  split
  · rfl
  · split <;> simp [hf]

@[simp] theorem unbind_cfg (ch : Byte) (b : Binding) (s : State) : (unbind ch b s).cfg = s.cfg := rfl
@[simp] theorem unbind_env (ch : Byte) (b : Binding) (s : State) : (unbind ch b s).env = s.env := rfl

@[simp] theorem detachAtomic_cfg (s : State) (ch : Byte) : (s.detachAtomic ch).cfg = s.cfg := by
  rw [State.detachAtomic, onBinding_cfg]; simp

@[simp] theorem detachAtomic_env (s : State) (ch : Byte) : (s.detachAtomic ch).env = s.env := by
  unfold State.detachAtomic State.onBinding
  split
  · rfl
  · split <;> simp

@[simp] theorem bindChannel_cfg (ch pin : Byte) (b : Binding) (k : Calibration) (s : State) :
    (bindChannel ch pin b k s).cfg = s.cfg := by simp only [bindChannel]; split <;> rfl

@[simp] theorem bindChannel_env (ch pin : Byte) (b : Binding) (k : Calibration) (s : State) :
    (bindChannel ch pin b k s).env = s.env := by simp only [bindChannel]; split <;> rfl

/-- Steps 3 to 7 of `AttachCore` for a supported pin. -/
theorem attachBound_quiet {s : State} (h : s.Quiet) (hc : s.cfg.WellFormed) {ch pin : Byte} {b : Binding}
    (hb : lookup s.cfg pin = some b) (k : Calibration) :
    attachBound ch pin b k s = .ok (s.attachBoundAtomic ch pin b k) := by
  obtain ⟨u, hu, hum, -, -⟩ := lookup_unit hc hb
  have hp := lookup_patch hc hb
  have tail : ∀ s1 : State, s1.Quiet → s1.cfg = s.cfg →
      (do let s2 ← applyModePatch b s1
          let s3 ← gpioDir pin .output (bindChannel ch pin b k s2)
          respond okResponse s3) =
      (.ok (((bindChannel ch pin b k (s1.rmwAtomic b.patch)).emit (.gpioDir pin .output)).answer okResponse) : Run) := by
    intro s1 hq hcfg
    have hq2 : (bindChannel ch pin b k (s1.rmwAtomic b.patch)).Quiet := by simpa [State.Quiet] using hq
    have hq3 : ((bindChannel ch pin b k (s1.rmwAtomic b.patch)).emit (.gpioDir pin .output)).Quiet := hq2
    simp [applyModePatch, rmw_quiet hq (hcfg ▸ hp), gpioDir_quiet hq2, respond_quiet hq3]
  by_cases hcnt : s.configured b.unit = true
  · simp only [attachBound, configureIfFirst, hcnt, if_true, ok_bind, State.attachBoundAtomic, tail s h rfl]
  · have hcf := configure_quiet h hc hum
    have := tail (s.configureAtomic u) (by simpa [State.Quiet] using h) (configureAtomic_core s u).2.2.1
    simp only [attachBound, configureIfFirst, hcnt, if_false, needUnit_some hu, ok_bind, hcf, State.attachBoundAtomic,
      hu, this, Bool.false_eq_true]

end Sys2Proof.Machine
end

