-- ==== Sys2Proof/Laws/Counters.lean ====
section
/-! SUPPORT. The attach counters: what they count (spec/10_state.md R41 clause 2), and what binding and unbinding a channel
does to them and to the invariant. -/

namespace Sys2Proof.Machine

variable {s : State}

theorem chan_eq_getElem {ch : Byte} (h : ch.toNat < s.chans.length) : s.chan ch = s.chans[ch.toNat] := by
  simp [State.chan, List.getD_eq_getElem?_getD, h]

theorem chan_mem {ch : Byte} (hs : s.ChannelsSized) (h : ch.toNat < s.cfg.nch) : s.chan ch ∈ s.chans := by
  rw [chan_eq_getElem (hs ▸ h)]; exact List.getElem_mem _

/-- An attached channel's pin has a binding (10_state R41 clause 1). -/
theorem bound_of_attached {ch : Byte} (hI : s.Inv) (h : ch.toNat < s.cfg.nch) (hp : (s.chan ch).pin ≠ 0) :
    ∃ b, lookup s.cfg (s.chan ch).pin = some b := by
  rcases hI.2.1 _ (chan_mem hI.1 h) with h0 | h0
  · exact absurd h0 hp
  · exact Option.isSome_iff_exists.1 h0

theorem attached_iff (c : Config) (u : Byte) (x : Channel) :
    State.Attached c u x = true ↔ x.pin ≠ 0 ∧ ∃ b, lookup c x.pin = some b ∧ b.unit = u := by
  simp [State.Attached, Channel.attached, Option.any_eq_true]

theorem refcount_eq (hx : s.CountersExact) {u : Byte} (hu : u.toNat < 16) : s.refcount u = s.attachedTo u := by
  have := hx ⟨u.toNat, hu⟩
  simpa [State.refcount, hu] using this

theorem countersExact_of (h : ∀ u : Byte, u.toNat < 16 → s.refcount u = s.attachedTo u) : s.CountersExact := by
  intro k
  have hk : (BitVec.ofNat 8 k : Byte).toNat = k := by
    have := k.isLt
    rw [BitVec.toNat_ofNat]; omega
  have := h (BitVec.ofNat 8 k) (by omega)
  simpa [State.refcount, hk] using this

theorem attachedTo_le (u : Byte) : s.attachedTo u ≤ s.chans.length := List.countP_le_length

theorem attachedTo_pos {ch u : Byte} (h : ch.toNat < s.chans.length) (ha : State.Attached s.cfg u (s.chan ch) = true) :
    0 < s.attachedTo u := by
  rw [State.attachedTo, List.countP_pos_iff]
  exact ⟨_, by rw [chan_eq_getElem h]; exact List.getElem_mem _, ha⟩

/-- The count after one context is replaced. -/
theorem attachedTo_setChan {ch : Byte} (h : ch.toNat < s.chans.length) (x : Channel) (u : Byte) :
    (s.setChan ch x).attachedTo u + (if State.Attached s.cfg u (s.chan ch) then 1 else 0) =
      s.attachedTo u + (if State.Attached s.cfg u x then 1 else 0) := by
  have hpos : State.Attached s.cfg u (s.chan ch) = true → 0 < s.attachedTo u := attachedTo_pos h
  have hset : (s.setChan ch x).attachedTo u = s.attachedTo u -
      (if State.Attached s.cfg u (s.chan ch) then 1 else 0) + (if State.Attached s.cfg u x then 1 else 0) := by
    rw [chan_eq_getElem h]
    exact List.countP_set h
  rw [hset]
  cases hy : State.Attached s.cfg u (s.chan ch)
  · simp
  · have := hpos hy
    simp only [if_true]
    omega

/-- A bound unit's id indexes a counter. -/
theorem unit_lt {c : Config} (hc : c.WellFormed) {pin : Byte} {b : Binding} (hb : lookup c pin = some b) :
    b.unit.toNat < 16 := by
  obtain ⟨u, -, hu, hid, -⟩ := lookup_unit hc hb
  have := hc.1.2.2.2.2.2.2 u hu
  rw [← hid]; exact this.1

theorem nch_lt {c : Config} (hc : c.WellFormed) : c.nch < 2 ^ c.refcntBits := hc.1.2.2.2.2.1

/-! Unbinding. -/

section Unbind
variable {ch : Byte} {b : Binding}

theorem unbind_chan_same (h : ch.toNat < s.chans.length) : (unbind ch b s).chan ch = { s.chan ch with pin := 0 } := by
  rw [unbind, State.setChan_chan_same (by simpa using h)]

theorem unbind_chan_other {c : Byte} (h : c ≠ ch) : (unbind ch b s).chan c = s.chan c := by
  rw [unbind, State.setChan_chan_other h, State.decRefcount_chan]

theorem unbind_refcount_other {u : Byte} (h : u ≠ b.unit) : (unbind ch b s).refcount u = s.refcount u := by
  rw [unbind, State.setChan_refcount, State.decRefcount, State.setRefcount_refcount_other h]

variable (hc : s.cfg.WellFormed) (hI : s.Inv) (h : ch.toNat < s.cfg.nch) (hb : lookup s.cfg (s.chan ch).pin = some b)
include hc hI h hb

theorem unbind_refcount_same : (unbind ch b s).refcount b.unit + 1 = s.refcount b.unit := by
  have hu := unit_lt hc hb
  have hp := lookup_ne_zero hc.2.1 hb
  have hlen : ch.toNat < s.chans.length := hI.1 ▸ h
  have hpos := attachedTo_pos (u := b.unit) hlen ((attached_iff _ _ _).2 ⟨hp, b, hb, rfl⟩)
  have hle : s.attachedTo b.unit ≤ s.cfg.nch := hI.1 ▸ attachedTo_le b.unit
  have hn := nch_lt hc
  rw [unbind, State.setChan_refcount, State.decRefcount, State.setRefcount_refcount_same hu, refcount_eq hI.2.2.1 hu]
  rw [show s.attachedTo b.unit + 2 ^ s.cfg.refcntBits - 1 = s.attachedTo b.unit - 1 + 2 ^ s.cfg.refcntBits by
    clear hc; omega, Nat.add_mod_right, Nat.mod_eq_of_lt (by clear hc; omega)]
  omega

theorem unbind_inv : (unbind ch b s).Inv := by
  have hp := lookup_ne_zero hc.2.1 hb
  have hlen : ch.toNat < s.chans.length := hI.1 ▸ h
  have hat : ∀ u, State.Attached s.cfg u (s.chan ch) = true ↔ b.unit = u := fun u => by
    rw [attached_iff, hb]
    exact ⟨fun h => by obtain ⟨-, b', e, h⟩ := h; cases e; exact h, fun h => ⟨hp, b, rfl, h⟩⟩
  refine ⟨by simpa [State.ChannelsSized, unbind] using hI.1, ?_, countersExact_of fun u hu => ?_, hI.2.2.2.1, hI.2.2.2.2⟩
  · intro x hx
    rcases List.mem_or_eq_of_mem_set hx with hx | rfl
    · exact hI.2.1 x hx
    · exact .inl rfl
  · have hset := attachedTo_setChan hlen { s.chan ch with pin := 0 } u
    have hz : State.Attached s.cfg u { s.chan ch with pin := 0 } = false := by simp [State.Attached, Channel.attached]
    have hsame : (unbind ch b s).attachedTo u = (s.setChan ch { s.chan ch with pin := 0 }).attachedTo u := rfl
    rw [hsame]
    by_cases e : u = b.unit
    · subst e
      have := unbind_refcount_same hc hI h hb
      rw [refcount_eq hI.2.2.1 hu] at this
      rw [(hat b.unit).2 rfl, hz, if_pos rfl, if_neg Bool.false_ne_true] at hset
      omega
    · have hn : State.Attached s.cfg u (s.chan ch) = false := by
        rw [← Bool.not_eq_true, hat]; exact fun h => e h.symm
      rw [unbind_refcount_other e, refcount_eq hI.2.2.1 hu]
      rw [hn, hz, if_neg Bool.false_ne_true] at hset
      omega

end Unbind

/-! Binding. -/

section Bind
variable {ch pin : Byte} {b : Binding} {k : Calibration}

theorem bindChannel_chan_same (h : ch.toNat < s.chans.length) :
    (bindChannel ch pin b k s).chan ch = { (s.chan ch).calibrated k with pin := pin } := by
  simp only [bindChannel]
  split
  · rename_i hp
    rw [State.setChan_chan_same h, ← hp]
  · rw [State.setChan_chan_same (by simpa using h)]

theorem bindChannel_chan_other {c : Byte} (h : c ≠ ch) : (bindChannel ch pin b k s).chan c = s.chan c := by
  simp only [bindChannel]
  split
  · rw [State.setChan_chan_other h]
  · rw [State.setChan_chan_other h, State.incRefcount_chan]

theorem bindChannel_reg (a : RegAddr) : (bindChannel ch pin b k s).reg a = s.reg a := by
  simp only [bindChannel]; split <;> rfl

theorem bindChannel_refcount_held (hp : (s.chan ch).pin = pin) (u : Byte) :
    (bindChannel ch pin b k s).refcount u = s.refcount u := by
  have : ((s.chan ch).calibrated k).pin = pin := hp
  simp only [bindChannel, this, if_true]; rfl

theorem bindChannel_refcount_other {u : Byte} (h : u ≠ b.unit) :
    (bindChannel ch pin b k s).refcount u = s.refcount u := by
  simp only [bindChannel]
  split
  · rfl
  · rw [State.setChan_refcount, State.incRefcount, State.setRefcount_refcount_other h]

variable (hc : s.cfg.WellFormed) (hI : s.Inv) (h : ch.toNat < s.cfg.nch) (hb : lookup s.cfg pin = some b)
include hc hI h hb

theorem bindChannel_refcount_new (hp : (s.chan ch).pin = 0) :
    (bindChannel ch pin b k s).refcount b.unit = s.refcount b.unit + 1 := by
  have hu := unit_lt hc hb
  have hp0 := lookup_ne_zero hc.2.1 hb
  have hlen : ch.toNat < s.chans.length := hI.1 ▸ h
  have hne : ((s.chan ch).calibrated k).pin ≠ pin := by
    show (s.chan ch).pin ≠ pin
    rw [hp]; exact hp0.symm
  have hset := attachedTo_setChan hlen { (s.chan ch).calibrated k with pin := pin } b.unit
  have hn : State.Attached s.cfg b.unit (s.chan ch) = false := by simp [State.Attached, Channel.attached, hp]
  have hy : State.Attached s.cfg b.unit { (s.chan ch).calibrated k with pin := pin } = true :=
    (attached_iff _ _ _).2 ⟨hp0, b, hb, rfl⟩
  rw [hn, hy, if_pos rfl, if_neg Bool.false_ne_true] at hset
  have hle := attachedTo_le (s := s.setChan ch { (s.chan ch).calibrated k with pin := pin }) b.unit
  rw [State.setChan_chans, List.length_set, hI.1] at hle
  have hnl := nch_lt hc
  simp only [bindChannel, hne, if_false]
  rw [State.setChan_refcount, State.incRefcount, State.setRefcount_refcount_same hu, refcount_eq hI.2.2.1 hu,
    Nat.mod_eq_of_lt (by clear hc; omega)]

theorem bindChannel_inv (hp : (s.chan ch).pin = 0 ∨ (s.chan ch).pin = pin) : (bindChannel ch pin b k s).Inv := by
  have hp0 := lookup_ne_zero hc.2.1 hb
  have hlen : ch.toNat < s.chans.length := hI.1 ▸ h
  have hform : ∃ r, (bindChannel ch pin b k s) =
      { s with chans := s.chans.set ch.toNat { (s.chan ch).calibrated k with pin := pin }, refcnt := r } := by
    simp only [bindChannel]
    split
    · rename_i e
      refine ⟨s.refcnt, ?_⟩
      rw [← e]; rfl
    · exact ⟨_, rfl⟩
  have hatt : ∀ u, (bindChannel ch pin b k s).attachedTo u =
      (s.setChan ch { (s.chan ch).calibrated k with pin := pin }).attachedTo u := by
    obtain ⟨r, hr⟩ := hform
    intro u; rw [hr]; rfl
  have hy : ∀ u, State.Attached s.cfg u { (s.chan ch).calibrated k with pin := pin } = true ↔ b.unit = u := fun u => by
    rw [attached_iff]
    exact ⟨fun h => by obtain ⟨-, b', e, h⟩ := h; rw [hb] at e; cases e; exact h, fun h => ⟨hp0, b, hb, h⟩⟩
  refine ⟨?_, ?_, countersExact_of fun u hu => ?_, ?_, ?_⟩
  · obtain ⟨r, hr⟩ := hform
    rw [hr]; simpa [State.ChannelsSized] using hI.1
  · obtain ⟨r, hr⟩ := hform
    rw [hr]
    intro x hx
    rcases List.mem_or_eq_of_mem_set hx with hx | rfl
    · exact hI.2.1 x hx
    · exact .inr (by simp [hb])
  · have hset := attachedTo_setChan hlen { (s.chan ch).calibrated k with pin := pin } u
    rw [hatt]
    rcases hp with hp | hp
    · have hn : State.Attached s.cfg u (s.chan ch) = false := by simp [State.Attached, Channel.attached, hp]
      by_cases e : u = b.unit
      · subst e
        rw [bindChannel_refcount_new hc hI h hb hp, refcount_eq hI.2.2.1 hu]
        rw [hn, (hy b.unit).2 rfl, if_pos rfl, if_neg Bool.false_ne_true] at hset
        omega
      · have hyn : State.Attached s.cfg u { (s.chan ch).calibrated k with pin := pin } = false := by
          rw [← Bool.not_eq_true, hy]; exact fun h => e h.symm
        rw [bindChannel_refcount_other e, refcount_eq hI.2.2.1 hu]
        rw [hn, hyn, if_neg Bool.false_ne_true] at hset
        omega
    · rw [bindChannel_refcount_held hp, refcount_eq hI.2.2.1 hu]
      have : State.Attached s.cfg u (s.chan ch) = State.Attached s.cfg u { (s.chan ch).calibrated k with pin := pin } := by
        rw [Bool.eq_iff_iff, attached_iff, attached_iff, hp]
      rw [this] at hset
      omega
  · obtain ⟨r, hr⟩ := hform
    rw [hr]; exact hI.2.2.2.1
  · obtain ⟨r, hr⟩ := hform
    rw [hr]; exact hI.2.2.2.2

end Bind

end Sys2Proof.Machine
end

