-- ==== Sys2Proof/Laws/Registers.lean ====
section
/-! SUPPORT. What the registers hold after the atomic transitions: a patch, a run of patches, a write of a unit's TOP or
compare register. -/

namespace Sys2Proof.Machine

/-! Bits of a patched byte. -/

theorem patched_bit (p : Patch) (old : Byte) (k : Nat) :
    (patched p old).getLsbD k = if p.mask.getLsbD k then p.value.getLsbD k else old.getLsbD k := by
  by_cases hk : k < 8
  · cases hm : p.mask.getLsbD k <;> simp only [patched, BitVec.getLsbD_or, BitVec.getLsbD_and, BitVec.getLsbD_not, hk, hm] <;> simp
  · simp [BitVec.getLsbD_of_ge _ _ (Nat.not_lt.1 hk)]

theorem setWidth_8_16_8 (b : Byte) : ((b.setWidth 16).setWidth 8) = b := by
  apply BitVec.eq_of_toNat_eq
  have := b.isLt
  simp only [BitVec.toNat_setWidth]; omega

/-! One patch. -/

theorem rmwAtomic_reg8_same {s : State} {p : Patch} (hk : regKind s.cfg p.reg = some .mode) :
    (s.rmwAtomic p).reg8 p.reg = patched p (s.reg8 p.reg) := by
  simp only [State.reg8, State.reg, rmwAtomic_regs, busStore_mode hk, setWidth_8_16_8]

theorem rmwAtomic_reg_other (s : State) (p : Patch) {a : RegAddr} (h : a ≠ p.reg) :
    (s.rmwAtomic p).reg a = s.reg a := by
  simp only [State.reg, rmwAtomic_regs, Memory.read_busStore_other _ h]

theorem rmwAtomic_bit {s : State} {p : Patch} (hk : regKind s.cfg p.reg = some .mode) (a : RegAddr) (k : Nat) :
    ((s.rmwAtomic p).reg8 a).getLsbD k =
      if a = p.reg ∧ p.mask.getLsbD k then p.value.getLsbD k else (s.reg8 a).getLsbD k := by
  by_cases h : a = p.reg
  · subst h; simp [rmwAtomic_reg8_same hk, patched_bit]
  · simp [h, State.reg8, rmwAtomic_reg_other s p h]

/-! A run of patches. -/

theorem foldl_rmw_reg_other (ps : List Patch) (s : State) {a : RegAddr} (h : a ∉ ps.map (·.reg)) :
    (ps.foldl State.rmwAtomic s).reg a = s.reg a := by
  induction ps generalizing s with
  | nil => rfl
  | cons p ps ih =>
    simp only [List.map_cons, List.mem_cons, not_or] at h
    rw [List.foldl_cons, ih _ h.2, rmwAtomic_reg_other s p h.1]

theorem foldl_rmw_bit_other {ps : List Patch} {s : State} (hk : ∀ p ∈ ps, regKind s.cfg p.reg = some .mode)
    {a : RegAddr} {k : Nat} (h : ∀ p ∈ ps, p.reg = a → p.mask.getLsbD k = false) :
    ((ps.foldl State.rmwAtomic s).reg8 a).getLsbD k = (s.reg8 a).getLsbD k := by
  induction ps generalizing s with
  | nil => rfl
  | cons p ps ih =>
    rw [List.foldl_cons, ih (s := s.rmwAtomic p) (fun q hq => hk q (by simp [hq])) (fun q hq => h q (by simp [hq])),
      rmwAtomic_bit (hk p (by simp))]
    split
    · rename_i hp; rw [h p (by simp) hp.1.symm] at hp; simp at hp
    · rfl

/-- A patch's value under its mask, bit by bit. -/
theorem reg_and_mask_iff {b m v : Byte} (hv : v &&& ~~~m = 0) :
    b &&& m = v ↔ ∀ k < 8, m.getLsbD k = true → b.getLsbD k = v.getLsbD k := by
  have hv' : ∀ k < 8, m.getLsbD k = false → v.getLsbD k = false := by
    intro k hk hm
    have := congrArg (fun x : Byte => x.getLsbD k) hv
    simp only [BitVec.getLsbD_and, BitVec.getLsbD_not, hk, hm] at this
    simpa using this
  constructor
  · rintro rfl k hk hm; simp only [BitVec.getLsbD_and, hm, Bool.and_true]
  · intro h
    apply BitVec.eq_of_getLsbD_eq
    intro k hk
    rw [BitVec.getLsbD_and]
    cases hm : m.getLsbD k
    · rw [hv' k hk hm, Bool.and_false]
    · rw [h k hk hm, Bool.and_true]

theorem patchesDisjoint_bit {p q : Patch} (h : Config.PatchesDisjoint p q) (hr : p.reg = q.reg) {k : Nat}
    (hk : p.mask.getLsbD k = true) : q.mask.getLsbD k = false := by
  rcases h with h | h
  · exact absurd hr h
  · have := congrArg (fun x : Byte => x.getLsbD k) h
    simpa only [BitVec.getLsbD_and, hk, Bool.true_and, BitVec.getLsbD_zero, BitVec.ofNat_eq_ofNat] using this

/-- After a run of pairwise disjoint patches every one of them holds. -/
theorem foldl_rmw_holds {ps : List Patch} {s : State} (hk : ∀ p ∈ ps, regKind s.cfg p.reg = some .mode)
    (hd : ps.Pairwise Config.PatchesDisjoint) (hv : ∀ p ∈ ps, p.value &&& ~~~p.mask = 0) {p : Patch} (hp : p ∈ ps) :
    (ps.foldl State.rmwAtomic s).reg8 p.reg &&& p.mask = p.value := by
  induction ps generalizing s with
  | nil => simp at hp
  | cons q ps ih =>
    obtain ⟨hq, hd'⟩ := List.pairwise_cons.1 hd
    rcases List.mem_cons.1 hp with rfl | hp'
    · refine (reg_and_mask_iff (hv p (by simp))).2 fun k hk8 hm => ?_
      rw [List.foldl_cons, foldl_rmw_bit_other (s := s.rmwAtomic p) (fun r hr => hk r (by simp [hr])),
        rmwAtomic_bit (hk p (by simp))]
      · simp [hm]
      · intro r hr e
        exact patchesDisjoint_bit (hq r hr) e.symm hm
    · exact ih (s := s.rmwAtomic q) (fun r hr => hk r (by simp [hr])) hd' (fun r hr => hv r (by simp [hr])) hp'

/-! TOP and compare registers. -/

theorem toNat_latchByte (v : Half) : (latchByte v).toNat = v.toNat / 2 ^ 8 % 2 ^ 2 := by
  simp only [latchByte, BitVec.toNat_setWidth, BitVec.extractLsb'_toNat, Nat.shiftRight_eq_div_pow]; omega

theorem toNat_lowByte (v : Half) : (lowByte v).toNat = v.toNat % 2 ^ 8 := by simp [lowByte]

theorem toNat_narrowValue (l b : Byte) : (narrowValue l b).toNat = l.toNat % 2 ^ 2 * 2 ^ 8 + b.toNat := by
  have := b.isLt
  simp only [narrowValue, BitVec.toNat_append, BitVec.toNat_setWidth]
  rw [← Nat.shiftLeft_add_eq_or_of_lt (by omega), Nat.shiftLeft_eq]

/-- The latch-then-low pair puts the low ten bits together. -/
theorem toNat_narrow_pair (v : Half) :
    (narrowValue (latchByte v) (lowByte v)).toNat = v.toNat % 2 ^ 10 := by
  rw [toNat_narrowValue, toNat_latchByte, toNat_lowByte]; omega

/-- A well-formed unit is a wide one with 16 bits and no latch, or a narrow one with 10 bits and a latch. -/
theorem unit_variant {c : Config} (hc : c.WellFormed) {u : UnitCfg} (hu : u ∈ c.units) :
    (u.variant = .wide ∧ u.cntBits = 16 ∧ u.hlatch = none) ∨
    (∃ h, u.variant = .narrow ∧ u.cntBits = 10 ∧ u.hlatch = some h) := by
  rcases hc.2.2.2.2.2.2.2.2.1 u hu with h | ⟨h1, h2, h3⟩
  · exact .inl h
  · obtain ⟨l, hl⟩ := Option.isSome_iff_exists.1 h3
    exact .inr ⟨l, h1, h2, hl⟩

theorem wf_dataRegs {c : Config} (hc : c.WellFormed) : c.dataRegs.Nodup := hc.2.2.2.2.2.2.2.2.2.2.1

/-- A unit's latch is none of its TOP and compare registers. -/
theorem latch_ne {c : Config} (hc : c.WellFormed) {u : UnitCfg} (hu : u ∈ c.units) {h a : RegAddr}
    (hl : u.hlatch = some h) (ha : a = u.topReg ∨ a ∈ u.cmpRegs) : h ≠ a := by
  rintro rfl
  have k1 := regKind_latch (wf_dataRegs hc) hu hl
  rcases unit_variant hc hu with ⟨-, -, hn⟩ | ⟨l, hv, -, hl'⟩
  · simp [hn] at hl
  · rw [regKind_narrow (wf_dataRegs hc) hu hv hl' ha] at k1
    simp at k1

/-- `WideWrite`: the register takes the value's low `cnt_bits` bits. -/
theorem wideAtomic_reg_same {s : State} (hc : s.cfg.WellFormed) {u : UnitCfg} (hu : u ∈ s.cfg.units) {a : RegAddr}
    (ha : a = u.topReg ∨ a ∈ u.cmpRegs) (v : Half) :
    ((s.wideAtomic u a v).reg a).toNat = v.toNat % 2 ^ u.cntBits := by
  rcases unit_variant hc hu with ⟨hv, hb, -⟩ | ⟨l, hv, hb, hl⟩
  · have hk := regKind_wide (wf_dataRegs hc) hu hv ha
    have := v.isLt
    simp only [State.wideAtomic, hv, State.reg, State.emit_regs, State.store_regs, busStore_wide hk, hb]
    clear hc; omega
  · have hk := regKind_narrow (wf_dataRegs hc) hu hv hl ha
    have hkl := regKind_latch (wf_dataRegs hc) hu hl
    have := (narrowValue (latchByte v) (lowByte v)).isLt
    simp only [State.wideAtomic, hv, hl, State.reg, State.emit_regs, State.store_regs, State.store_cfg, busStore_narrow hk,
      busStore_latch hkl, setWidth_8_16_8, hb]
    rw [BitVec.toNat_setWidth, toNat_narrow_pair]; omega

/-- `WideWrite` on a narrow unit: the latch takes the value's bits 9:8. -/
theorem wideAtomic_reg_latch {s : State} (hc : s.cfg.WellFormed) {u : UnitCfg} (hu : u ∈ s.cfg.units) {a h : RegAddr}
    (ha : a = u.topReg ∨ a ∈ u.cmpRegs) (hl : u.hlatch = some h) (v : Half) :
    ((s.wideAtomic u a v).reg h).toNat = v.toNat / 2 ^ 8 % 2 ^ 2 := by
  have hne := latch_ne hc hu hl ha
  have hkl := regKind_latch (wf_dataRegs hc) hu hl
  rcases unit_variant hc hu with ⟨-, -, hn⟩ | ⟨l, hv, -, -⟩
  · simp [hn] at hl
  · simp only [State.wideAtomic, hv, hl, State.reg, State.emit_regs, State.store_regs, Memory.read_busStore_other _ hne,
      busStore_latch hkl, setWidth_8_16_8]
    rw [BitVec.toNat_setWidth, toNat_latchByte]; omega

/-- `WideWrite` leaves every register but the target and the unit's latch. -/
theorem wideAtomic_reg_other (s : State) {u : UnitCfg} {a b : RegAddr} (hb : b ≠ a) (hl : u.hlatch ≠ some b) (v : Half) :
    (s.wideAtomic u a v).reg b = s.reg b := by
  unfold State.wideAtomic
  split
  · rename_i h _ hu
    have : b ≠ h := fun e => hl (e ▸ hu)
    simp only [State.reg, State.emit_regs, State.store_regs, State.store_cfg, Memory.read_busStore_other _ hb,
      Memory.read_busStore_other _ this]
  · simp only [State.reg, State.emit_regs, State.store_regs, Memory.read_busStore_other _ hb]

/-! A unit's patches in a well-formed configuration. -/

theorem mem_unitPatches {c : Config} {u : UnitCfg} (hu : u ∈ c.units) {p : Patch}
    (hp : p ∈ u.wgmPatches ++ u.prescPatches) : p ∈ c.unitPatches := List.mem_flatMap.2 ⟨u, hu, hp⟩

theorem unitPatch_not_data {c : Config} (hc : c.WellFormed) {p : Patch} (hp : p ∈ c.unitPatches) :
    p.reg ∉ c.dataRegs := hc.2.2.2.2.2.2.2.2.2.2.2 p hp

theorem unitPatch_value {c : Config} (hc : c.WellFormed) {p : Patch} (hp : p ∈ c.unitPatches) :
    p.value &&& ~~~p.mask = 0 := hc.2.2.2.2.2.1 p (List.mem_append_left _ hp)

theorem unitPatches_disjoint {c : Config} (hc : c.WellFormed) {u : UnitCfg} (hu : u ∈ c.units) :
    (u.wgmPatches ++ u.prescPatches).Pairwise Config.PatchesDisjoint := by
  have h := (List.pairwise_append.1 hc.2.2.2.2.2.2.1).1
  exact (List.pairwise_flatMap.1 h).1 u hu

/-- What `Configure(u)` leaves in the registers, as one list of patches and the TOP write. -/
theorem configureAtomic_eq (s : State) (u : UnitCfg) : s.configureAtomic u =
    ((u.wgmPatches ++ u.prescPatches).foldl State.rmwAtomic s).wideAtomic u u.topReg (BitVec.ofNat 16 u.topValue) := by
  rw [State.configureAtomic, List.foldl_append]

/-- A patch's register is neither a unit's TOP nor its latch. -/
theorem patch_ne_data {c : Config} (hc : c.WellFormed) {u : UnitCfg} (hu : u ∈ c.units) {p : Patch}
    (hp : p ∈ c.unitPatches) : p.reg ≠ u.topReg ∧ u.hlatch ≠ some p.reg ∧ p.reg ∉ u.cmpRegs :=
  ⟨fun e => unitPatch_not_data hc hp (mem_dataRegs hu (.inl e)),
   fun e => unitPatch_not_data hc hp (mem_dataRegs hu (.inr (.inr e))),
   fun e => unitPatch_not_data hc hp (mem_dataRegs hu (.inr (.inl e)))⟩

end Sys2Proof.Machine
end

