-- ==== Sys2Proof/Laws/Invariant.lean ====
section
/-! SUPPORT. The invariant under the operations: every bus write, every port action and every transition of Machine/Atomic
keeps it; a state that keeps it reads every register within its width. -/

namespace Sys2Proof.Machine

variable {s t : State}

/-- The invariant reads four fields only. -/
theorem inv_congr (h1 : t.chans = s.chans) (h2 : t.refcnt = s.refcnt) (h3 : t.regs = s.regs) (h4 : t.cfg = s.cfg)
    (hI : s.Inv) : t.Inv := by
  simpa only [State.Inv, State.ChannelsSized, State.ChannelsBound, State.CountersExact, State.RegistersFit,
    State.attachedTo, h1, h2, h3, h4] using hI

/-- A cell that fits its register, written into a file whose cells fit. -/
theorem registersFit_write {c : Config} {m : Memory} {a : RegAddr} {k : RegKind} (hk : regKind c a = some k) {v : Half}
    (hv : v.toNat < 2 ^ k.width)
    (h : ∀ d ∈ m, d.1 < 256 ∧ (regKind c (BitVec.ofNat 8 d.1)).any fun k => decide (d.2.toNat < 2 ^ k.width)) :
    ∀ d ∈ m.write a.toNat v, d.1 < 256 ∧ (regKind c (BitVec.ofNat 8 d.1)).any fun k => decide (d.2.toNat < 2 ^ k.width) := by
  intro d hd
  rcases Memory.mem_write hd with rfl | hd
  · have ha : (BitVec.ofNat 8 a.toNat : RegAddr) = a := by simp
    refine ⟨a.isLt, ?_⟩
    simp [ha, hk, hv]
  · exact h d hd

theorem store_inv (hI : s.Inv) (a : RegAddr) (v : Half) : (s.store a v).Inv := by
  obtain ⟨h1, h2, h3, h4, h5⟩ := hI
  refine ⟨h1, h2, h3, Memory.busStore_wf _ h4 a v, ?_⟩
  show ∀ d ∈ busStore s.cfg a v s.regs, _
  unfold busStore
  split <;> rename_i hk
  · exact h5
  · exact registersFit_write hk (by simp only [RegKind.width, BitVec.toNat_setWidth]; omega) h5
  · exact registersFit_write hk (by simp only [RegKind.width, BitVec.toNat_setWidth]; omega) h5
  · exact registersFit_write hk v.isLt h5
  · exact registersFit_write hk
      (by rw [RegKind.width, BitVec.toNat_setWidth]
          exact lt_of_le_of_lt (Nat.mod_le _ _) (narrowValue _ _).isLt) h5

theorem emit_inv (hI : s.Inv) (e : Event) : (s.emit e).Inv := inv_congr rfl rfl rfl rfl hI

theorem answer_inv (hI : s.Inv) (r : Response) : (s.answer r).Inv := emit_inv hI _

theorem rmwAtomic_inv (hI : s.Inv) (p : Patch) : (s.rmwAtomic p).Inv :=
  emit_inv (store_inv (emit_inv hI _) _ _) _

theorem foldl_rmw_inv (ps : List Patch) (hI : s.Inv) : (ps.foldl State.rmwAtomic s).Inv := by
  induction ps generalizing s with
  | nil => exact hI
  | cons p ps ih => exact ih (rmwAtomic_inv hI p)

theorem wideAtomic_inv (hI : s.Inv) (u : UnitCfg) (a : RegAddr) (v : Half) : (s.wideAtomic u a v).Inv := by
  unfold State.wideAtomic
  split
  · exact emit_inv (store_inv (store_inv hI _ _) _ _) _
  · exact emit_inv (store_inv hI _ _) _

theorem configureAtomic_inv (hI : s.Inv) (u : UnitCfg) : (s.configureAtomic u).Inv :=
  wideAtomic_inv (foldl_rmw_inv _ (foldl_rmw_inv _ hI)) _ _ _

theorem detachAtomic_inv (hc : s.cfg.WellFormed) (hI : s.Inv) {ch : Byte} (h : ch.toNat < s.cfg.nch) :
    (s.detachAtomic ch).Inv := by
  unfold State.detachAtomic State.onBinding
  split
  · exact hI
  · rename_i b hb
    obtain ⟨u, hu, -⟩ := lookup_unit hc hb
    simp only [hu]
    have hcore : SameCore s ((s.wideAtomic u b.cmpReg 0).emit (.gpioDir (s.chan ch).pin .input)) :=
      (wideAtomic_core s u b.cmpReg 0).trans ⟨rfl, rfl, rfl, rfl, rfl⟩
    refine unbind_inv ?_ (emit_inv (wideAtomic_inv hI _ _ _) _) ?_ ?_
    · rw [hcore.2.2.1]; exact hc
    · rw [hcore.2.2.1]; exact h
    · rw [hcore.2.2.1, hcore.chan]; exact hb

/-- A register's content fits its width. -/
theorem reg_fits (hI : s.Inv) {a : RegAddr} {k : RegKind} (hk : regKind s.cfg a = some k) :
    (s.reg a).toNat < 2 ^ k.width := by
  by_cases h : s.reg a = Memory.absent
  · rw [h]; simp [Memory.absent]
  · have := hI.2.2.2.2 _ (Memory.mem_of_read h)
    simpa [hk, State.reg] using this.2

/-- A patch whose field already holds its value writes back the byte it read. -/
theorem patched_holds {p : Patch} {b : Byte} (hv : p.value &&& ~~~p.mask = 0) (h : b &&& p.mask = p.value) :
    patched p b = b := by
  apply BitVec.eq_of_getLsbD_eq
  intro k hk
  rw [patched_bit]
  split
  · rename_i hm; exact ((reg_and_mask_iff hv).1 h k hk hm).symm
  · rfl

end Sys2Proof.Machine
end

