-- ==== Sys2Proof/Laws/Fields.lean ====
section
/-! SUPPORT. Which registers and fields the parts of a command leave alone in a well-formed configuration: patches that do
not meet, data registers of different units, and the history of the transitions. -/

namespace Sys2Proof.Machine

/-! The configuration. -/

section Config
variable {c : Config} (hc : c.WellFormed)
include hc

theorem topValue_lt {u : UnitCfg} (hu : u ∈ c.units) : u.topValue < 2 ^ u.cntBits := (hc.2.2.2.2.2.2.2.1 u hu).2

theorem topValue_toNat {u : UnitCfg} (hu : u ∈ c.units) : (BitVec.ofNat 16 u.topValue : Half).toNat = u.topValue := by
  have := topValue_lt hc hu
  rcases unit_variant hc hu with ⟨-, hb, -⟩ | ⟨l, -, hb, -⟩ <;> rw [hb] at this <;> rw [BitVec.toNat_ofNat] <;>
    clear hc <;> omega

theorem unit_unique {u v : UnitCfg} (hu : u ∈ c.units) (hv : v ∈ c.units) (h : u.id = v.id) : u = v := by
  have hnd : (c.units.map (·.id)).Nodup := hc.1.2.2.2.2.2.1
  exact List.inj_on_of_nodup_map hnd hu hv h

/-- A unit's TOP is no unit's compare register or latch, and no other unit's TOP. -/
theorem top_ne_data {u v : UnitCfg} (hu : u ∈ c.units) (hv : v ∈ c.units) :
    u.topReg ∉ v.cmpRegs ∧ v.hlatch ≠ some u.topReg ∧ (u ≠ v → u.topReg ≠ v.topReg) := by
  refine ⟨fun h => ?_, fun h => ?_, fun hne e => ?_⟩
  · have : v = u := dataReg_owner (wf_dataRegs hc) hv hu (a := u.topReg) (by simp [h]) (by simp)
    subst this
    have := (List.nodup_flatMap.1 (wf_dataRegs hc)).1 v hv
    simp only [List.nodup_cons, List.mem_append, not_or] at this
    exact this.1.1 h
  · have : v = u := dataReg_owner (wf_dataRegs hc) hv hu (a := u.topReg) (by simp [h]) (by simp)
    subst this
    exact latch_ne hc hv h (.inl rfl) rfl
  · exact hne (dataReg_owner (wf_dataRegs hc) hu hv (a := u.topReg) (by simp) (by simp [e]))

/-- A compare register is no unit's latch. -/
theorem cmp_ne_latch {u v : UnitCfg} (hu : u ∈ c.units) (hv : v ∈ c.units) {a : RegAddr} (ha : a ∈ u.cmpRegs) :
    v.hlatch ≠ some a := by
  intro hl
  have : u = v := dataReg_owner (wf_dataRegs hc) hu hv (a := a) (by simp [ha]) (by simp [hl])
  subst this
  exact latch_ne hc hu hl (.inr ha) rfl

/-- Patches of two units do not meet. -/
theorem units_disjoint {u x : UnitCfg} (hu : u ∈ c.units) (hx : x ∈ c.units) (hne : u ≠ x) {p q : Patch}
    (hp : p ∈ u.wgmPatches ++ u.prescPatches) (hq : q ∈ x.wgmPatches ++ x.prescPatches) :
    Config.PatchesDisjoint p q := by
  have h := (List.pairwise_flatMap.1 (List.pairwise_append.1 hc.2.2.2.2.2.2.1).1).2
  have hs : Std.Symm (fun l₁ l₂ : UnitCfg => ∀ x ∈ l₁.wgmPatches ++ l₁.prescPatches,
      ∀ y ∈ l₂.wgmPatches ++ l₂.prescPatches, Config.PatchesDisjoint x y) :=
    ⟨fun a b h x hx y hy => (h y hy x hx).imp Ne.symm (fun e => by rw [BitVec.and_comm]; exact e)⟩
  exact h.forall hu hx hne p hp q hq

/-- A unit's patch and a supported pin's patch do not meet. -/
theorem unit_pin_disjoint {pin : Byte} {b : Binding} (hb : lookup c pin = some b) {p : Patch} (hp : p ∈ c.unitPatches) :
    Config.PatchesDisjoint p b.patch := by
  obtain ⟨r, m, -, -, rfl⟩ := lookup_some hb
  exact (List.pairwise_append.1 hc.2.2.2.2.2.2.1).2.2 p hp _ (List.mem_map.2 ⟨r, m, rfl⟩)

/-- Two supported pins have different compare registers, and patches that do not meet. -/
theorem pins_disjoint {p q : Byte} (hpq : p ≠ q) {b d : Binding} (hb : lookup c p = some b) (hd : lookup c q = some d) :
    b.cmpReg ≠ d.cmpReg ∧ Config.PatchesDisjoint b.patch d.patch := by
  obtain ⟨r1, m1, -, e1, rfl⟩ := lookup_some hb
  obtain ⟨r2, m2, -, e2, rfl⟩ := lookup_some hd
  have hne : r1 ≠ r2 := by rintro rfl; exact hpq (e1.symm.trans e2)
  have hact := List.pairwise_map.1 (List.pairwise_append.1 hc.2.2.2.2.2.2.1).2.1
  refine ⟨fun e => hne (List.inj_on_of_nodup_map hc.2.2.2.2.1 m1 m2 e), ?_⟩
  have hs : Std.Symm (fun a b : PinRow => Config.PatchesDisjoint a.binding.patch b.binding.patch) :=
    ⟨fun a b h => h.imp Ne.symm (fun e => by rw [BitVec.and_comm]; exact e)⟩
  exact hact.forall m1 m2 hne

theorem binding_value {pin : Byte} {b : Binding} (hb : lookup c pin = some b) :
    b.patch.value &&& ~~~b.patch.mask = 0 := by
  obtain ⟨r, -, hr, -, rfl⟩ := lookup_some hb
  exact hc.2.2.2.2.2.1 _ (List.mem_append_right _ (List.mem_map.2 ⟨r, hr, rfl⟩))

end Config

/-! Fields. -/

variable {s t : State}

/-- A patch leaves the field of a patch that it does not meet. -/
theorem rmwAtomic_field {p q : Patch} (hk : regKind s.cfg p.reg = some .mode) (h : Config.PatchesDisjoint q p) :
    (s.rmwAtomic p).reg8 q.reg &&& q.mask = s.reg8 q.reg &&& q.mask := by
  apply BitVec.eq_of_getLsbD_eq
  intro k hk8
  rw [BitVec.getLsbD_and, BitVec.getLsbD_and, rmwAtomic_bit hk]
  cases hm : q.mask.getLsbD k
  · simp
  · by_cases e : q.reg = p.reg
    · rw [patchesDisjoint_bit h e hm]; simp
    · simp [e]

theorem foldl_rmw_field {ps : List Patch} (hk : ∀ p ∈ ps, regKind s.cfg p.reg = some .mode) {q : Patch}
    (hd : ∀ p ∈ ps, Config.PatchesDisjoint q p) :
    (ps.foldl State.rmwAtomic s).reg8 q.reg &&& q.mask = s.reg8 q.reg &&& q.mask := by
  induction ps generalizing s with
  | nil => rfl
  | cons p ps ih =>
    rw [List.foldl_cons, ih (s := s.rmwAtomic p) (fun r hr => hk r (by simp [hr])) (fun r hr => hd r (by simp [hr])),
      rmwAtomic_field (hk p (by simp)) (hd p (by simp))]

/-- A unit's configured fields hold in every state that reads the same under them. -/
theorem unitHolds_congr {u : UnitCfg}
    (h1 : ∀ p ∈ u.wgmPatches ++ u.prescPatches, t.reg8 p.reg &&& p.mask = s.reg8 p.reg &&& p.mask)
    (h2 : t.reg u.topReg = s.reg u.topReg) (h : s.UnitHolds u) : t.UnitHolds u :=
  ⟨fun p hp => (h1 p hp).trans (h.1 p hp), h2.trans h.2⟩

/-! The history of the transitions. -/

theorem patchEvents_length (old : RegAddr → Byte) (ps : List Patch) : (patchEvents old ps).length = 2 * ps.length := by
  induction ps generalizing old with
  | nil => rfl
  | cons p ps ih => simp only [patchEvents, List.length_cons, ih]; omega

/-- Patches access their own registers only. -/
theorem patchEvents_accessed {old : RegAddr → Byte} {ps : List Patch} {e : Event} (he : e ∈ patchEvents old ps) {a : RegAddr}
    (ha : a ∈ e.accessed) : a ∈ ps.map (·.reg) := by
  induction ps generalizing old with
  | nil => cases he
  | cons p ps ih =>
    simp only [patchEvents, List.mem_cons] at he
    rw [List.map_cons, List.mem_cons]
    rcases he with rfl | rfl | he
    · exact .inl (List.mem_singleton.1 ha)
    · exact .inl (List.mem_singleton.1 ha)
    · exact .inr (ih he)

/-- The history of a run of patches on mode registers. -/
theorem foldl_rmw_log {ps : List Patch} {s : State} (hk : ∀ p ∈ ps, regKind s.cfg p.reg = some .mode) :
    (ps.foldl State.rmwAtomic s).log = s.log ++ patchEvents s.reg8 ps := by
  induction ps generalizing s with
  | nil => simp [patchEvents]
  | cons p ps ih =>
    have hreg : (s.rmwAtomic p).reg8 = fun a => if a = p.reg then patched p (s.reg8 p.reg) else s.reg8 a := by
      funext a
      split
      · rename_i e; rw [e, rmwAtomic_reg8_same (hk p (by simp))]
      · rename_i e; simp only [State.reg8, rmwAtomic_reg_other s p e]
    rw [List.foldl_cons, ih (s := s.rmwAtomic p) fun q hq => hk q (by simp [hq]), hreg, rmwAtomic_log, patchEvents]
    simp

theorem wideAtomic_log (s : State) (u : UnitCfg) (a : RegAddr) (v : Half) :
    ∃ e : Event, (s.wideAtomic u a v).log = s.log ++ [e] ∧ ∀ b ∈ e.accessed, b = a ∨ u.hlatch = some b := by
  unfold State.wideAtomic
  split
  · rename_i h _ hl
    exact ⟨_, rfl, by simp [Event.accessed, hl]⟩
  · exact ⟨_, rfl, by simp [Event.accessed]⟩

/-- A compare write's event, for a value that fits the unit's register. -/
theorem wideAtomic_log_compare (hc : s.cfg.WellFormed) {u : UnitCfg} (hu : u ∈ s.cfg.units) (a : RegAddr) (v : Half)
    (hv : v.toNat < 2 ^ u.cntBits) : (s.wideAtomic u a v).log = s.log ++ [Event.compareWrite u a v.toNat] := by
  rcases unit_variant hc hu with ⟨h1, -, hl⟩ | ⟨l, h1, hb, hl⟩
  · simp [State.wideAtomic, h1, hl, Event.compareWrite]
  · rw [hb] at hv
    have e1 : latchByte v = BitVec.ofNat 8 (v.toNat / 2 ^ 8) := by
      apply BitVec.eq_of_toNat_eq; rw [toNat_latchByte, BitVec.toNat_ofNat]; clear hc; omega
    have e2 : lowByte v = BitVec.ofNat 8 v.toNat := by
      apply BitVec.eq_of_toNat_eq; rw [toNat_lowByte, BitVec.toNat_ofNat]
    simp only [State.wideAtomic, h1, hl, Event.compareWrite, State.emit_log, State.store_log, e1, e2]

/-- The history of `Configure(u)`: its patches in order, then the TOP write (41_timer_config R102). -/
theorem configureAtomic_log {s : State} (hc : s.cfg.WellFormed) {u : UnitCfg} (hu : u ∈ s.cfg.units) :
    (s.configureAtomic u).log =
      s.log ++ patchEvents s.reg8 (u.wgmPatches ++ u.prescPatches) ++ [Event.compareWrite u u.topReg u.topValue] := by
  have hk : ∀ p ∈ u.wgmPatches ++ u.prescPatches, regKind s.cfg p.reg = some .mode := fun p hp => unitPatch_mode hc hu hp
  have hv := topValue_toNat hc hu
  rw [configureAtomic_eq, wideAtomic_log_compare (by simpa using hc) (by simpa using hu) _ _ (by rw [hv]; exact topValue_lt hc hu), hv,
    foldl_rmw_log hk]

end Sys2Proof.Machine
end

