-- ==== Sys2Proof/Laws/Outside.lean ====
section
/-! SUPPORT. Everything the shared operations can do under ANY outside, said once: what they leave alone, what they add to
the history, and that they keep the invariant, whether they run to their end or a reset ends them. -/

namespace Sys2Proof.Machine

/-- What every part of a command keeps, also one that a reset ends: the command index, the configuration, the words and the
events already there; it adds events that satisfy `P`. -/
structure Keeps (P : Event → Prop) (s t : State) : Prop where
  cpc    : t.cpc = s.cpc
  cfg    : t.cfg = s.cfg
  stream : s.stream <+: t.stream
  log    : ∃ es, t.log = s.log ++ es ∧ ∀ e ∈ es, P e

/-- A part of a command that uses ports only and runs to its end. -/
structure Extends (P : Event → Prop) (s t : State) : Prop extends Keeps P s t where
  core  : SameCore s t
  inv   : s.Inv → t.Inv
  quiet : s.Quiet → t.Quiet

/-- A part of a command that uses ports only: its ends, both kinds. -/
structure PortRun (P : Event → Prop) (s : State) (r : Run) : Prop where
  ok    : ∀ t, r = .ok t → Extends P s t
  ended : ∀ t, r = .error (.ended t) → Keeps P s t ∧ (s.Inv → t.Inv) ∧ ¬ s.Quiet

variable {P Q : Event → Prop} {s t u : State}

theorem Keeps.refl (P : Event → Prop) (s : State) : Keeps P s s := ⟨rfl, rfl, List.prefix_rfl, [], by simp⟩

theorem Keeps.trans (h : Keeps P s t) (k : Keeps P t u) : Keeps P s u := by
  obtain ⟨es, h1, h2⟩ := h.log
  obtain ⟨fs, k1, k2⟩ := k.log
  refine ⟨k.cpc.trans h.cpc, k.cfg.trans h.cfg, h.stream.trans k.stream, es ++ fs, by rw [k1, h1, List.append_assoc], ?_⟩
  intro e he
  rcases List.mem_append.1 he with he | he
  · exact h2 e he
  · exact k2 e he

theorem Keeps.mono (h : Keeps P s t) (hPQ : ∀ e, P e → Q e) : Keeps Q s t :=
  ⟨h.cpc, h.cfg, h.stream, h.log.imp fun _ h => ⟨h.1, fun e he => hPQ e (h.2 e he)⟩⟩

theorem Extends.refl (P : Event → Prop) (s : State) : Extends P s s := ⟨.refl P s, .refl s, id, id⟩

theorem Extends.trans (h : Extends P s t) (k : Extends P t u) : Extends P s u :=
  ⟨h.toKeeps.trans k.toKeeps, h.core.trans k.core, k.inv ∘ h.inv, k.quiet ∘ h.quiet⟩

theorem Extends.mono (h : Extends P s t) (hPQ : ∀ e, P e → Q e) : Extends Q s t :=
  ⟨h.toKeeps.mono hPQ, h.core, h.inv, h.quiet⟩

/-- One more event. -/
theorem extends_emit {e : Event} (he : P e) (s : State) : Extends P s (s.emit e) :=
  ⟨⟨rfl, rfl, List.prefix_rfl, [e], rfl, by simpa using he⟩, ⟨rfl, rfl, rfl, rfl, rfl⟩, fun h => emit_inv h e, id⟩

/-- One bus write. -/
theorem extends_store (P : Event → Prop) (s : State) (a : RegAddr) (v : Half) : Extends P s (s.store a v) :=
  ⟨⟨rfl, rfl, List.prefix_rfl, [], by simp⟩, ⟨rfl, rfl, rfl, rfl, rfl⟩, fun h => store_inv h a v, id⟩

/-! Runs. -/

theorem PortRun.of_ok (h : Extends P s t) : PortRun P s (.ok t) :=
  ⟨fun _ e => by cases e; exact h, fun _ e => by cases e⟩

theorem PortRun.fault (P : Event → Prop) (s : State) (f : Fault) : PortRun P s (.error (.fault f)) :=
  ⟨fun _ e => (by cases e), fun _ e => by cases e⟩

theorem PortRun.refused (P : Event → Prop) (s : State) (r : Refusal) : PortRun P s (.error (.refused r)) :=
  ⟨fun _ e => (by cases e), fun _ e => by cases e⟩

theorem PortRun.mono {r : Run} (h : PortRun P s r) (hPQ : ∀ e, P e → Q e) : PortRun Q s r :=
  ⟨fun t e => (h.ok t e).mono hPQ, fun t e => ⟨(h.ended t e).1.mono hPQ, (h.ended t e).2⟩⟩

/-- One part after another. -/
theorem PortRun.bind {r : Run} {f : State → Run} (h : PortRun P s r)
    (hf : ∀ t, r = .ok t → Extends P s t → PortRun P t (f t)) : PortRun P s (r >>= f) := by
  cases r with
  | error e =>
    cases e with
    | ended t => exact ⟨fun _ e => (by cases e), fun t' e => by cases e; exact h.ended _ rfl⟩
    | fault f => exact .fault P s f
    | refused r => exact .refused P s r
  | ok t =>
    have ht := h.ok t rfl
    have hft := hf t rfl ht
    refine ⟨fun t' e => ht.trans (hft.ok t' e), fun t' e => ?_⟩
    obtain ⟨h1, h2, h3⟩ := hft.ended t' e
    exact ⟨ht.toKeeps.trans h1, h2 ∘ ht.inv, fun hq => h3 (ht.quiet hq)⟩

/-! The outside's slot. -/

theorem resetEvent_inv (h : s.Inv) : s.resetEvent.Inv := by
  refine ⟨by simp [State.ChannelsSized, resetChannels], ?_, ?_, h.2.2.2.1, h.2.2.2.2⟩
  · intro x hx
    simp only [State.resetEvent_chans, resetChannels, List.mem_replicate] at hx
    exact .inl (by rw [hx.2]; rfl)
  · intro k
    have hz : State.Attached s.cfg (BitVec.ofNat 8 k) (resetChannel s.cfg) = false := by
      simp [State.Attached, Channel.attached, resetChannel]
    simp [State.attachedTo, State.resetEvent, resetChannels, List.countP_replicate, hz]

theorem applyEvent_inv (h : s.Inv) (e : EnvEvent) : (s.applyEvent e).Inv := by
  cases e with
  | send ws => exact inv_congr rfl rfl rfl rfl h
  | foreignRead a => exact h
  | foreignWrite a v => exact store_inv h a v
  | reset => exact resetEvent_inv h

theorem applyEvents_inv (es : List EnvEvent) (h : s.Inv) : (s.applyEvents es).Inv := by
  induction es generalizing s with
  | nil => exact h
  | cons e es ih => exact ih (applyEvent_inv h e)

theorem applyEvents_keeps (P : Event → Prop) (es : List EnvEvent) (s : State) : Keeps P s (s.applyEvents es) := by
  induction es generalizing s with
  | nil => exact .refl P s
  | cons e es ih =>
    refine Keeps.trans ?_ (ih (s.applyEvent e))
    cases e with
    | send ws => exact ⟨rfl, rfl, List.prefix_append _ _, [], by simp [State.applyEvent]⟩
    | foreignRead a => exact .refl P s
    | foreignWrite a v => exact (extends_store P s a v).toKeeps
    | reset => exact ⟨rfl, rfl, List.prefix_rfl, [], by simp [State.applyEvent]⟩

theorem portSlot_run (P : Event → Prop) (s : State) : PortRun P s (portSlot s) := by
  unfold portSlot
  split
  · exact .of_ok (.refl P s)
  · rename_i slot later he
    have hk : Keeps P s (({ s with env := later } : State).applyEvents slot) :=
      Keeps.trans (t := { s with env := later }) ⟨rfl, rfl, List.prefix_rfl, [], by simp⟩ (applyEvents_keeps P _ _)
    have hi : s.Inv → (({ s with env := later } : State).applyEvents slot).Inv := fun h =>
      applyEvents_inv _ (inv_congr (s := s) rfl rfl rfl rfl h)
    have hq : ¬ s.Quiet := by simp [State.Quiet, he]
    dsimp only
    split
    · exact ⟨fun _ e => (by cases e), fun t e => by cases e; exact ⟨hk, hi, hq⟩⟩
    · rename_i hr
      exact .of_ok ⟨hk, applyEvents_core hr _, hi, fun h => absurd h hq⟩

/-! The ports. -/

/-- An access of the block on REGBUS that the spec specifies. -/
def Event.isAccess (c : Config) (e : Event) : Prop :=
  e.fits c ∧ e.isRespond = false ∧ e.isGpio = false ∧ e.isUnspecified = false

theorem noRegister_run (P : Event → Prop) (s : State) (a : RegAddr) : PortRun P s (noRegister a) := .refused P s _

theorem memWrite8_run (a : RegAddr) (v : Byte) (s : State) : PortRun (Event.isAccess s.cfg) s (memWrite8 a v s) := by
  refine (portSlot_run _ s).bind fun t _ ht => ?_
  split
  · rename_i hk
    exact .of_ok ((extends_store _ t a _).trans (extends_emit ⟨ht.cfg ▸ hk, rfl, rfl, rfl⟩ _))
  · exact noRegister_run _ t a

theorem memWrite16_run (a : RegAddr) (v : Half) (s : State) : PortRun (Event.isAccess s.cfg) s (memWrite16 a v s) := by
  refine (portSlot_run _ s).bind fun t _ ht => ?_
  split
  · rename_i hk
    exact .of_ok ((extends_store _ t a _).trans (extends_emit ⟨ht.cfg ▸ hk, rfl, rfl, rfl⟩ _))
  · exact noRegister_run _ t a

theorem memWriteLocked_run (h a : RegAddr) (v : Half) (s : State) :
    PortRun (Event.isAccess s.cfg) s (memWriteLocked h a v s) := by
  refine (portSlot_run _ s).bind fun t _ ht => ?_
  split
  · rename_i hk
    exact .of_ok ((extends_store _ t h _).trans ((extends_store _ _ a _).trans
      (extends_emit ⟨ht.cfg ▸ hk, rfl, rfl, rfl⟩ _)))
  · exact noRegister_run _ t a

theorem rmw_run (p : Patch) (s : State) : PortRun (Event.isAccess s.cfg) s (rmw p s) := by
  have hassoc : rmw p s = portSlot s >>= fun t =>
      if regKind t.cfg p.reg = some .mode then
        memWrite8 p.reg (patched p (t.reg8 p.reg)) (t.emit (.rd p.reg (t.reg8 p.reg)))
      else noRegister p.reg := by
    unfold rmw memRead8
    cases portSlot s with
    | error e => rfl
    | ok t => simp only [ok_bind]; split <;> rfl
  rw [hassoc]
  refine (portSlot_run _ s).bind fun t _ ht => ?_
  split
  · rename_i hk
    have he : Extends (Event.isAccess s.cfg) t (t.emit (.rd p.reg (t.reg8 p.reg))) :=
      extends_emit ⟨ht.cfg ▸ hk, rfl, rfl, rfl⟩ _
    have := (PortRun.of_ok he).bind (f := memWrite8 p.reg (patched p (t.reg8 p.reg))) fun t' e _ => by
      cases e
      have := memWrite8_run p.reg (patched p (t.reg8 p.reg)) (t.emit (.rd p.reg (t.reg8 p.reg)))
      rwa [State.emit_cfg, ht.cfg] at this
    exact this
  · exact noRegister_run _ t p.reg

theorem wideWrite_run (x : UnitCfg) (a : RegAddr) (v : Half) (s : State) :
    PortRun (Event.isAccess s.cfg) s (wideWrite x a v s) := by
  unfold wideWrite
  split
  · exact memWrite16_run a v s
  · exact memWriteLocked_run _ a v s
  · exact .refused _ s _

theorem applyPatches_run (ps : List Patch) (s : State) : PortRun (Event.isAccess s.cfg) s (applyPatches ps s) := by
  induction ps generalizing s with
  | nil => exact .of_ok (.refl _ s)
  | cons p ps ih =>
    refine (rmw_run p s).bind fun t _ ht => ?_
    have := ih t
    rwa [ht.cfg] at this

theorem configure_run (x : UnitCfg) (s : State) : PortRun (Event.isAccess s.cfg) s (configure x s) := by
  refine (applyPatches_run _ s).bind fun t _ ht => ?_
  have h2 := applyPatches_run x.prescPatches t
  rw [ht.cfg] at h2
  refine h2.bind fun t' _ ht' => ?_
  have := wideWrite_run x x.topReg (BitVec.ofNat 16 x.topValue) t'
  rwa [ht'.cfg, ht.cfg] at this

theorem gpioDir_run (pin : Byte) (d : Direction) (s : State) :
    PortRun (fun e => e.isGpio = true) s (gpioDir pin d s) := by
  refine (portSlot_run _ s).bind fun t _ _ => ?_
  exact .of_ok (extends_emit (P := fun e => e.isGpio = true) rfl t)

theorem respond_run (r : Response) (s : State) : PortRun (fun e => e = .respond r) s (respond r s) := by
  refine (portSlot_run _ s).bind fun t _ _ => ?_
  exact .of_ok (extends_emit (P := fun e => e = .respond r) rfl t)

/-- A response is the last event of the command that it ends. -/
theorem respond_ok {r : Response} (h : respond r s = .ok t) (hq : s.Quiet) : t = s.answer r := by
  rw [respond_quiet hq] at h
  cases h; rfl

end Sys2Proof.Machine
end

