-- ==== Sys2Proof/Laws/Commands.lean ====
section
/-! SUPPORT. The parts of the channel commands: legality, what each part can do under any outside, and with a quiet one. -/

namespace Sys2Proof.Machine

/-! Legality (30_encoding R75 clauses 3 and 4). -/

theorem mem_unitIds (c : Config) (u : Byte) : u ∈ c.unitIds ↔ ∃ x, unitCfg? c u = some x := by
  constructor
  · exact unitCfg?_of_mem
  · rintro ⟨x, hx⟩
    obtain ⟨h1, rfl⟩ := unitCfg?_some hx
    exact List.mem_map.2 ⟨x, h1, rfl⟩

theorem legal_unit {c : Config} {i : Instr} {u : Byte} (h1 : i.channel? = none) (h2 : i.unit? = some u) :
    i.WellFormed c ↔ ∃ x, unitCfg? c u = some x := by
  rw [← mem_unitIds]
  refine ⟨fun h => h.2 u h2, fun h => ⟨by simp [Instr.ChannelOk, h1], ?_⟩⟩
  intro v hv; rw [h2] at hv; cases hv; exact h

theorem legal_channel {c : Config} {i : Instr} {ch : Byte} (h1 : i.channel? = some ch) (h2 : i.unit? = none) :
    i.WellFormed c ↔ ch.toNat < c.nch := by
  refine ⟨fun h => h.1 ch h1, fun h => ⟨?_, by simp [Instr.UnitOk, h2]⟩⟩
  intro x hx; rw [h1] at hx; cases hx; exact h

theorem legal_plain {c : Config} {i : Instr} (h1 : i.channel? = none) (h2 : i.unit? = none) : i.WellFormed c :=
  ⟨by simp [Instr.ChannelOk, h1], by simp [Instr.UnitOk, h2]⟩

/-! How a step's outcome comes about. -/

theorem finish_next {r : Run} {t : State} (h : finish r = .next t) : r = .ok t ∨ r = .error (.ended t) := by
  cases r with
  | ok s => simp only [finish, Host.Outcome.next.injEq] at h; exact .inl (by rw [h])
  | error e =>
    cases e with
    | ended s => simp only [finish, Host.Outcome.next.injEq] at h; exact .inr (by rw [h])
    | fault f => simp [finish] at h
    | refused f => simp [finish] at h

theorem finish_respond_quiet {s t : State} {r : Response} (hq : s.Quiet) (e : finish (respond r s) = .next t) :
    t = s.answer r := by
  rw [respond_quiet hq] at e; simpa using e.symm

/-! A part of a command that may also change contexts and counters: its ends. -/

structure CommandRun (P : Event → Prop) (s : State) (r : Run) : Prop where
  ok    : ∀ t, r = .ok t → Keeps P s t ∧ (s.Quiet → t.Quiet)
  ended : ∀ t, r = .error (.ended t) → Keeps P s t ∧ ¬ s.Quiet

variable {P : Event → Prop} {s t : State}

theorem CommandRun.of_port {r : Run} (h : PortRun P s r) : CommandRun P s r :=
  ⟨fun t e => ⟨(h.ok t e).toKeeps, (h.ok t e).quiet⟩, fun t e => ⟨(h.ended t e).1, (h.ended t e).2.2⟩⟩

theorem CommandRun.of_ok (h : Keeps P s t) (hq : s.Quiet → t.Quiet) : CommandRun P s (.ok t) :=
  ⟨fun _ e => by cases e; exact ⟨h, hq⟩, fun _ e => by cases e⟩

theorem CommandRun.fault (P : Event → Prop) (s : State) (f : Fault) : CommandRun P s (.error (.fault f)) :=
  ⟨fun _ e => (by cases e), fun _ e => by cases e⟩

theorem CommandRun.refused (P : Event → Prop) (s : State) (f : Refusal) : CommandRun P s (.error (.refused f)) :=
  ⟨fun _ e => (by cases e), fun _ e => by cases e⟩

theorem CommandRun.bind {r : Run} {f : State → Run} (h : CommandRun P s r)
    (hf : ∀ t, r = .ok t → Keeps P s t → CommandRun P t (f t)) : CommandRun P s (r >>= f) := by
  cases r with
  | error e =>
    cases e with
    | ended t => exact ⟨fun _ e => (by cases e), fun t' e => by cases e; exact h.ended _ rfl⟩
    | fault f => exact .fault P s f
    | refused r => exact .refused P s r
  | ok t =>
    obtain ⟨ht, hq⟩ := h.ok t rfl
    have hft := hf t rfl ht
    refine ⟨fun t' e => ⟨ht.trans (hft.ok t' e).1, fun h => (hft.ok t' e).2 (hq h)⟩, fun t' e => ?_⟩
    obtain ⟨h1, h3⟩ := hft.ended t' e
    exact ⟨ht.trans h1, fun h => h3 (hq h)⟩

/-- With a quiet outside a part that is followed by more has run to its end. -/
theorem CommandRun.quiet_ok {r : Run} {f : State → Run} (hq : s.Quiet) (h : CommandRun P s r)
    (e : finish (r >>= f) = .next t) : ∃ s1, r = .ok s1 ∧ s1.Quiet ∧ finish (f s1) = .next t := by
  cases r with
  | ok s1 => exact ⟨s1, rfl, (h.ok s1 rfl).2 hq, e⟩
  | error x =>
    cases x with
    | ended u => exact absurd hq (h.ended u rfl).2
    | fault f => simp [finish] at e
    | refused f => simp [finish] at e

theorem keeps_setChan (P : Event → Prop) (s : State) (ch : Byte) (x : Channel) : Keeps P s (s.setChan ch x) :=
  ⟨rfl, rfl, List.prefix_rfl, [], by simp⟩

theorem keeps_unbind (P : Event → Prop) (s : State) (ch : Byte) (b : Binding) : Keeps P s (unbind ch b s) :=
  ⟨rfl, rfl, List.prefix_rfl, [], by simp [unbind]⟩

theorem keeps_bind (P : Event → Prop) (s : State) (ch pin : Byte) (b : Binding) (k : Calibration) :
    Keeps P s (bindChannel ch pin b k s) ∧ (s.Quiet → (bindChannel ch pin b k s).Quiet) := by
  simp only [bindChannel]; split <;> exact ⟨⟨rfl, rfl, List.prefix_rfl, [], by simp⟩, id⟩

/-- The events that are the block's accesses and direction requests satisfy `P`. -/
def AdmitsPorts (c : Config) (P : Event → Prop) : Prop := ∀ e, (e.isAccess c ∨ e.isGpio = true) → P e

theorem detachCore_run (hP : AdmitsPorts s.cfg P) (ch : Byte) : CommandRun P s (detachCore ch s) := by
  unfold detachCore boundTo needUnit
  dsimp only
  cases lookup s.cfg (s.chan ch).pin with
  | none => exact .fault _ _ _
  | some b =>
    simp only [ok_bind]
    cases unitCfg? s.cfg b.unit with
    | none => exact .refused _ _ _
    | some u =>
      simp only [ok_bind]
      refine CommandRun.bind (.of_port ((wideWrite_run u b.cmpReg 0 s).mono fun e h => hP e (.inl h))) fun t _ ht => ?_
      refine CommandRun.bind (.of_port ((gpioDir_run _ _ t).mono fun e h => hP e (.inr h))) fun t' _ _ => ?_
      exact .of_ok (keeps_unbind P t' ch b) id

theorem configureIfFirst_run (hP : AdmitsPorts s.cfg P) (b : Binding) : PortRun P s (configureIfFirst b s) := by
  unfold configureIfFirst needUnit
  split
  · exact .of_ok (.refl P s)
  · cases unitCfg? s.cfg b.unit with
    | none => exact .refused _ _ _
    | some u => exact (configure_run u s).mono fun e h => hP e (.inl h)

theorem attachBound_run (hP : AdmitsPorts s.cfg P) (hR : P (.respond okResponse)) (ch pin : Byte) (b : Binding)
    (k : Calibration) : CommandRun P s (attachBound ch pin b k s) := by
  unfold attachBound
  refine CommandRun.bind (.of_port (configureIfFirst_run hP b)) fun t _ ht => ?_
  have h2 := rmw_run b.patch t
  rw [ht.cfg] at h2
  refine CommandRun.bind (.of_port (h2.mono fun e h => hP e (.inl h))) fun t2 _ _ => ?_
  obtain ⟨kb, qb⟩ := keeps_bind P t2 ch pin b k
  have h3 : CommandRun P t2 (.ok (bindChannel ch pin b k t2) >>= fun t3 => gpioDir pin .output t3 >>= respond okResponse) := by
    refine CommandRun.bind (.of_ok kb qb) fun t3 _ _ => ?_
    refine CommandRun.bind (.of_port ((gpioDir_run _ _ t3).mono fun e h => hP e (.inr h))) fun t4 _ _ => ?_
    exact .of_port ((respond_run _ _).mono fun e h => h ▸ hR)
  exact h3

theorem attachCore_run (hP : AdmitsPorts s.cfg P) (hR : ∀ r, P (.respond r)) (ch pin : Byte) (k : Calibration) :
    CommandRun P s (attachCore ch pin k s) := by
  unfold attachCore detachElsewhere
  refine CommandRun.bind (r := if (s.chan ch).attachedElsewhere pin then detachCore ch s else .ok s) ?_ fun t _ ht => ?_
  · split
    · exact detachCore_run hP ch
    · exact .of_ok (.refl P s) id
  · split
    · exact .of_port ((respond_run _ _).mono fun e h => h ▸ hR _)
    · exact attachBound_run (by rw [ht.cfg]; exact hP) (hR _) ch pin _ k

/-! With a quiet outside. -/

theorem attachedElsewhere_iff (x : Channel) (pin : Byte) : x.attachedElsewhere pin = true ↔ x.pin ≠ 0 ∧ x.pin ≠ pin := by
  simp [Channel.attachedElsewhere, Channel.attached]

/-- `AttachCore` in a sound state. -/
theorem attachCore_quiet (hc : s.cfg.WellFormed) (hI : s.Inv) (hq : s.Quiet) {ch : Byte} (h : ch.toNat < s.cfg.nch)
    (pin : Byte) (k : Calibration) : attachCore ch pin k s = .ok (s.attachAtomic ch pin k) := by
  have key : ∀ t : State, t.Quiet → t.cfg = s.cfg →
      (match lookup t.cfg pin with
        | none => respond unsupportedPin t
        | some b => attachBound ch pin b k t) = .ok (match lookup t.cfg pin with
        | none => t.answer unsupportedPin
        | some b => t.attachBoundAtomic ch pin b k) := by
    intro t hqt hct
    cases hl : lookup t.cfg pin with
    | none => exact respond_quiet hqt _
    | some b => exact attachBound_quiet hqt (hct ▸ hc) hl k
  by_cases he : (s.chan ch).attachedElsewhere pin = true
  · obtain ⟨b, hb⟩ := bound_of_attached hI h ((attachedElsewhere_iff _ _).1 he).1
    simp only [attachCore, detachElsewhere, he, if_true, detachCore_quiet hq hc hb, ok_bind, State.attachAtomic]
    exact key _ (by simpa [State.Quiet] using hq) (by simp)
  · simp only [attachCore, detachElsewhere, he, if_false, ok_bind, State.attachAtomic, Bool.false_eq_true]
    exact key s hq rfl

end Sys2Proof.Machine
end

