-- ==== Sys2Proof/Laws/Decode.lean ====
section
/-! SUPPORT. The fields of a command word, its must-be-zero bits byte by byte, and decoding by rows. -/

namespace Sys2Proof

/-- Four bytes, the first the most significant (30_encoding R71). -/
abbrev fourBytes (a b c d : Byte) : Word := a ++ b ++ c ++ d

/-- The `rsv` field (R71). -/
def rsvField (w : Word) : Byte := w.setWidth 8

theorem opcodeField_fourBytes (a b c d : Byte) : opcodeField (fourBytes a b c d) = a := by
  apply BitVec.eq_of_getLsbD_eq
  intro i hi
  have h1 : ¬ 24 + i < 8 := by omega
  have h2 : ¬ 24 + i - 8 < 8 := by omega
  have h3 : ¬ 24 + i - 8 - 8 < 8 := by omega
  have h4 : 24 + i - 8 - 8 - 8 = i := by omega
  simp only [opcodeField, BitVec.getLsbD_extractLsb', BitVec.getLsbD_append, h1, h2, h3, h4, hi, if_false,
    decide_true, Bool.true_and]

theorem chField_fourBytes (a b c d : Byte) : chField (fourBytes a b c d) = b := by
  apply BitVec.eq_of_getLsbD_eq
  intro i hi
  have h1 : ¬ 16 + i < 8 := by omega
  have h2 : ¬ 16 + i - 8 < 8 := by omega
  have h3 : 16 + i - 8 - 8 = i := by omega
  simp only [chField, BitVec.getLsbD_extractLsb', BitVec.getLsbD_append, h1, h2, h3, hi, if_false, if_true,
    decide_true, Bool.true_and]

theorem selField_fourBytes (a b c d : Byte) : selField (fourBytes a b c d) = c := by
  apply BitVec.eq_of_getLsbD_eq
  intro i hi
  have h1 : ¬ 8 + i < 8 := by omega
  have h2 : 8 + i - 8 = i := by omega
  simp only [selField, BitVec.getLsbD_extractLsb', BitVec.getLsbD_append, h1, h2, hi, if_false, if_true,
    decide_true, Bool.true_and]

theorem rsvField_fourBytes (a b c d : Byte) : rsvField (fourBytes a b c d) = d := by
  apply BitVec.eq_of_getLsbD_eq
  intro i hi
  simp only [rsvField, BitVec.getLsbD_setWidth, BitVec.getLsbD_append, hi, if_true, decide_true, Bool.true_and]

/-- A word is its four fields. -/
theorem word_eq_fields (w : Word) : w = fourBytes (opcodeField w) (chField w) (selField w) (rsvField w) := by
  apply BitVec.eq_of_getLsbD_eq
  intro i hi
  simp only [opcodeField, chField, selField, rsvField, BitVec.getLsbD_append, BitVec.getLsbD_extractLsb',
    BitVec.getLsbD_setWidth]
  by_cases h1 : i < 8
  · simp [h1]
  by_cases h2 : i - 8 < 8
  · simp [h1, h2, show 8 + (i - 8) = i by omega]
  by_cases h3 : i - 8 - 8 < 8
  · simp [h1, h2, h3, show 16 + (i - 8 - 8) = i by omega]
  · simp [h1, h2, h3, show i - 8 - 8 - 8 < 8 by omega, show 24 + (i - 8 - 8 - 8) = i by omega]

/-- Equal words have equal fields, and the other way round. -/
theorem fourBytes_inj {a b c d a' b' c' d' : Byte} :
    fourBytes a b c d = fourBytes a' b' c' d' ↔ a = a' ∧ b = b' ∧ c = c' ∧ d = d' := by
  constructor
  · intro h
    refine ⟨?_, ?_, ?_, ?_⟩
    · simpa only [opcodeField_fourBytes] using congrArg opcodeField h
    · simpa only [chField_fourBytes] using congrArg chField h
    · simpa only [selField_fourBytes] using congrArg selField h
    · simpa only [rsvField_fourBytes] using congrArg rsvField h
  · rintro ⟨rfl, rfl, rfl, rfl⟩; rfl

theorem fourBytes_and (a b c d a' b' c' d' : Byte) :
    fourBytes a b c d &&& fourBytes a' b' c' d' = fourBytes (a &&& a') (b &&& b') (c &&& c') (d &&& d') := by
  apply BitVec.eq_of_getLsbD_eq
  intro i _
  simp only [BitVec.getLsbD_and, BitVec.getLsbD_append]
  split <;> try rfl
  split <;> try rfl
  split <;> rfl

namespace Op

/-- Which bits of `ch` must be zero: all, or none where the row uses the field (R72). -/
def chMask : Op → Byte
  | attach | attachx | detach | write | writeus | read | attached => 0
  | lookup | configure | a2us | us2cnt => 0xFF

/-- Which bits of `sel` must be zero. -/
def selMask : Op → Byte
  | lookup | configure | us2cnt | attach | attachx => 0
  | a2us | detach | write | writeus | read | attached => 0xFF

theorem mask_eq (op : Op) : op.mask = fourBytes 0xFF op.chMask op.selMask 0xFF := by cases op <;> rfl

theorem pattern_eq (op : Op) : op.pattern = fourBytes op.code 0 0 0 := by cases op <;> rfl

theorem ofCode_code (op : Op) : ofCode op.code = some op := by cases op <;> rfl

theorem ofCode_some {b : Byte} {op : Op} (h : ofCode b = some op) : b = op.code := by
  have := List.find?_some h
  simpa using (beq_iff_eq.1 this).symm

theorem ofCode_none {b : Byte} (h : ∀ op : Op, op.code ≠ b) : ofCode b = none := by
  rw [ofCode, List.find?_eq_none]
  intro op _
  simpa using h op

end Op

/-- A word matches a row exactly when its opcode is the row's and its must-be-zero fields are zero. -/
theorem matches_row (op : Op) (w : Word) : w &&& op.mask = op.pattern ↔
    opcodeField w = op.code ∧ chField w &&& op.chMask = 0 ∧ selField w &&& op.selMask = 0 ∧ rsvField w = 0 := by
  have hall : ∀ b : Byte, b &&& 0xFF = b := by decide
  conv => lhs; rw [word_eq_fields w, op.mask_eq, op.pattern_eq, fourBytes_and, fourBytes_inj]
  simp only [hall]

/-- Decoding the words of one row. -/
theorem decode_row (op : Op) (w : Word) (rest : List Word) (hw : w &&& op.mask = op.pattern)
    (hr : op.nops ≤ rest.length) :
    decode (w :: rest) = .instr (buildInstr op w fun k => rest.getD k 0) (1 + op.nops) := by
  have ho : opcodeField w = op.code := ((matches_row op w).1 hw).1
  simp [decode, ho, Op.ofCode_code, hw, Nat.not_lt.2 hr]

/-- What a decoded command's words are: an opcode's row, matched, with its operand words. -/
theorem decode_instr_inv {ws : List Word} {i : Instr} {n : Nat} (h : decode ws = .instr i n) :
    ∃ op w rest, ws = w :: rest ∧ w &&& op.mask = op.pattern ∧ op.nops ≤ rest.length ∧ n = 1 + op.nops ∧
      i = buildInstr op w fun k => rest.getD k 0 := by
  cases ws with
  | nil => simp [decode] at h
  | cons w rest =>
    simp only [decode] at h
    split at h
    · simp at h
    · rename_i op _
      split at h
      · simp at h
      · split at h
        · rename_i hlen hmask
          simp only [Decoded.instr.injEq] at h
          exact ⟨op, w, rest, rfl, hmask, by omega, h.2.symm, h.1.symm⟩
        · simp at h

theorem commandWord_eq (op : Op) (ch sel : Byte) : commandWord op ch sel = fourBytes op.code ch sel 0 := rfl

theorem toNat_fourBytes (a b c d : Byte) :
    (fourBytes a b c d).toNat = a.toNat * 2 ^ 24 + b.toNat * 2 ^ 16 + c.toNat * 2 ^ 8 + d.toNat := by
  have := a.isLt; have := b.isLt; have := c.isLt; have := d.isLt
  simp only [BitVec.toNat_append]
  rw [← Nat.shiftLeft_add_eq_or_of_lt (by omega), ← Nat.shiftLeft_add_eq_or_of_lt (by omega),
    ← Nat.shiftLeft_add_eq_or_of_lt (by omega)]
  simp only [Nat.shiftLeft_eq]; omega

/-- A command word that uses `ch` only, as a number. -/
theorem commandWord_ch (op : Op) (ch : Byte) :
    commandWord op ch 0 = BitVec.ofNat 32 (op.code.toNat * 2 ^ 24 + ch.toNat * 2 ^ 16) := by
  apply BitVec.eq_of_toNat_eq
  have := ch.isLt; have := op.code.isLt
  rw [commandWord_eq, toNat_fourBytes, BitVec.toNat_ofNat]; simp; omega

/-- A command word that uses `sel` only, as a number. -/
theorem commandWord_sel (op : Op) (sel : Byte) :
    commandWord op 0 sel = BitVec.ofNat 32 (op.code.toNat * 2 ^ 24 + sel.toNat * 2 ^ 8) := by
  apply BitVec.eq_of_toNat_eq
  have := sel.isLt; have := op.code.isLt
  rw [commandWord_eq, toNat_fourBytes, BitVec.toNat_ofNat]; simp; omega

end Sys2Proof
end

