-- ==== Sys2Proof/Laws/PerInstr.lean ====
section
/-! SUPPORT. Facts about each command as syntax, one lemma per constructor: `EncodeLength`, the number of words a command
takes (spec/30_encoding.md R74), never more than the longest command's. -/

namespace Sys2Proof.Laws.EncodeLength

/-- The number of operand words of a command (R74). -/
def operands : Instr → Nat
  | .lookup _ => 0
  | .configure _ => 0
  | .a2us _ _ _ _ _ => 5
  | .us2cnt _ _ => 1
  | .attach _ _ => 0
  | .attachx _ _ _ _ _ _ => 4
  | .detach _ => 0
  | .write _ _ => 1
  | .writeus _ _ => 1
  | .read _ => 0
  | .attached _ => 0

/-- A command is one command word and its operand words, and fits the longest command's words. -/
def Statement (i : Instr) : Prop := (encode i).length = 1 + operands i ∧ (encode i).length ≤ maxWords

theorem lookup (pin : Byte) : Statement (.lookup pin) :=
  ⟨rfl, Nat.le_of_ble_eq_true rfl⟩
theorem configure (unit : Byte) : Statement (.configure unit) :=
  ⟨rfl, Nat.le_of_ble_eq_true rfl⟩
theorem a2us (angle minAngle maxAngle minUs maxUs : Word) : Statement (.a2us angle minAngle maxAngle minUs maxUs) :=
  ⟨rfl, Nat.le_of_ble_eq_true rfl⟩
theorem us2cnt (unit : Byte) (us : Word) : Statement (.us2cnt unit us) :=
  ⟨rfl, Nat.le_of_ble_eq_true rfl⟩
theorem attach (ch pin : Byte) : Statement (.attach ch pin) :=
  ⟨rfl, Nat.le_of_ble_eq_true rfl⟩
theorem attachx (ch pin : Byte) (minAngle maxAngle minUs maxUs : Word) :
    Statement (.attachx ch pin minAngle maxAngle minUs maxUs) :=
  ⟨rfl, Nat.le_of_ble_eq_true rfl⟩
theorem detach (ch : Byte) : Statement (.detach ch) :=
  ⟨rfl, Nat.le_of_ble_eq_true rfl⟩
theorem write (ch : Byte) (angle : Word) : Statement (.write ch angle) :=
  ⟨rfl, Nat.le_of_ble_eq_true rfl⟩
theorem writeus (ch : Byte) (us : Word) : Statement (.writeus ch us) :=
  ⟨rfl, Nat.le_of_ble_eq_true rfl⟩
theorem read (ch : Byte) : Statement (.read ch) :=
  ⟨rfl, Nat.le_of_ble_eq_true rfl⟩
theorem attached (ch : Byte) : Statement (.attached ch) :=
  ⟨rfl, Nat.le_of_ble_eq_true rfl⟩

end Sys2Proof.Laws.EncodeLength
end

