-- ==== Sys2Proof/Laws/Step.lean ====
section
/-! SUPPORT. The step: what it does in a well-formed configuration, and with a quiet outside. -/

namespace Sys2Proof.Machine

/-- In a well-formed configuration the step takes a command and executes it. -/
theorem step_of_wf {s : State} (hc : s.cfg.WellFormed) :
    step s = match takeCommand s with
      | .ok (i, t) => exec i t
      | .error e => finish (.error e) :=
  if_pos hc

theorem idleSlot_quiet {s : State} (h : s.Quiet) : idleSlot s = .ok s := by simp [idleSlot, h]

theorem takeCommand_instr {s : State} (h : s.Quiet) {i : Instr} {n : Nat} (hd : decode s.unread = .instr i n) :
    takeCommand s = .ok (i, s.advance n) := by
  simp [takeCommand, idleSlot_quiet h, hd]

/-! The machine with the recommended fault. -/

theorem strictExec_kept {i : Instr} {s : State} (h : contractKeptBy i s = true) : strictExec i s = exec i s := if_pos h

theorem strictExec_broken {i : Instr} {s : State} (h : contractKeptBy i s = false) :
    strictExec i s = .fault .calibrationContract := by
  rw [strictExec, h]; rfl

/-- Whether a command keeps the contract does not depend on where it stands in the stream. -/
theorem contractKeptBy_advance (i : Instr) (s : State) (n : Nat) : contractKeptBy i (s.advance n) = contractKeptBy i s := by
  cases i <;> rfl

theorem strictStep_of_wf {s : State} (hc : s.cfg.WellFormed) :
    strictStep s = match takeCommand s with
      | .ok (i, t) => strictExec i t
      | .error e => finish (.error e) :=
  if_pos hc

/-- Decoding reads no further than the command. -/
theorem decode_append {ws : List Word} {i : Instr} {n : Nat} (h : decode ws = .instr i n) (more : List Word) :
    decode (ws ++ more) = .instr i n := by
  obtain ⟨op, w, rest, rfl, hm, hl, rfl, rfl⟩ := decode_instr_inv h
  rw [List.cons_append, decode_row op w (rest ++ more) hm (by simp; omega)]
  congr 1
  cases op <;>
    simp only [buildInstr, Op.nops] at hl ⊢ <;>
    simp only [List.getD_eq_getElem?_getD] <;>
    (repeat rw [List.getElem?_append_left (by omega)])

/-- What the machine takes next after a table row's words were placed. -/
theorem withFetchWord_unread (s : State) (nbits w : Nat) :
    ∃ more, (s.withFetchWord nbits w).unread = tableWords nbits w ++ more := by
  have hlen : (s.stream.take s.cpc ++ List.replicate (s.cpc - s.stream.length) (0 : Word)).length = s.cpc := by
    simp [List.length_take]; omega
  refine ⟨s.stream.drop (s.cpc + (tableWords nbits w).length), ?_⟩
  simp only [State.withFetchWord, State.unread, placeWords, List.append_assoc]
  rw [← List.append_assoc, List.drop_append_of_le_length (by omega), List.drop_of_length_le (by omega), List.nil_append]

/-- The word that the host places is the command the very next step runs. -/
theorem step_withFetchWord {s : State} (hc : s.cfg.WellFormed) {nbits w n : Nat} {i : Instr}
    (hd : decode (tableWords nbits w) = .instr i n) :
    step (s.withFetchWord nbits w) = exec i ((s.withFetchWord nbits w).advance n) := by
  obtain ⟨more, hm⟩ := withFetchWord_unread s nbits w
  have hc' : (s.withFetchWord nbits w).cfg.WellFormed := hc
  rw [step_of_wf hc', takeCommand_instr rfl (hm ▸ decode_append hd more)]

end Sys2Proof.Machine
end

