-- ==== Sys2Proof/Tests/Slice0.lean ====
section
/-! SUPPORT. The model's own tests. Expected values are the spec's: its worked encodings (spec/30_encoding.md R82) and its
vectors (spec/95_test_vectors.md, the section named at each test). The second half shows, for every statement that has
hypotheses, that something meets them. -/

set_option maxRecDepth 20000

namespace Sys2Proof.Machine.Tests

/-! ## Helpers -/

/-- REFCFG after reset with channel 0 on a pin, and that pin's unit counted once. -/
def onPin (pin : Byte) (unit : Fin 16) : State :=
  { State.reset with
    chans := { resetChannel refCfg with pin := pin } :: List.replicate 5 (resetChannel refCfg)
    refcnt := (Vector.replicate 16 0).set unit 1 }

/-- The same with given registers. -/
def onPinWith (pin : Byte) (unit : Fin 16) (regs : Memory) : State := { onPin pin unit with regs := regs }

/-- REFCFG after reset with given registers. -/
def withRegs (regs : Memory) : State := { State.reset with regs := regs }

/-- REFCFG after reset with words sent and an outside. -/
def sent (ws : List Word) (env : List (List EnvEvent)) : State := { State.reset with stream := ws, env := env }

/-- A command runs to a next state that passes a check. -/
def after (i : Instr) (s : State) (check : State → Bool) : Bool :=
  match exec i s with
  | .next t => check t
  | .fault _ => false
  | .refused _ => false

/-- The response OK without data. -/
def ok : Event := .respond okResponse

theorem wf_ref : refCfg.WellFormed := by decide

theorem wf_alternate : refCfgAlternate.WellFormed := by decide

/-! ## The checks refuse ill-formed terms -/

theorem smoke_nch : ¬ ({ refCfg with nch := 0 } : Config).ParamsOk := by decide
theorem smoke_cal : ¬ ({ refCfg with calNum := 0 } : Config).ParamsOk := by decide
theorem smoke_refcntBits : ¬ ({ refCfg with refcntBits := 2 } : Config).ParamsOk := by decide
theorem smoke_unitIds : ¬ ({ refCfg with units := [refUnit0, refUnit0] } : Config).ParamsOk := by decide
theorem smoke_cmpRegs : ¬ ({ refCfg with units := [{ refUnit0 with cmpRegs := [] }] } : Config).ParamsOk := by decide
theorem smoke_pinZero :
    ¬ ({ refCfg with pinMap := [⟨0, none, ⟨0, 0x03, ⟨0x00, 0xC0, 0x80⟩⟩⟩] } : Config).PinZeroFree := by decide
theorem smoke_pinTwice : ¬ ({ refCfg with
    pinMap := ⟨9, none, ⟨0, 0x04, ⟨0x00, 0x30, 0x20⟩⟩⟩ :: refPinMap } : Config).PinMapFunctional := by decide
theorem smoke_bindingUnit :
    ¬ ({ refCfg with pinMap := [⟨9, none, ⟨3, 0x03, ⟨0x00, 0xC0, 0x80⟩⟩⟩] } : Config).BindingsOk := by decide
theorem smoke_bindingCompare :
    ¬ ({ refCfg with pinMap := [⟨9, none, ⟨0, 0x13, ⟨0x00, 0xC0, 0x80⟩⟩⟩] } : Config).BindingsOk := by decide
theorem smoke_bindingPatch :
    ¬ ({ refCfg with pinMap := [⟨9, none, ⟨0, 0x03, ⟨0x02, 0xC0, 0x80⟩⟩⟩] } : Config).BindingsOk := by decide
theorem smoke_compareShared : ¬ ({ refCfg with
    pinMap := ⟨7, none, ⟨0, 0x03, ⟨0x00, 0xC0, 0x80⟩⟩⟩ :: refPinMap } : Config).CompareRegsDistinct := by decide
theorem smoke_patchValue : ¬ ({ refCfg with
    units := [{ refUnit0 with prescPatches := [⟨0x01, 0x07, 0x0A⟩] }] } : Config).PatchValuesOk := by decide
theorem smoke_masks : ¬ ({ refCfg with
    units := [{ refUnit0 with prescPatches := [⟨0x00, 0xC0, 0x00⟩] }] } : Config).MasksDisjoint := by decide
theorem smoke_range : ¬ ({ refCfg with units := [{ refUnit0 with cpmNum := 3277 }] } : Config).RangesOk := by decide
theorem smoke_top : ¬ ({ refCfg with units := [{ refUnit2 with topValue := 1024 }] } : Config).RangesOk := by decide
theorem smoke_variant : ¬ ({ refCfg with units := [{ refUnit2 with hlatch := none }] } : Config).VariantsOk := by decide
theorem smoke_defaults : ¬ ({ refCfg with defMinAngle := 0x00B40000 } : Config).DefaultsOk := by decide
theorem smoke_addresses :
    ¬ ({ refCfg with units := [{ refUnit0 with topReg := 0x03 }] } : Config).AddressesOk := by decide
theorem smoke_wellFormed : ¬ ({ refCfg with nch := 0 } : Config).WellFormed := fun h => smoke_nch h.1
theorem smoke_channel : ¬ (Instr.detach 6).WellFormed refCfg := by decide
theorem smoke_unit : ¬ (Instr.configure 3).WellFormed refCfg := by decide

/-! ## Decoding (95_test_vectors section 2.1) -/

theorem decode_lookup : decode [0x01000900] = .instr (.lookup 9) 1 := by decide
theorem decode_configure : decode [0x02000200] = .instr (.configure 2) 1 := by decide
theorem decode_a2us : decode [0x03000000, 0x005A0000, 0x00000000, 0x00B40000, 0x01F40000, 0x09C40000]
    = .instr (.a2us 0x005A0000 0 0x00B40000 0x01F40000 0x09C40000) 6 := by decide
theorem decode_us2cnt : decode [0x04000200, 0x05DC0000] = .instr (.us2cnt 2 0x05DC0000) 2 := by decide
theorem decode_attach : decode [0x10010500] = .instr (.attach 1 5) 1 := by decide
theorem decode_attachx : decode [0x11000900, 0x00000000, 0x00B40000, 0x01F40000, 0x09C40000]
    = .instr (.attachx 0 9 0 0x00B40000 0x01F40000 0x09C40000) 5 := by decide
theorem decode_detach : decode [0x12050000] = .instr (.detach 5) 1 := by decide
theorem decode_write : decode [0x13000000, 0x005A0000] = .instr (.write 0 0x005A0000) 2 := by decide
theorem decode_writeus : decode [0x14030000, 0x61A80000] = .instr (.writeus 3 0x61A80000) 2 := by decide
theorem decode_read : decode [0x15020000] = .instr (.read 2) 1 := by decide
theorem decode_attached : decode [0x16040000] = .instr (.attached 4) 1 := by decide
theorem decode_noOpcode : decode [0x00000000] = .illegal .opcode 1 ∧ decode [0x17000000] = .illegal .opcode 1 := by decide
theorem decode_mustBeZero : decode [0x12000001] = .illegal .mustBeZero 1 ∧ decode [0x12000900] = .illegal .mustBeZero 1 ∧
    decode [0x01010900] = .illegal .mustBeZero 1 := by decide
theorem decode_clauses34 : decode [0x13060000, 0x005A0000] = .instr (.write 6 0x005A0000) 2 ∧
    ¬ (Instr.write 6 0x005A0000).WellFormed refCfg ∧ ¬ (Instr.us2cnt 0x0F 0x05DC0000).WellFormed refCfg := by decide
theorem decode_tableWord : decodeTableWord 192 0x09C4000001F4000000B4000000000000005A000003000000
    = some (.a2us 0x005A0000 0 0x00B40000 0x01F40000 0x09C40000) := by decide

/-- A placed word is the first command after reset. -/
theorem step_placed : (match step (State.reset.withFetchWord 32 0x10000900) with
    | .next t => (t.chan 0).pin == 9 && t.cpc == 1
    | .fault _ => false
    | .refused _ => false) = true := by decide

/-! ## One step of each command (95_test_vectors sections 2.2 to 2.7) -/

/-- 2.2, LOOKUP 13. -/
theorem test_lookup : after (.lookup 13) State.reset (fun t => t.log ==
    [.respond ⟨.ok, false, 0x00000223, 0x0020C080⟩]) = true := by decide

/-- 2.2, LOOKUP 12. -/
theorem test_lookup_unsupported : after (.lookup 12) State.reset (fun t => t.log ==
    [.respond ⟨.unsupportedPin, false, 0, 0⟩]) = true := by decide

/-- 2.3, unit 0 from 0xA5, 0xE0. -/
theorem test_configure_wide : after (.configure 0) (withRegs [(0x00, 0xA5), (0x01, 0xE0)]) (fun t =>
    t.log == [.rd 0x00 0xA5, .wr8 0x00 0xA6, .rd 0x01 0xE0, .wr8 0x01 0xF8, .rd 0x01 0xF8, .wr8 0x01 0xFA,
      .wr16 0x02 0x9C3F, ok] &&
    t.regs == [(0x00, 0xA6), (0x01, 0xFA), (0x02, 0x9C3F)]) = true := by decide

/-- 2.3, unit 2 from 0xFC, 0xC5, 0x3FF. -/
theorem test_configure_narrow : after (.configure 2) (withRegs [(0x20, 0xFC), (0x21, 0xC5), (0x22, 0x3FF)]) (fun t =>
    t.log == [.rd 0x20 0xFC, .wr8 0x20 0xFE, .rd 0x21 0xC5, .wr8 0x21 0xF5, .rd 0x21 0xF5, .wr8 0x21 0xFA,
      .locked 0x26 0x02 0x22 0x70, ok] &&
    t.regs == [(0x20, 0xFE), (0x21, 0xFA), (0x22, 0x270), (0x26, 0x02)]) = true := by decide

/-- 2.4, angle -45 under -90, 90, 1000, 2000. -/
theorem test_a2us_negative : after (.a2us 0xFFD30000 0xFFA60000 0x005A0000 0x03E80000 0x07D00000) State.reset (fun t =>
    t.log == [.respond ⟨.ok, false, 0x04E20000, 0⟩]) = true := by decide

/-- 2.4, the reversed servo at 60 degrees: the negative term is rounded toward minus infinity. -/
theorem test_a2us_reversed : after (.a2us 0x003C0000 0 0x00B40000 0x09C40000 0x01F40000) State.reset (fun t =>
    t.log == [.respond ⟨.ok, false, 0x07295555, 0⟩]) = true := by decide

/-- 2.5, 19999.5 microseconds on unit 0. -/
theorem test_us2cnt_wide : after (.us2cnt 0 0x4E1F8000) State.reset (fun t =>
    t.log == [.respond ⟨.ok, false, 39063, 0⟩]) = true := by decide

/-- 2.5, CAL = 17/10: the narrow count of 20000 microseconds wraps to 38. -/
theorem test_us2cnt_wraps : after (.us2cnt 2 0x4E200000)
    { State.reset with cfg := { refCfg with calNum := 17, calDen := 10 } } (fun t =>
    t.log == [.respond ⟨.ok, false, 38, 0⟩]) = true := by decide

/-- 2.7, ATTACH of channel 0 from pin 9 to pin 11, the only channel of unit 0. -/
theorem test_attach_moves : after (.attach 0 11) (onPinWith 9 0 [(0x00, 0x82), (0x01, 0x1A), (0x03, 0x0B71)]) (fun t =>
    t.log == [.wr16 0x03 0, .gpioDir 9 .input, .rd 0x00 0x82, .wr8 0x00 0x82, .rd 0x01 0x1A, .wr8 0x01 0x1A, .rd 0x01 0x1A,
      .wr8 0x01 0x1A, .wr16 0x02 0x9C3F, .rd 0x00 0x82, .wr8 0x00 0x8A, .gpioDir 11 .output, ok] &&
    (t.chan 0).pin == 11 && t.refcount 0 == 1 && t.reg 0x03 == 0) = true := by decide

/-- 2.7, ATTACH 0, 7 of a channel on pin 9. -/
theorem test_attach_unsupported : after (.attach 0 7) (onPin 9 0) (fun t =>
    t.log == [.wr16 0x03 0, .gpioDir 9 .input, .respond ⟨.unsupportedPin, false, 0, 0⟩] && (t.chan 0).pin == 0 &&
    t.refcount 0 == 0) = true := by decide

/-- 2.7, the second row: no Configure on a unit that has a channel. -/
theorem test_attachx_shared : after (.attachx 1 10 0xFFA60000 0x005A0000 0x03E80000 0x07D00000)
    (onPinWith 9 0 [(0x00, 0x82)]) (fun t =>
    t.log == [.rd 0x00 0x82, .wr8 0x00 0xA2, .gpioDir 10 .output, ok] && t.refcount 0 == 2 &&
    t.chan 1 == ⟨10, false, 0, 0xFFA60000, 0x005A0000, 0x03E80000, 0x07D00000⟩) = true := by decide

/-- 2.7, a failed ATTACHX stores no calibration. -/
theorem test_attachx_unsupported : after (.attachx 0 12 0 0x005A0000 0x03E80000 0x07D00000) State.reset (fun t =>
    t.log == [.respond ⟨.unsupportedPin, false, 0, 0⟩] && t.chans == State.reset.chans) = true := by decide

/-- 2.7, DETACH of channel 0 on pin 9. -/
theorem test_detach : after (.detach 0) (onPinWith 9 0 [(0x00, 0x82), (0x03, 2929)]) (fun t =>
    t.log == [.wr16 0x03 0, .gpioDir 9 .input, ok] && t.regs == [(0x00, 0x82)] && (t.chan 0).pin == 0 &&
    t.refcount 0 == 0) = true := by decide

/-- 2.7, WRITE 0, 200 clamps to 180 on a wide unit. -/
theorem test_write_wide : after (.write 0 0x00C80000) (onPin 9 0) (fun t =>
    t.log == [.wr16 0x03 0x1313, ok] && (t.chan 0).angle == 0x00B40000 && (t.chan 0).angleValid) = true := by decide

/-- 2.7, WRITE of 90 degrees on a narrow unit. -/
theorem test_write_narrow : after (.write 0 0x005A0000) (onPinWith 13 2 [(0x26, 0xFF)]) (fun t =>
    t.log == [.locked 0x26 0x00 0x23 0x2D, ok] && t.regs == [(0x23, 45)]) = true := by decide

/-- 2.7, WRITEUS 25000 on a narrow unit; ANGLE untouched. -/
theorem test_writeus_narrow : after (.writeus 0 0x61A80000) (onPin 13 2) (fun t =>
    t.log == [.locked 0x26 0x02 0x23 0x62, ok] && t.reg 0x23 == 0x262 && t.chans == (onPin 13 2).chans) = true := by decide

/-- 2.7, WRITEUS 0, 1500 under the calibration 90/90: defined. -/
theorem test_writeus_contract : after (.writeus 0 0x05DC0000) ((onPin 9 0).setChan 0
    ⟨9, false, 0, 0x005A0000, 0x005A0000, 0x01F40000, 0x09C40000⟩) (fun t =>
    t.log == [.wr16 0x03 0x0B71, ok]) = true := by decide

/-- 2.7, READ after reset. -/
theorem test_read_none : after (.read 0) State.reset (fun t => t.log == [.respond ⟨.ok, false, 0, 0⟩]) = true := by decide

/-- P4 step 7, a valid angle of 0. -/
theorem test_read_zero : after (.read 0) (State.reset.setChan 0
    ⟨0, true, 0, 0, 0x00B40000, 0x01F40000, 0x09C40000⟩) (fun t => t.log == [.respond ⟨.ok, true, 0, 0⟩]) = true := by
  decide

/-- P1 step 8. -/
theorem test_attached : after (.attached 0) (onPin 9 0) (fun t => t.log == [.respond ⟨.ok, false, 1, 0⟩]) = true := by
  decide

/-- 2.6, step 2 alone with HLATCH2 = 0x01: a foreign write of 0x10 to 0x24. -/
theorem test_foreign_low : ((withRegs [(0x26, 0x01)]).applyEvent (.foreignWrite 0x24 0x10)).reg 0x24 = 0x110 := by decide

/-- 2.6, the lost update. -/
theorem test_lost_update : (match rmw ⟨0x00, 0xC0, 0x80⟩
      { withRegs [(0x00, 0x02)] with env := [[], [.foreignWrite 0x00 0x22]] } with
    | .ok t => t.reg 0x00 == 0x82
    | .error _ => false) = true := by decide

/-! ## Witnesses: every statement's hypotheses are met -/

/-- The soundness premises of a state. -/
abbrev Sound (s : State) : Prop := s.cfg.WellFormed ∧ s.Inv ∧ s.Quiet

theorem sound_reset : Sound State.reset := by decide
theorem sound_wide : Sound (onPin 9 0) := by decide
theorem sound_narrow : Sound (onPin 13 2) := by decide

/-- A state with channel 0 under a violated contract. -/
def violated : State := { onPin 13 2 with
  chans := ⟨13, false, 0, 0x005A0000, 0x005A0000, 0x01F40000, 0x09C40000⟩ :: List.replicate 5 (resetChannel refCfg) }

theorem sound_violated : Sound violated := by decide

/-- A state whose unit 2 holds its configuration. -/
def configured2 : State := onPinWith 13 2 [(0x20, 0x82), (0x21, 0x3A), (0x22, 0x270)]

theorem sound_configured2 : Sound configured2 := by decide

theorem witness_DecodedWordsAreTheEncoding :
    decode [0x13000000, 0x005A0000, 0x16040000] = .instr (.write 0 0x005A0000) 2 := by decide

theorem witness_OpcodeRowsUnambiguous : (0x12050000 : Word) &&& Op.detach.mask = Op.detach.pattern ∧
    Op.ofCode (opcodeField 0x17000000) = none := by decide

theorem witness_WordsThatAreNoCommand : (∀ op ∈ Op.all, op.code ≠ opcodeField 0x17000000) ∧
    opcodeField 0x13000000 = Op.write.code ∧ ([] : List Word).length < Op.write.nops ∧
    Op.write.nops ≤ [(0 : Word)].length ∧ (0x13000001 : Word) &&& Op.write.mask ≠ Op.write.pattern := by decide

theorem witness_ResetContextsAndCounters : State.reset.cfg.WellFormed ∧ (5 : Byte).toNat < State.reset.cfg.nch := by decide

theorem witness_ResetSatisfiesInv : Memory.wf [(0x03, 0xFFFF), (0x23, 0x3FF)] ∧
    (State.resetIn refCfg [(0x03, 0xFFFF), (0x23, 0x3FF)]).RegistersFit := by decide

theorem witness_PinZeroUnsupported : refCfg.WellFormed := wf_ref

theorem witness_StepRunsTheDecodedCommand : (sent [0x15000000] []).cfg.WellFormed ∧ (sent [0x15000000] []).Quiet ∧
    decode ((sent [0x15000000] []).stream.drop (sent [0x15000000] []).cpc) = .instr (.read 0) 1 := by decide

/-- The other branch of the same statement: a WRITE that breaks the contract (60_exceptions R171). -/
theorem witness_StepRunsTheDecodedCommand_broken :
    decode [0x13000000, 0x005A0000] = .instr (.write 0 0x005A0000) 2 ∧
    contractKeptBy (.write 0 0x005A0000) { violated with stream := [0x13000000, 0x005A0000] } = false ∧
    (match strictStep { violated with stream := [0x13000000, 0x005A0000] } with
      | .next _ => false
      | .fault f => f == .calibrationContract
      | .refused _ => false) = true := by decide

theorem witness_StepAnswersIllegalWords : (sent [0x12000001] []).cfg.WellFormed ∧ (sent [0x12000001] []).Quiet ∧
    decode ((sent [0x12000001] []).stream.drop (sent [0x12000001] []).cpc) = .illegal .mustBeZero 1 := by decide

/-- The three clauses of the statement, each met. -/
theorem witness_StepWaitsForMissingWords : State.reset.cfg.WellFormed ∧
    ((sent [0x13000000] []).Quiet ∧ decode ((sent [0x13000000] []).stream.drop 0) = .truncated) ∧
    (State.reset.Quiet ∧ decode (State.reset.stream.drop State.reset.cpc) = .empty) ∧
    ((sent [0x11000900] [[.send [0, 1, 2]]]).env = [[.send [0, 1, 2]]] ∧
      decode (([0x11000900] ++ [0, 1, 2] : List Word).drop 0) = .truncated) := by decide

theorem witness_IllFormedConfigRefused :
    ¬ ({ State.reset with cfg := { refCfg with nch := 0 } } : State).cfg.WellFormed := smoke_wellFormed

/-- A reset between commands: with a waiting partial command, and with a whole one. -/
theorem witness_ResetBetweenCommands : State.reset.cfg.WellFormed ∧ (sent [0x13000000] [[.reset]]).env = [[.reset]] ∧
    decode ((sent [0x13000000] [[.reset]]).stream.drop 0) = .truncated ∧
    decode ((sent [0x15000000] [[.reset]]).stream.drop 0) ≠ .truncated := by decide

theorem witness_ResetAbandonsCommand : ({ onPin 9 0 with env := [[.reset]] } : State).cfg.WellFormed ∧
    ({ onPin 9 0 with env := [[.reset]] } : State).Inv ∧
    ({ onPin 9 0 with env := [[.reset]] } : State).env = [[.reset]] := by decide

theorem witness_IllegalOperandsAnswered : State.reset.Quiet ∧ ¬ (Instr.attach 6 9).WellFormed State.reset.cfg ∧
    ¬ (Instr.us2cnt 3 0).WellFormed State.reset.cfg := by decide

theorem witness_LookupAnswersTheBinding : State.reset.Quiet ∧ lookup State.reset.cfg 7 = none ∧
    lookup State.reset.cfg 9 = some ⟨0, 0x03, ⟨0x00, 0xC0, 0x80⟩⟩ := by decide

theorem witness_A2usAnswersThePulse : State.reset.Quiet ∧ (0x00000000 : Word).toInt < (0x00000001 : Word).toInt := by decide

theorem witness_A2usOutsideTheContract : State.reset.Quiet ∧ (0x005A0000 : Word).toInt ≤ (0x005A0000 : Word).toInt := by
  decide

theorem witness_Us2cntAnswersTheCount : State.reset.Quiet ∧ unitCfg? State.reset.cfg 3 = none ∧
    unitCfg? State.reset.cfg 2 = some refUnit2 := by decide

theorem witness_ReadAnswersTheAngle : State.reset.Quiet ∧ (5 : Byte).toNat < State.reset.cfg.nch := by decide

theorem witness_AttachedAnswersTheBinding : (onPin 9 0).Quiet ∧ (0 : Byte).toNat < (onPin 9 0).cfg.nch ∧
    ((onPin 9 0).chan 0).pin ≠ 0 := by decide

theorem witness_ConverterProperties : (0 : Int) < 1 ∧ refCfg.WellFormed ∧ refUnit2 ∈ refCfg.units ∧ (1 : Int) ≤ 0x4E200000 ∧
    fullCount refCfg refUnit2 1 < 2 ^ refUnit2.cntBits ∧ fullCount refCfg refUnit2 0x4E200000 < 2 ^ refUnit2.cntBits := by
  decide

theorem witness_PulseFitsTheWord : raw 0x80000000 < raw 0x7FFFFFFF := by decide

theorem witness_CountFitsTheRegister : refCfg.WellFormed ∧ refUnit2 ∈ refCfg.units ∧
    refCfg.calNum * (20 * refUnit2.cpmNum) < 2 ^ refUnit2.cntBits * refUnit2.cpmDen * refCfg.calDen := by decide

/-- REFCFG with CAL = 2^16 / 40000, the bound of 42_converter R117 for unit 0. -/
def boundCfg : Config := { refCfg with calNum := 65536, calDen := 40000 }

theorem witness_CountBoundIncludingTheLimit : boundCfg.WellFormed ∧ refUnit0 ∈ boundCfg.units ∧
    boundCfg.calNum * (20 * refUnit0.cpmNum) ≤ 2 ^ refUnit0.cntBits * refUnit0.cpmDen * boundCfg.calDen := by decide

/-- The hypotheses of the two statements about CONFIGURE's effect and history. -/
theorem witness_ConfigureSetsTheUnit : Sound State.reset ∧ unitCfg? State.reset.cfg 2 = some refUnit2 :=
  ⟨sound_reset, by decide⟩

theorem witness_ConfigureHistory : Sound State.reset ∧ unitCfg? State.reset.cfg 0 = some refUnit0 :=
  ⟨sound_reset, by decide⟩

theorem witness_ConfigureIdempotent : Sound configured2 ∧ unitCfg? configured2.cfg 2 = some refUnit2 ∧
    configured2.UnitHolds refUnit2 := ⟨sound_configured2, by decide, by decide⟩

/-- From an unattached channel, and from one on another unit's pin. -/
theorem witness_AttachBindsTheChannel : Sound State.reset ∧ Sound (onPin 13 2) ∧ (0 : Byte).toNat < State.reset.cfg.nch ∧
    lookup State.reset.cfg 9 = some ⟨0, 0x03, ⟨0x00, 0xC0, 0x80⟩⟩ ∧ (5 : Byte).toNat < State.reset.cfg.nch :=
  ⟨sound_reset, sound_narrow, by decide, by decide, by decide⟩

/-- The attach configures unit 0; bit 7 of MODEB0 (MISC) is outside every mask. -/
theorem witness_AttachRegisterFrame : Sound (onPin 13 2) ∧ (1 : Byte).toNat < (onPin 13 2).cfg.nch ∧
    lookup (onPin 13 2).cfg 9 = some ⟨0, 0x03, ⟨0x00, 0xC0, 0x80⟩⟩ ∧ unitCfg? (onPin 13 2).cfg 0 = some refUnit0 ∧
    ((onPin 13 2).chan 1).pin = 0 ∧ after (.attach 1 9) (onPin 13 2) (fun _ => true) = true ∧
    (onPin 13 2).refcount 0 = 0 ∧ (0x01 : RegAddr) ∈ (onPin 13 2).cfg.modeRegs ∧
    ∀ p ∈ refUnit0.wgmPatches ++ refUnit0.prescPatches, p.reg = 0x01 → p.mask.getLsbD 7 = false :=
  ⟨sound_narrow, by decide, by decide, by decide, by decide, by decide, by decide, by decide, by decide⟩

/-- An unattached channel, and an attached one. -/
theorem witness_AttachToUnsupportedPin : Sound State.reset ∧ Sound (onPin 13 2) ∧ lookup refCfg 7 = none ∧
    lookup (onPin 13 2).cfg ((onPin 13 2).chan 0).pin = some ⟨2, 0x23, ⟨0x20, 0xC0, 0x80⟩⟩ ∧
    unitCfg? (onPin 13 2).cfg 2 = some refUnit2 := ⟨sound_reset, sound_narrow, by decide, by decide, by decide⟩

theorem witness_AttachElsewhereDetachesFirst : Sound (onPin 13 2) ∧ (0 : Byte).toNat < (onPin 13 2).cfg.nch ∧
    lookup (onPin 13 2).cfg 6 = some ⟨2, 0x25, ⟨0x20, 0x0C, 0x08⟩⟩ ∧ unitCfg? (onPin 13 2).cfg 2 = some refUnit2 ∧
    ((onPin 13 2).chan 0).pin ≠ 6 ∧
    lookup (onPin 13 2).cfg ((onPin 13 2).chan 0).pin = some ⟨2, 0x23, ⟨0x20, 0xC0, 0x80⟩⟩ ∧
    (onPin 13 2).refcount 2 = 1 ∧ (0x21 : RegAddr) ∈ (onPin 13 2).cfg.modeRegs ∧
    ∀ p ∈ refUnit2.wgmPatches ++ refUnit2.prescPatches, p.reg = 0x21 → p.mask.getLsbD 6 = false :=
  ⟨sound_narrow, by decide, by decide, by decide, by decide, by decide, by decide, by decide, by decide⟩

theorem witness_ReattachToTheSamePin : Sound (onPin 9 0) ∧ (0 : Byte).toNat < (onPin 9 0).cfg.nch ∧
    lookup (onPin 9 0).cfg 9 = some ⟨0, 0x03, ⟨0x00, 0xC0, 0x80⟩⟩ ∧ ((onPin 9 0).chan 0).pin = 9 :=
  ⟨sound_wide, by decide, by decide, by decide⟩

theorem witness_AttachOnSharedUnit : Sound (onPin 9 0) ∧ (1 : Byte).toNat < (onPin 9 0).cfg.nch ∧
    lookup (onPin 9 0).cfg 10 = some ⟨0, 0x04, ⟨0x00, 0x30, 0x20⟩⟩ ∧ ((onPin 9 0).chan 1).pin = 0 ∧
    (onPin 9 0).refcount 0 ≠ 0 := ⟨sound_wide, by decide, by decide, by decide, by decide⟩

theorem witness_DetachReleasesTheChannel : Sound (onPin 13 2) ∧ (0 : Byte).toNat < (onPin 13 2).cfg.nch ∧
    lookup (onPin 13 2).cfg ((onPin 13 2).chan 0).pin = some ⟨2, 0x23, ⟨0x20, 0xC0, 0x80⟩⟩ ∧
    unitCfg? (onPin 13 2).cfg 2 = some refUnit2 := ⟨sound_narrow, by decide, by decide, by decide⟩

/-- The no-op clause and the repeated clause. -/
theorem witness_DetachTwiceIsDetachOnce : (State.reset.Quiet ∧ (State.reset.chan 5).pin = 0) ∧ Sound (onPin 9 0) ∧
    after (.detach 0) (onPin 9 0) (fun _ => true) = true := ⟨by decide, sound_wide, by decide⟩

theorem witness_WriteMovesTheServo : Sound (onPin 13 2) ∧
    lookup (onPin 13 2).cfg ((onPin 13 2).chan 0).pin = some ⟨2, 0x23, ⟨0x20, 0xC0, 0x80⟩⟩ ∧
    unitCfg? (onPin 13 2).cfg 2 = some refUnit2 ∧
    raw ((onPin 13 2).chan 0).minAngle < raw ((onPin 13 2).chan 0).maxAngle :=
  ⟨sound_narrow, by decide, by decide, by decide⟩

/-- The unattached clause, and the attached one under a violated contract. -/
theorem witness_WriteusSetsThePulse : (State.reset.Quiet ∧ (State.reset.chan 5).pin = 0) ∧ Sound violated ∧
    lookup violated.cfg (violated.chan 0).pin = some ⟨2, 0x23, ⟨0x20, 0xC0, 0x80⟩⟩ ∧
    unitCfg? violated.cfg 2 = some refUnit2 := ⟨by decide, sound_violated, by decide, by decide⟩

theorem witness_UnattachedWritesAreNoOps : State.reset.Quiet ∧ (5 : Byte).toNat < State.reset.cfg.nch ∧
    (State.reset.chan 5).pin = 0 := by decide

theorem witness_WriteIsWriteusOfA2us : Sound (onPin 9 0) ∧ (0 : Byte).toNat < (onPin 9 0).cfg.nch ∧
    raw ((onPin 9 0).chan 0).minAngle < raw ((onPin 9 0).chan 0).maxAngle ∧
    after (.a2us 0x005A0000 ((onPin 9 0).chan 0).minAngle ((onPin 9 0).chan 0).maxAngle ((onPin 9 0).chan 0).minUs
      ((onPin 9 0).chan 0).maxUs) (onPin 9 0) (fun r =>
      r.log == (onPin 9 0).log ++ [.respond ⟨.ok, false, 0x05DC0000, 0⟩]) = true ∧
    after (.write 0 0x005A0000) (onPin 9 0) (fun _ => true) = true ∧
    after (.writeus 0 0x05DC0000) (onPin 9 0) (fun _ => true) = true :=
  ⟨sound_wide, by decide, by decide, by decide, by decide, by decide⟩

/-- 200 and 180 degrees clamp to the same angle. -/
theorem witness_WriteDependsOnTheClampedAngle :
    clamp (raw 0x00C80000) (raw ((onPin 9 0).chan 0).minAngle) (raw ((onPin 9 0).chan 0).maxAngle)
      = clamp (raw 0x00B40000) (raw ((onPin 9 0).chan 0).minAngle) (raw ((onPin 9 0).chan 0).maxAngle) := by decide

theorem witness_WriteOutsideTheContract : Sound violated ∧
    lookup violated.cfg (violated.chan 0).pin = some ⟨2, 0x23, ⟨0x20, 0xC0, 0x80⟩⟩ ∧
    unitCfg? violated.cfg 2 = some refUnit2 ∧ raw (violated.chan 0).maxAngle ≤ raw (violated.chan 0).minAngle :=
  ⟨sound_violated, by decide, by decide, by decide⟩

/-- With a foreign write of the latch in the slot before the pair. -/
theorem witness_LockedPairIsIndivisible : refCfg.WellFormed ∧ refUnit2 ∈ refCfg.units ∧ refUnit2.variant = .narrow ∧
    refUnit2.hlatch = some 0x26 ∧ (0x23 : RegAddr) ∈ refUnit2.cmpRegs ∧
    (match wideWrite refUnit2 0x23 0x262 (sent [] [[.foreignWrite 0x26 0x01]]) with
      | .ok t => t.reg 0x23 == 0x262
      | .error _ => false) = true := ⟨wf_ref, by decide, by decide, by decide, by decide, by decide⟩

theorem witness_ForeignWriteInsideRmwIsLost : regKind refCfg 0x00 = some .mode ∧
    (sent [] [[], [.foreignWrite 0x00 0x22]]).env = [[], [.foreignWrite 0x00 0x22]] := by decide

theorem witness_PinsDoNotInterfere : Sound State.reset ∧ (13 : Byte) ≠ 6 ∧
    lookup State.reset.cfg 13 = some ⟨2, 0x23, ⟨0x20, 0xC0, 0x80⟩⟩ ∧
    lookup State.reset.cfg 6 = some ⟨2, 0x25, ⟨0x20, 0x0C, 0x08⟩⟩ ∧ unitCfg? State.reset.cfg 2 = some refUnit2 :=
  ⟨sound_reset, by decide, by decide, by decide, by decide⟩

/-- With foreign writes between the command's accesses. -/
theorem witness_AccessesFitTheirRegisters : refCfg.WellFormed ∧
    after (.attach 0 9) (sent [] [[], [.foreignWrite 0x00 0x22], [.foreignWrite 0x02 1]]) (fun t =>
      !(State.reset.eventsTo t).isEmpty) = true ∧ contractKeptBy (.attach 0 9) State.reset = true :=
  ⟨wf_ref, by decide, rfl⟩

/-- A step that changes contexts, counters and registers, with foreign writes. -/
theorem witness_EveryStepKeepsInv : (sent [0x10000900] [[], [.foreignWrite 0x26 0xFF]]).Inv ∧
    (match step (sent [0x10000900] [[], [.foreignWrite 0x26 0xFF]]) with
      | .next t => t.refcount 0 == 1
      | .fault _ => false
      | .refused _ => false) = true := by decide

/-- Unit 2 configured and counted; the step detaches its channel. -/
theorem witness_EveryStepKeepsConfiguredUnits : ({ configured2 with stream := [0x14000000, 0x05DC0000] } : State).Inv ∧
    ({ configured2 with stream := [0x14000000, 0x05DC0000] } : State).Quiet ∧
    ({ configured2 with stream := [0x14000000, 0x05DC0000] } : State).ConfiguredUnitsHold ∧
    ({ configured2 with stream := [0x14000000, 0x05DC0000] } : State).refcount 2 ≠ 0 ∧
    (match step { configured2 with stream := [0x14000000, 0x05DC0000] } with
      | .next t => t.refcount 2 == 1
      | .fault _ => false
      | .refused _ => false) = true := by decide

theorem witness_CommandsAreAtomicTransitions : Sound (onPin 9 0) := sound_wide

/-- With further words sent during the command. -/
theorem witness_CommandsKeepTheStream : after (.attach 0 9) (sent [0x10000900] [[.send [0x16000000]]]) (fun t =>
    t.stream == [0x10000900, 0x16000000]) = true := by decide

theorem witness_OneResponsePerCommand : (onPin 9 0).Quiet ∧
    after (.detach 0) (onPin 9 0) (fun t => t.log.length == 3) = true := by decide

/-- An illegal command, and an unsupported pin. -/
theorem witness_OnlyTheseCommandsFail : State.reset.Quiet ∧
    after (.read 6) State.reset (fun t => t.log == State.reset.log ++ [] ++ [.respond ⟨.illegalCommand, false, 0, 0⟩]) = true ∧
    after (.lookup 0) State.reset (fun t => t.log == State.reset.log ++ [] ++ [.respond ⟨.unsupportedPin, false, 0, 0⟩])
      = true := by decide

/-- The three clauses: an attach, a detach, another command. -/
theorem witness_ChannelLifecycle : Sound (onPin 9 0) ∧ (0 : Byte).toNat < (onPin 9 0).cfg.nch ∧
    after (.attach 0 10) (onPin 9 0) (fun t => (t.chan 0).pin == 10) = true ∧
    after (.attach 0 7) (onPin 9 0) (fun t => (t.chan 0).pin == 0) = true ∧
    after (.detach 0) (onPin 9 0) (fun t => (t.chan 0).pin == 0) = true ∧
    after (.write 0 0) (onPin 9 0) (fun t => (t.chan 0).pin == 9) = true :=
  ⟨sound_wide, by decide, by decide, by decide, by decide, by decide⟩

/-- A command that binds nothing, and one that names another channel. -/
theorem witness_OnlyAttachAndDetachBind : (onPin 9 0).Quiet ∧
    after (.write 0 0x005A0000) (onPin 9 0) (fun t => t.refcount 0 == 1) = true ∧
    (Instr.attach 1 10).channel? ≠ some 0 ∧
    after (.attach 1 10) (onPin 9 0) (fun t => t.chan 0 == (onPin 9 0).chan 0) = true := by decide

/-- A command that writes no angle, and one that stores no calibration. -/
theorem witness_OnlyWriteAndAttachxStore : (onPin 9 0).Quiet ∧
    after (.writeus 0 0x05DC0000) (onPin 9 0) (fun t => !(t.chan 0).angleValid) = true ∧
    after (.write 0 0x005A0000) (onPin 9 0) (fun t => (t.chan 0).calibration == (State.reset.chan 0).calibration)
      = true := by decide

theorem witness_AnsweringCommandsChangeNothing : (onPin 9 0).Quiet ∧
    after (.lookup 9) (onPin 9 0) (fun _ => true) = true ∧ after (.a2us 0 1 0 0 0) (onPin 9 0) (fun _ => true) = true ∧
    after (.us2cnt 0 0) (onPin 9 0) (fun _ => true) = true ∧ after (.read 0) (onPin 9 0) (fun _ => true) = true ∧
    after (.attached 0) (onPin 9 0) (fun _ => true) = true := by decide

/-- The clauses' own premises: a supported and an unsupported pin, two angles that clamp alike, a DETACH, a WRITE, an
unattached channel beside an attached one of the same unit. -/
theorem witness_ChannelPropertiesHold : Sound (onPin 9 0) ∧ (lookup refCfg 10).isSome ∧ lookup refCfg 7 = none ∧
    clamp (raw 0x00C80000) (raw ((onPin 9 0).chan 0).minAngle) (raw ((onPin 9 0).chan 0).maxAngle)
      = clamp (raw 0x00B40000) (raw ((onPin 9 0).chan 0).minAngle) (raw ((onPin 9 0).chan 0).maxAngle) ∧
    after (.detach 0) (onPin 9 0) (fun _ => true) = true ∧ after (.write 0 0) (onPin 9 0) (fun _ => true) = true ∧
    ((onPin 9 0).chan 1).pin = 0 ∧ (onPin 9 0).refcount 0 ≠ 0 :=
  ⟨sound_wide, by decide, by decide, by decide, by decide, by decide, by decide, by decide⟩

end Sys2Proof.Machine.Tests
end

section
/-! PROOFS. What reset leaves in the channel contexts and the attach counters (spec/10_state.md R38, R39). -/

namespace Sys2Proof.Machine

namespace State

/-- A reset event leaves every channel context at its reset value. -/
@[simp] theorem resetEvent_chan (s : State) (ch : Byte) : s.resetEvent.chan ch = resetChannel s.cfg := by
  rw [chan, resetEvent_chans, resetEvent_cfg, resetChannels, List.getD_eq_getElem?_getD,
    List.getElem?_getD_replicate_default_eq]

/-- Where the sixteen counters are zero, every unit id reads zero, one without a counter too (log 18). -/
theorem refcount_eq_zero {s : State} (h : s.refcnt = Vector.replicate 16 0) (u : Byte) : s.refcount u = 0 := by
  rw [refcount, h, Vector.getElem?_replicate]
  split
  · rfl
  · rfl

@[simp] theorem resetEvent_refcount (s : State) (u : Byte) : s.resetEvent.refcount u = 0 :=
  refcount_eq_zero s.resetEvent_refcnt u

@[simp] theorem resetIn_refcount (c : Config) (regs : Memory) (u : Byte) : (resetIn c regs).refcount u = 0 :=
  refcount_eq_zero rfl u

end State

/-- Settles O9: at `State.reset` the contexts are REFCFG's, read off the tables; after a reset event each context is the
configuration's `resetChannel` (R38) and each counter is zero (R39), whatever the state was. -/
theorem resetContextsAndCounters : Obligations.ResetContextsAndCounters := by
  refine ⟨⟨?_, fun u => ?_⟩, fun s _ => ⟨fun ch _ => ?_, fun u => ?_⟩⟩
  · rfl
  · exact State.resetIn_refcount refCfg [] u
  · exact State.resetEvent_chan s ch
  · exact State.resetEvent_refcount s u

end Sys2Proof.Machine
end

section
/-! PROOFS. LOOKUP, the pin map's one command (spec/40_pinmap.md R94). -/

namespace Sys2Proof

/-- Four bytes as the number they write in base 2^8 (30_encoding R71). -/
theorem fourBytes_eq_ofNat (a b c d : Byte) :
    fourBytes a b c d = BitVec.ofNat 32 (a.toNat * 2 ^ 24 + b.toNat * 2 ^ 16 + c.toNat * 2 ^ 8 + d.toNat) := by
  rw [← toNat_fourBytes, BitVec.ofNat_toNat, BitVec.setWidth_eq]

namespace Machine

/-- LOOKUP's data0 as a number: unit and compare register in the two low bytes (R94). -/
theorem lookupData0_eq_ofNat (b : Binding) :
    lookupData0 b = BitVec.ofNat 32 (b.unit.toNat * 2 ^ 8 + b.cmpReg.toNat) := by
  have h : lookupData0 b = fourBytes 0 0 b.unit b.cmpReg := rfl
  simp [h, fourBytes_eq_ofNat]

/-- LOOKUP's data1 as a number: the patch's register, mask and value in the three low bytes (R94). -/
theorem lookupData1_eq_ofNat (b : Binding) :
    lookupData1 b = BitVec.ofNat 32
      (b.patch.reg.toNat * 2 ^ 16 + b.patch.mask.toNat * 2 ^ 8 + b.patch.value.toNat) := by
  have h : lookupData1 b = fourBytes 0 b.patch.reg b.patch.mask b.patch.value := rfl
  simp [h, fourBytes_eq_ofNat]

theorem lookupResponse_of_none {c : Config} {pin : Byte} (h : lookup c pin = none) :
    lookupResponse c pin = unsupportedPin := by
  rw [lookupResponse, h]

theorem lookupResponse_of_some {c : Config} {pin : Byte} {b : Binding} (h : lookup c pin = some b) :
    lookupResponse c pin = okData (lookupData0 b) (lookupData1 b) := by
  rw [lookupResponse, h]

/-- With a quiet outside LOOKUP answers, and does nothing else (R94). -/
theorem exec_lookup_quiet {s : State} (h : s.Quiet) (pin : Byte) :
    exec (.lookup pin) s = .next (s.answer (lookupResponse s.cfg pin)) := by
  have hexec : exec (.lookup pin) s = finish (respond (lookupResponse s.cfg pin) s) := rfl
  rw [hexec, respond_quiet h, finish_ok]

/-- Settles O19: the word is `commandWord`'s row with `sel` the pin; the answer is `lookupResponse` in both cases of
`lookup`, its data words read as numbers. -/
theorem lookupAnswersTheBinding : Obligations.LookupAnswersTheBinding := by
  intro pin s hq
  refine ⟨?_, fun hnone => ?_, fun b hsome => ?_⟩
  · exact congrArg (fun w => [w]) (commandWord_sel .lookup pin)
  · rw [exec_lookup_quiet hq, lookupResponse_of_none hnone]
    rfl
  · rw [exec_lookup_quiet hq, lookupResponse_of_some hsome, lookupData0_eq_ofNat, lookupData1_eq_ofNat]
    rfl

end Machine
end Sys2Proof
end

section
/-! PROOFS. The converter's commands and integer functions (spec/42_converter.md R114 to R118). -/

namespace Sys2Proof.Machine

/-! The count (R116). -/

/-- The exact count of R116 is a quotient of natural numbers. -/
theorem fullCount_eq_natCast (c : Config) (u : UnitCfg) (us : Int) :
    fullCount c u us = ((u.cpmNum * (clamp us 0 maxPulse).toNat * c.calNum
      / (u.cpmDen * 65536 * 1000 * c.calDen) : Nat) : Int) := by
  have hk : 0 ≤ clamp us 0 maxPulse := (clamp_mem maxPulse_nonneg).1
  simp only [fullCount, Int.natCast_ediv, Nat.cast_mul, Nat.cast_ofNat, Int.toNat_of_nonneg hk]

/-- `Us2cntF` in natural numbers, with the pulse clamp written out (R116). -/
theorem us2cntF_eq (c : Config) (u : UnitCfg) (us : Int) :
    us2cntF c u us = (u.cpmNum * (max 0 (min us 0x4E200000)).toNat * c.calNum)
      / (u.cpmDen * 65536 * 1000 * c.calDen) % 2 ^ u.cntBits := by
  rw [us2cntF, fullCount_eq_natCast, Int.toNat_natCast, clamp_eq maxPulse_nonneg, maxPulse_eq]

theorem us2cntF_lt (c : Config) (u : UnitCfg) (us : Int) : us2cntF c u us < 2 ^ u.cntBits :=
  Nat.mod_lt _ (Nat.two_pow_pos _)

/-- A well-formed unit's count goes through a compare register's word unchanged (R117). -/
theorem toNat_countReg {c : Config} (hc : c.WellFormed) {u : UnitCfg} (hu : u ∈ c.units) (us : Int) :
    (countReg c u us).toNat = us2cntF c u us := by
  have hbits : u.cntBits ≤ 16 := by
    rcases unit_variant hc hu with ⟨-, hb, -⟩ | ⟨_, -, hb, -⟩ <;> simp [hb]
  have hlt : us2cntF c u us < 2 ^ 16 :=
    (us2cntF_lt c u us).trans_le (Nat.pow_le_pow_right Nat.two_pos hbits)
  rw [countReg, BitVec.toNat_ofNat, Nat.mod_eq_of_lt hlt]

/-! The pulse width (R114). -/

/-- A number scaled by a fraction between 0 and 1 and rounded down lies between 0 and itself. -/
theorem mul_ediv_mem {x k d : Int} (hd : 0 < d) (hk : 0 ≤ k) (hkd : k ≤ d) :
    min 0 x ≤ x * k / d ∧ x * k / d ≤ max 0 x := by
  rcases le_total 0 x with hx | hx
  · rw [min_eq_left hx, max_eq_right hx]
    exact ⟨Int.ediv_nonneg (mul_nonneg hx hk) hd.le, Int.ediv_le_of_le_mul hd (mul_le_mul_of_nonneg_left hkd hx)⟩
  · rw [min_eq_right hx, max_eq_left hx]
    refine ⟨(Int.le_ediv_iff_mul_le hd).2 (mul_le_mul_of_nonpos_left hkd hx), ?_⟩
    exact Int.ediv_le_of_le_mul hd (by simpa using mul_nonpos_of_nonpos_of_nonneg hx hk)

/-- `A2usF` lies between the two pulse widths, whichever is the larger (R114). -/
theorem a2usF_mem {lo hi : Int} (h : lo < hi) (a ulo uhi : Int) :
    min ulo uhi ≤ a2usF a lo hi ulo uhi ∧ a2usF a lo hi ulo uhi ≤ max ulo uhi := by
  obtain ⟨hlo, hhi⟩ := clamp_mem (x := a) h.le
  obtain ⟨h1, h2⟩ := mul_ediv_mem (x := uhi - ulo) (k := clamp a lo hi - lo) (d := hi - lo)
    (by omega) (by omega) (by omega)
  unfold a2usF
  omega

/-- `A2usF` clamps its angle, so clamping it before changes nothing (R119). -/
theorem a2usF_clamp {lo hi : Int} (h : lo < hi) (a ulo uhi : Int) :
    a2usF (clamp a lo hi) lo hi ulo uhi = a2usF a lo hi ulo uhi := by
  rw [a2usF, clamp_clamp h.le, a2usF]

/-- Between two words' pulse widths `A2usF` goes through a word unchanged (R115). -/
theorem raw_wordOf_a2usF {lo hi : Int} (h : lo < hi) (a : Int) (ulo uhi : Word) :
    raw (wordOf (a2usF a lo hi (raw ulo) (raw uhi))) = a2usF a lo hi (raw ulo) (raw uhi) := by
  obtain ⟨h1, h2⟩ := a2usF_mem h a (raw ulo) (raw uhi)
  have hulo := BitVec.le_toInt ulo
  have hulo' := BitVec.toInt_lt (x := ulo)
  have huhi := BitVec.le_toInt uhi
  have huhi' := BitVec.toInt_lt (x := uhi)
  refine raw_wordOf ?_ ?_ <;> simp only [raw] at * <;> omega

/-- Settles O26: the division is by a positive number, so rounding down is `Int.fdiv`; the bounds are `a2usF_mem`, and two
words' bounds leave it inside one word. -/
theorem pulseFitsTheWord : Obligations.PulseFitsTheWord := by
  intro a lo hi ulo uhi h
  obtain ⟨hmin, hmax⟩ := a2usF_mem h a (raw ulo) (raw uhi)
  refine ⟨?_, hmin, hmax, raw_wordOf_a2usF h a ulo uhi⟩
  rw [a2usF, clamp_eq h.le, Int.fdiv_eq_ediv_of_nonneg _ (by omega)]

/-! The two commands. -/

/-- With a quiet outside A2US under the contract answers the pulse width, and does nothing else (R115). -/
theorem exec_a2us_quiet {s : State} (hq : s.Quiet) (angle : Word) {lo hi : Word} (h : raw lo < raw hi) (ulo uhi : Word) :
    exec (.a2us angle lo hi ulo uhi) s =
      .next (s.answer (okData (wordOf (a2usF (raw angle) (raw lo) (raw hi) (raw ulo) (raw uhi))) 0)) := by
  have hdata : a2usData angle lo hi ulo uhi s =
      (wordOf (a2usF (raw angle) (raw lo) (raw hi) (raw ulo) (raw uhi)), s) := if_pos h
  have hexec : exec (.a2us angle lo hi ulo uhi) s = execA2us angle lo hi ulo uhi s := rfl
  rw [hexec, execA2us, hdata]
  dsimp only
  rw [respond_quiet hq, finish_ok]

/-- What A2US under the contract is seen to answer is the word of the pulse width. -/
theorem a2us_answer_eq {s r : State} (hq : s.Quiet) {angle lo hi ulo uhi x : Word} (h : raw lo < raw hi)
    (hexec : exec (.a2us angle lo hi ulo uhi) s = .next r) (hlog : r.log = s.log ++ [.respond (okData x 0)]) :
    x = wordOf (a2usF (raw angle) (raw lo) (raw hi) (raw ulo) (raw uhi)) := by
  rw [exec_a2us_quiet hq angle h] at hexec
  obtain rfl := Host.Outcome.next.inj hexec
  have hlast := List.append_cancel_left hlog
  simpa [okData] using hlast.symm

/-- With a quiet outside US2CNT of a unit answers its count, and does nothing else (R118). -/
theorem exec_us2cnt_quiet {s : State} (hq : s.Quiet) {unit : Byte} {u : UnitCfg} (hu : unitCfg? s.cfg unit = some u)
    (us : Word) :
    exec (.us2cnt unit us) s = .next (s.answer (okData (BitVec.ofNat 32 (us2cntF s.cfg u (raw us))) 0)) := by
  have hexec : exec (.us2cnt unit us) s = execUs2cnt unit us s := rfl
  rw [hexec, execUs2cnt, onUnit_legal hu, respond_quiet hq, finish_ok]

/-- With a quiet outside US2CNT of an id outside UNITS answers ILLEGAL_COMMAND (30_encoding R75 clause 4). -/
theorem exec_us2cnt_illegal {s : State} (hq : s.Quiet) {unit : Byte} (hu : unitCfg? s.cfg unit = none) (us : Word) :
    exec (.us2cnt unit us) s = .next (s.answer illegalCommand) := by
  have hexec : exec (.us2cnt unit us) s = execUs2cnt unit us s := rfl
  rw [hexec, execUs2cnt, onUnit_illegal hu, respond_quiet hq, finish_ok]

/-- Settles O22: the words are `commandWord`'s row with `sel` the unit; the answer is that of the unit's settings, if it has
any, and `us2cntF_eq` writes the count out. -/
theorem us2cntAnswersTheCount : Obligations.Us2cntAnswersTheCount := by
  intro unit us s hq
  refine ⟨?_, fun hnone => ?_, fun u hsome => ?_⟩
  · exact congrArg (fun w => [w, us]) (commandWord_sel .us2cnt unit)
  · exact exec_us2cnt_illegal hq hnone us
  · rw [exec_us2cnt_quiet hq hsome, us2cntF_eq]
    rfl

end Sys2Proof.Machine
end

section
/-! PROOFS. WRITE and WRITEUS with a quiet outside (spec/43_channel.md R135, R136), and the pipeline of
spec/42_converter.md R120. -/

namespace Sys2Proof.Machine

/-- The settings of a binding's unit are one of UNITS, and the bound compare register is that unit's. -/
theorem binding_unit_mem {c : Config} (hc : c.WellFormed) {pin : Byte} {b : Binding} (hb : lookup c pin = some b)
    {u : UnitCfg} (hu : unitCfg? c b.unit = some u) : u ∈ c.units ∧ b.cmpReg ∈ u.cmpRegs := by
  obtain ⟨v, hv, hmem, -, hcmp⟩ := lookup_unit hc hb
  obtain rfl : v = u := Option.some.inj (hv.symm.trans hu)
  exact ⟨hmem, hcmp⟩

/-- A bus write reads no channel context. -/
theorem wideAtomic_setChan (s : State) (ch : Byte) (x : Channel) (u : UnitCfg) (a : RegAddr) (v : Half) :
    (s.setChan ch x).wideAtomic u a v = (s.wideAtomic u a v).setChan ch x := by
  unfold State.wideAtomic
  split <;> rfl

@[simp] theorem answer_regs (s : State) (r : Response) : (s.answer r).regs = s.regs := rfl
@[simp] theorem answer_reg (s : State) (r : Response) (a : RegAddr) : (s.answer r).reg a = s.reg a := rfl
@[simp] theorem answer_log (s : State) (r : Response) : (s.answer r).log = s.log ++ [.respond r] := rfl

/-- The pulse width of a WRITE is that of its angle, clamped or not (42_converter R120). -/
theorem pulse_eq {x : Channel} (h : raw x.minAngle < raw x.maxAngle) (angle : Word) :
    x.pulse angle = a2usF (raw angle) (raw x.minAngle) (raw x.maxAngle) (raw x.minUs) (raw x.maxUs) :=
  a2usF_clamp h _ _ _

variable {s : State} {ch : Byte}

/-- An unattached channel's WRITE answers OK and does nothing else (R135). -/
theorem exec_write_unattached (hq : s.Quiet) (h : ch.toNat < s.cfg.nch) (hp : (s.chan ch).pin = 0) (angle : Word) :
    exec (.write ch angle) s = .next (s.answer okResponse) := by
  have hexec : exec (.write ch angle) s = execWrite ch angle s := rfl
  simp [hexec, execWrite, onChannel_legal h, Channel.attached, hp, respond_quiet hq]

/-- An unattached channel's WRITEUS answers OK and does nothing else (R136). -/
theorem exec_writeus_unattached (hq : s.Quiet) (h : ch.toNat < s.cfg.nch) (hp : (s.chan ch).pin = 0) (us : Word) :
    exec (.writeus ch us) s = .next (s.answer okResponse) := by
  have hexec : exec (.writeus ch us) s = execWriteus ch us s := rfl
  simp [hexec, execWriteus, onChannel_legal h, Channel.attached, hp, respond_quiet hq]

section Bound
variable {b : Binding} {u : UnitCfg} (hc : s.cfg.WellFormed) (hq : s.Quiet)
  (hb : lookup s.cfg (s.chan ch).pin = some b) (hu : unitCfg? s.cfg b.unit = some u)
include hc hq hb hu

/-- WRITE's effect on an attached channel under the contract: the context, then one compare write (R135). -/
theorem writeAngle_quiet (angle : Word) :
    writeAngle ch (s.chan ch) angle s =
      .ok ((s.setChan ch ((s.chan ch).written angle)).wideAtomic u b.cmpReg
        (countReg s.cfg u ((s.chan ch).pulse angle))) := by
  obtain ⟨hmem, hcmp⟩ := binding_unit_mem hc hb hu
  have hq' : (s.setChan ch ((s.chan ch).written angle)).Quiet := hq
  simp only [writeAngle, cmpWrite, boundTo_some (s := s.setChan ch _) hb, needUnit_some (s := s.setChan ch _) hu, ok_bind]
  exact wideWrite_quiet hq' hc hmem (.inr hcmp) _

/-- WRITEUS's effect on an attached channel: one compare write (R136). -/
theorem writePulse_quiet (us : Word) :
    writePulse (s.chan ch) us s = .ok (s.wideAtomic u b.cmpReg (countReg s.cfg u (raw us))) := by
  obtain ⟨hmem, hcmp⟩ := binding_unit_mem hc hb hu
  simp only [writePulse, cmpWrite, boundTo_some hb, needUnit_some hu, ok_bind]
  exact wideWrite_quiet hq hc hmem (.inr hcmp) _

/-- WRITE of an attached channel under the contract (R135). -/
theorem exec_write_bound (h : ch.toNat < s.cfg.nch) (hk : raw (s.chan ch).minAngle < raw (s.chan ch).maxAngle)
    (angle : Word) :
    exec (.write ch angle) s =
      .next (((s.setChan ch ((s.chan ch).written angle)).wideAtomic u b.cmpReg
        (countReg s.cfg u ((s.chan ch).pulse angle))).answer okResponse) := by
  have hexec : exec (.write ch angle) s = execWrite ch angle s := rfl
  have hatt : (s.chan ch).attached = true := bne_iff_ne.2 (lookup_ne_zero hc.2.1 hb)
  have hkept : (s.chan ch).contractKept = true := decide_eq_true hk
  rw [hexec, execWrite, onChannel_legal h, if_pos hatt, if_pos hkept, writeAngle_quiet hc hq hb hu, ok_bind]
  exact congrArg finish (respond_quiet (by simpa [State.Quiet] using hq) _)

/-- WRITEUS of an attached channel (R136). -/
theorem exec_writeus_bound (h : ch.toNat < s.cfg.nch) (us : Word) :
    exec (.writeus ch us) s =
      .next ((s.wideAtomic u b.cmpReg (countReg s.cfg u (raw us))).answer okResponse) := by
  have hexec : exec (.writeus ch us) s = execWriteus ch us s := rfl
  have hatt : (s.chan ch).attached = true := bne_iff_ne.2 (lookup_ne_zero hc.2.1 hb)
  rw [hexec, execWriteus, onChannel_legal h, if_pos hatt, writePulse_quiet hc hq hb hu, ok_bind]
  exact congrArg finish (respond_quiet (by simpa [State.Quiet] using hq) _)

end Bound

/-- After a compare write the register holds the count (R116, 40_pinmap R95). -/
theorem wideAtomic_count_reg (hc : s.cfg.WellFormed) {u : UnitCfg} (hu : u ∈ s.cfg.units) {a : RegAddr}
    (ha : a ∈ u.cmpRegs) (us : Int) :
    ((s.wideAtomic u a (countReg s.cfg u us)).reg a).toNat = us2cntF s.cfg u us := by
  rw [wideAtomic_reg_same hc hu (.inr ha), toNat_countReg hc hu, Nat.mod_eq_of_lt (us2cntF_lt _ _ _)]

/-- Settles O43: A2US answers the word of WRITE's pulse, which reads back unchanged (`raw_wordOf_a2usF`), so an attached
channel's WRITE and WRITEUS make the same compare write; an unattached channel's do nothing. -/
theorem writeIsWriteusOfA2us : Obligations.WriteIsWriteusOfA2us := by
  intro ch angle x s r t t' hc hI hq h hk ha2us hlog hwrite hwriteus
  have hx : raw x = a2usF (raw angle) (raw (s.chan ch).minAngle) (raw (s.chan ch).maxAngle)
      (raw (s.chan ch).minUs) (raw (s.chan ch).maxUs) := by
    rw [a2us_answer_eq hq hk ha2us hlog, raw_wordOf_a2usF hk]
  by_cases hp : (s.chan ch).pin = 0
  · rw [exec_write_unattached hq h hp] at hwrite
    rw [exec_writeus_unattached hq h hp] at hwriteus
    obtain rfl := Host.Outcome.next.inj hwrite
    obtain rfl := Host.Outcome.next.inj hwriteus
    exact ⟨rfl, rfl, fun b u hb _ => absurd hp (lookup_ne_zero hc.2.1 hb)⟩
  · obtain ⟨b, hb⟩ := bound_of_attached hI h hp
    obtain ⟨u, hu, hmem, -, hcmp⟩ := lookup_unit hc hb
    rw [exec_write_bound hc hq hb hu h hk, wideAtomic_setChan, pulse_eq hk] at hwrite
    rw [exec_writeus_bound hc hq hb hu h, hx] at hwriteus
    obtain rfl := Host.Outcome.next.inj hwrite
    obtain rfl := Host.Outcome.next.inj hwriteus
    refine ⟨rfl, rfl, fun b' u' hb' hu' => ?_⟩
    obtain rfl : b = b' := Option.some.inj (hb.symm.trans hb')
    obtain rfl : u = u' := Option.some.inj (hu.symm.trans hu')
    rw [answer_reg, State.setChan_reg, wideAtomic_count_reg hc hmem hcmp]

end Sys2Proof.Machine
end

section
/-! PROOFS. ATTACHED with a quiet outside (spec/43_channel.md R138). -/

namespace Sys2Proof.Machine

/-- With a quiet outside ATTACHED of an existing channel answers whether it is bound, and does nothing else (R138). -/
theorem exec_attached_quiet {s : State} (hq : s.Quiet) {ch : Byte} (h : ch.toNat < s.cfg.nch) :
    exec (.attached ch) s = .next (s.answer (okData (s.chan ch).attachedData 0)) := by
  have hexec : exec (.attached ch) s = execAttached ch s := rfl
  rw [hexec, execAttached, onChannel_legal h, respond_quiet hq, finish_ok]

/-- ATTACHED's data reads PIN (R138). -/
theorem attachedData_eq (x : Channel) : x.attachedData = if x.pin ≠ 0 then 1 else 0 := by
  simp [Channel.attachedData, Channel.attached]

/-- Settles O24: the word is `commandWord`'s row with `ch` the channel; the answer is `attachedData`, which reads PIN. -/
theorem attachedAnswersTheBinding : Obligations.AttachedAnswersTheBinding := by
  intro ch s hq h
  refine ⟨?_, ?_⟩
  · exact congrArg (fun w => [w]) (commandWord_ch .attached ch)
  · rw [exec_attached_quiet hq h, attachedData_eq]
    rfl

end Sys2Proof.Machine
end

section
/-! PROOFS. WRITEUS with a quiet outside (spec/43_channel.md R136). -/

namespace Sys2Proof.Machine

/-- A unit with a latch is a narrow one, whose registers have ten bits (00_scope R8 clause 7). -/
theorem cntBits_of_latch {c : Config} (hc : c.WellFormed) {u : UnitCfg} (hu : u ∈ c.units) {h : RegAddr}
    (hl : u.hlatch = some h) : u.cntBits = 10 := by
  rcases unit_variant hc hu with ⟨-, -, hnone⟩ | ⟨-, -, hbits, -⟩
  · simp [hnone] at hl
  · exact hbits

section CompareWrite
variable {s : State} (hc : s.cfg.WellFormed) {u : UnitCfg} (hu : u ∈ s.cfg.units) {a : RegAddr}
include hc hu

/-- After a compare write a narrow unit's latch holds the count's high bits (20_memory R54, 40_pinmap R95). -/
theorem wideAtomic_count_latch (ha : a ∈ u.cmpRegs) {h : RegAddr} (hl : u.hlatch = some h) (us : Int) :
    ((s.wideAtomic u a (countReg s.cfg u us)).reg h).toNat = us2cntF s.cfg u us / 2 ^ 8 := by
  have hlt := us2cntF_lt s.cfg u us
  rw [cntBits_of_latch hc hu hl] at hlt
  rw [wideAtomic_reg_latch hc hu (.inr ha) hl, toNat_countReg hc hu, Nat.mod_eq_of_lt (by omega)]

/-- What a compare write adds to the history (20_memory R57, R66). -/
theorem wideAtomic_count_log (us : Int) :
    (s.wideAtomic u a (countReg s.cfg u us)).log = s.log ++ [Event.compareWrite u a (us2cntF s.cfg u us)] := by
  have hcount := toNat_countReg hc hu us
  rw [wideAtomic_log_compare hc hu a _ (hcount ▸ us2cntF_lt s.cfg u us), hcount]

end CompareWrite

/-- Settles O41: the words are `commandWord`'s row with `ch` the channel; an unattached channel's WRITEUS only answers; an
attached one's is one compare write of the count, whose effect on registers and history is that of `wideAtomic`. -/
theorem writeusSetsThePulse : Obligations.WriteusSetsThePulse := by
  refine ⟨fun ch us => ?_, fun ch us s hq h hp => ?_, fun ch us b u s hc hq h hb hu => ?_⟩
  · exact congrArg (fun w => [w, us]) (commandWord_ch .writeus ch)
  · exact exec_writeus_unattached hq h hp us
  · obtain ⟨hmem, hcmp⟩ := binding_unit_mem hc hb hu
    obtain ⟨hchans, hrefcnt, hcfg, hcpc, hfree⟩ := wideAtomic_core s u b.cmpReg (countReg s.cfg u (raw us))
    refine ⟨_, exec_writeus_bound hc hq hb hu h us, hchans, hrefcnt, wideAtomic_count_reg hc hmem hcmp _,
      fun l hl => wideAtomic_count_latch hc hmem hcmp hl _, fun a ha hl => wideAtomic_reg_other s ha hl _, ?_,
      hcfg, wideAtomic_stream s u _ _, hcpc, hfree⟩
    rw [answer_log, wideAtomic_count_log hc hmem, List.append_assoc]
    rfl

end Sys2Proof.Machine
end

section
/-! PROOFS. DETACH of an attached channel with a quiet outside (spec/43_channel.md R130, R134). -/

namespace Sys2Proof.Machine

@[simp] theorem unbind_reg (ch : Byte) (b : Binding) (s : State) (a : RegAddr) : (unbind ch b s).reg a = s.reg a := rfl
@[simp] theorem unbind_log (ch : Byte) (b : Binding) (s : State) : (unbind ch b s).log = s.log := rfl
@[simp] theorem answer_chan (s : State) (r : Response) (ch : Byte) : (s.answer r).chan ch = s.chan ch := rfl
@[simp] theorem answer_refcount (s : State) (r : Response) (u : Byte) : (s.answer r).refcount u = s.refcount u := rfl

/-- The state in which `DetachCore` unbinds: the compare register written zero, the pin requested as input (R130). -/
def released (s : State) (pin : Byte) (u : UnitCfg) (b : Binding) : State :=
  (s.wideAtomic u b.cmpReg 0).emit (.gpioDir pin .input)

section Released
variable (s : State) (pin : Byte) (u : UnitCfg) (b : Binding)

/-- Releasing a pin touches registers and history only. -/
theorem released_core : SameCore s (released s pin u b) := wideAtomic_core s u b.cmpReg 0

theorem released_stream : (released s pin u b).stream = s.stream := wideAtomic_stream s u b.cmpReg 0

variable {s pin u b}

theorem released_inv (hI : s.Inv) : (released s pin u b).Inv := emit_inv (wideAtomic_inv hI u b.cmpReg 0) _

/-- Releasing a pin leaves every register but the compare register and the unit's latch (R130). -/
theorem released_reg_other {a : RegAddr} (ha : a ≠ b.cmpReg) (hl : u.hlatch ≠ some a) :
    (released s pin u b).reg a = s.reg a :=
  wideAtomic_reg_other s ha hl 0

variable (hc : s.cfg.WellFormed) (hu : u ∈ s.cfg.units)
include hc hu

theorem released_cmpReg (hcmp : b.cmpReg ∈ u.cmpRegs) : (released s pin u b).reg b.cmpReg = 0 :=
  BitVec.eq_of_toNat_eq ((wideAtomic_reg_same hc hu (.inr hcmp) 0).trans (Nat.zero_mod _))

theorem released_latch (hcmp : b.cmpReg ∈ u.cmpRegs) {h : RegAddr} (hl : u.hlatch = some h) :
    (released s pin u b).reg h = 0 :=
  BitVec.eq_of_toNat_eq (wideAtomic_reg_latch hc hu (.inr hcmp) hl 0)

/-- The history of a release: one compare write of zero, then the input request (R130, 20_memory R66). -/
theorem released_log :
    (released s pin u b).log = s.log ++ [Event.compareWrite u b.cmpReg 0, .gpioDir pin .input] := by
  have hzero := wideAtomic_log_compare hc hu b.cmpReg 0 (Nat.two_pow_pos u.cntBits)
  rw [released, State.emit_log, hzero, List.append_assoc]
  rfl

end Released

section Bound
variable {s : State} {ch : Byte} {b : Binding} {u : UnitCfg} (hc : s.cfg.WellFormed) (hq : s.Quiet)
  (hb : lookup s.cfg (s.chan ch).pin = some b) (hu : unitCfg? s.cfg b.unit = some u)

include hb hu in
/-- `DetachCore` of a bound channel: its pin released, then the channel unbound (R130). -/
theorem detachAtomic_bound : s.detachAtomic ch = unbind ch b (released s (s.chan ch).pin u b) := by
  simp only [State.detachAtomic, State.onBinding, hb, hu, released]

include hc hq hb in
/-- With a quiet outside DETACH of an attached channel is `DetachCore` and the answer OK (R134). -/
theorem exec_detach_bound (h : ch.toNat < s.cfg.nch) :
    exec (.detach ch) s = .next ((s.detachAtomic ch).answer okResponse) := by
  have hexec : exec (.detach ch) s = execDetach ch s := rfl
  have hatt : (s.chan ch).attached = true := bne_iff_ne.2 (lookup_ne_zero hc.2.1 hb)
  rw [hexec, execDetach, onChannel_legal h, if_pos hatt, detachCore_quiet hq hc hb, ok_bind]
  exact congrArg finish (respond_quiet (by simpa [State.Quiet] using hq) _)

end Bound

/-- Settles O38: DETACH is the release of the pin, the unbinding and the answer; contexts and counters are what `unbind`
makes of them, registers and history what the release does. -/
theorem detachReleasesTheChannel : Obligations.DetachReleasesTheChannel := by
  intro ch b u s hc hI hq h hb hu
  obtain ⟨hmem, hcmp⟩ := binding_unit_mem hc hb hu
  have hcore := released_core s (s.chan ch).pin u b
  have hchan := hcore.chan
  have hcount := hcore.refcount
  obtain ⟨hchans, -, hcfg, hcpc, hfree⟩ := hcore
  have hexec := exec_detach_bound hc hq hb h
  rw [detachAtomic_bound hb hu] at hexec
  refine ⟨_, hexec, ?_, fun c hne => ?_, ?_, fun x hne => ?_, ?_, fun l hl => ?_, fun a ha hl => ?_, ?_,
    hcfg, released_stream s (s.chan ch).pin u b, hcpc, hfree⟩
  · have hlen : ch.toNat < (released s (s.chan ch).pin u b).chans.length := by rwa [hchans, hI.1]
    rw [answer_chan, unbind_chan_same hlen, hchan]
  · rw [answer_chan, unbind_chan_other hne, hchan]
  · rw [answer_refcount, unbind_refcount_same (by rwa [hcfg]) (released_inv hI) (by rwa [hcfg])
      (by rwa [hcfg, hchan]), hcount]
  · rw [answer_refcount, unbind_refcount_other hne, hcount]
  · rw [answer_reg, unbind_reg, released_cmpReg hc hmem hcmp]
  · rw [answer_reg, unbind_reg, released_latch hc hmem hcmp hl]
  · rw [answer_reg, unbind_reg, released_reg_other ha hl]
  · rw [answer_log, unbind_log, released_log hc hmem, List.append_assoc]
    rfl

end Sys2Proof.Machine
end

section
/-! PROOFS. The corner cases of spec/70_reset_and_hazards.md: an attach to a pin that is not supported (R189), and the writes
of an unattached channel (R190). -/

namespace Sys2Proof.Machine

variable {s : State} {ch pin : Byte}

/-- `DetachCore` has nothing to do for an unattached channel: pin 0 has no binding (00_scope R8 clause 1). -/
theorem detachAtomic_unattached (hc : s.cfg.WellFormed) (hp : (s.chan ch).pin = 0) : s.detachAtomic ch = s := by
  have hnone : lookup s.cfg (s.chan ch).pin = none :=
    Option.eq_none_iff_forall_ne_some.2 fun _ hb => lookup_ne_zero hc.2.1 hb hp
  rw [State.detachAtomic, State.onBinding, hnone]

/-- In a sound state both attach commands of an existing channel are `AttachCore`, with some calibration (R132, R133). -/
theorem exec_attach_quiet (hc : s.cfg.WellFormed) (hI : s.Inv) (hq : s.Quiet) (h : ch.toNat < s.cfg.nch) {i : Instr}
    (hcmd : i = .attach ch pin ∨ ∃ lo hi ulo uhi, i = .attachx ch pin lo hi ulo uhi) :
    ∃ k, exec i s = .next (s.attachAtomic ch pin k) := by
  rcases hcmd with rfl | ⟨lo, hi, ulo, uhi, rfl⟩
  · have hexec : exec (.attach ch pin) s = execAttach ch pin s := rfl
    exact ⟨_, by rw [hexec, execAttach, onChannel_legal h, attachCore_quiet hc hI hq h, finish_ok]⟩
  · have hexec : exec (.attachx ch pin lo hi ulo uhi) s = execAttachx ch pin lo hi ulo uhi s := rfl
    exact ⟨_, by rw [hexec, execAttachx, onChannel_legal h, attachCore_quiet hc hI hq h, finish_ok]⟩

/-- `AttachCore` for a pin without a binding is `DetachCore` and the answer UNSUPPORTED_PIN (R131 steps 1 and 2): an attached
channel is on a supported pin, so it is attached elsewhere. -/
theorem attachAtomic_unsupported (hc : s.cfg.WellFormed) (hI : s.Inv) (h : ch.toNat < s.cfg.nch)
    (hnone : lookup s.cfg pin = none) (k : Calibration) :
    s.attachAtomic ch pin k = (s.detachAtomic ch).answer unsupportedPin := by
  have hdetach : (if (s.chan ch).attachedElsewhere pin then s.detachAtomic ch else s) = s.detachAtomic ch := by
    by_cases hp : (s.chan ch).pin = 0
    · rw [detachAtomic_unattached hc hp, ite_self]
    · obtain ⟨b, hb⟩ := bound_of_attached hI h hp
      have hne : (s.chan ch).pin ≠ pin := fun e => by simp [e, hnone] at hb
      exact if_pos ((attachedElsewhere_iff _ _).2 ⟨hp, hne⟩)
  simp only [State.attachAtomic, hdetach, detachAtomic_cfg, hnone]

/-- Settles O34: the attach is `DetachCore` and the answer. An unattached channel has nothing to detach; for an attached one
`DetachCore` does to contexts, counters and registers what DETACH does (O38), and the history is that of the release. -/
theorem attachToUnsupportedPin : Obligations.AttachToUnsupportedPin := by
  intro ch pin i s hc hI hq h hnone hcmd
  obtain ⟨k, hexec⟩ := exec_attach_quiet hc hI hq h hcmd
  rw [attachAtomic_unsupported hc hI h hnone] at hexec
  refine ⟨_, hexec, ?_⟩
  by_cases hp : (s.chan ch).pin = 0
  · rw [detachAtomic_unattached hc hp, answer_chan]
    refine ⟨?_, fun c _ => rfl, fun _ => rfl, fun b u hb _ => absurd hp (lookup_ne_zero hc.2.1 hb)⟩
    rw [← hp]
  · obtain ⟨b, hb⟩ := bound_of_attached hI h hp
    obtain ⟨u, hu, hmem, -, -⟩ := lookup_unit hc hb
    obtain ⟨t, hdetach, hchan, hothers, hcount, hcounts, hcmp, hlatch, hregs, -, hframe⟩ :=
      detachReleasesTheChannel ch b u s hc hI hq h hb hu
    rw [exec_detach_bound hc hq hb h] at hdetach
    obtain rfl := Host.Outcome.next.inj hdetach
    refine ⟨hchan, hothers, fun h0 => absurd h0 hp, fun b' u' hb' hu' => ?_⟩
    obtain rfl : b = b' := Option.some.inj (hb.symm.trans hb')
    obtain rfl : u = u' := Option.some.inj (hu.symm.trans hu')
    refine ⟨hcmp, hlatch, hregs, hcount, hcounts, ?_, hframe⟩
    rw [answer_log, detachAtomic_bound hb hu, unbind_log, released_log hc hmem, List.append_assoc]
    rfl

/-- Settles O42: both commands skip their effect on an unattached channel and only answer. -/
theorem unattachedWritesAreNoOps : Obligations.UnattachedWritesAreNoOps := by
  intro ch x i s hq h hp hcmd
  rcases hcmd with rfl | rfl
  · exact exec_write_unattached hq h hp x
  · exact exec_writeus_unattached hq h hp x

end Sys2Proof.Machine
end

section
/-! PROOFS. Decoding and encoding are inverse, row by row of the opcode map (spec/30_encoding.md R71 to R78), and the
assembler's lines (R79 to R82). -/

namespace Sys2Proof

/-! A command's words by its row. -/

/-- A word built from a row's opcode and from fields that the row admits matches the row. -/
theorem commandWord_matches {op : Op} {ch sel : Byte} (hch : ch &&& op.chMask = 0) (hsel : sel &&& op.selMask = 0) :
    commandWord op ch sel &&& op.mask = op.pattern := by
  rw [matches_row, commandWord_eq, opcodeField_fourBytes, chField_fourBytes, selField_fourBytes, rsvField_fourBytes]
  exact ⟨rfl, hch, hsel, rfl⟩

/-- A word that matches a row is the row's command word of its own fields. -/
theorem eq_commandWord {op : Op} {w : Word} (h : w &&& op.mask = op.pattern) :
    w = commandWord op (chField w) (selField w) := by
  obtain ⟨hop, -, -, hrsv⟩ := (matches_row op w).1 h
  conv => lhs; rw [word_eq_fields w, hop, hrsv]
  exact (commandWord_eq op _ _).symm

/-- The command of a row, from the two fields of its word. -/
theorem buildInstr_commandWord (op : Op) (ch sel : Byte) (opnd : Nat → Word) :
    buildInstr op (commandWord op ch sel) opnd =
      match op with
      | .lookup => .lookup sel
      | .configure => .configure sel
      | .a2us => .a2us (opnd 0) (opnd 1) (opnd 2) (opnd 3) (opnd 4)
      | .us2cnt => .us2cnt sel (opnd 0)
      | .attach => .attach ch sel
      | .attachx => .attachx ch sel (opnd 0) (opnd 1) (opnd 2) (opnd 3)
      | .detach => .detach ch
      | .write => .write ch (opnd 0)
      | .writeus => .writeus ch (opnd 0)
      | .read => .read ch
      | .attached => .attached ch := by
  rw [commandWord_eq]
  cases op <;> simp only [buildInstr, chField_fourBytes, selField_fourBytes]

/-- Every command is written as its row's command word, with fields the row admits, and the row's operand words; read with
whatever follows, these give the command back. -/
theorem encode_row (i : Instr) : ∃ (op : Op) (ch sel : Byte) (ops : List Word),
    encode i = commandWord op ch sel :: ops ∧ ops.length = op.nops ∧ ch &&& op.chMask = 0 ∧ sel &&& op.selMask = 0 ∧
    ∀ rest, buildInstr op (commandWord op ch sel) (fun k => (ops ++ rest).getD k 0) = i := by
  have hzero : ∀ b : Byte, b &&& 0 = 0 := fun b => BitVec.and_zero
  cases i with
  | lookup pin => exact ⟨.lookup, 0, pin, [], rfl, rfl, rfl, hzero _, fun _ => buildInstr_commandWord ..⟩
  | configure u => exact ⟨.configure, 0, u, [], rfl, rfl, rfl, hzero _, fun _ => buildInstr_commandWord ..⟩
  | a2us a lo hi ulo uhi =>
    exact ⟨.a2us, 0, 0, [a, lo, hi, ulo, uhi], rfl, rfl, rfl, rfl, fun _ => buildInstr_commandWord ..⟩
  | us2cnt u us => exact ⟨.us2cnt, 0, u, [us], rfl, rfl, rfl, hzero _, fun _ => buildInstr_commandWord ..⟩
  | attach ch pin => exact ⟨.attach, ch, pin, [], rfl, rfl, hzero _, hzero _, fun _ => buildInstr_commandWord ..⟩
  | attachx ch pin lo hi ulo uhi =>
    exact ⟨.attachx, ch, pin, [lo, hi, ulo, uhi], rfl, rfl, hzero _, hzero _, fun _ => buildInstr_commandWord ..⟩
  | detach ch => exact ⟨.detach, ch, 0, [], rfl, rfl, hzero _, rfl, fun _ => buildInstr_commandWord ..⟩
  | write ch a => exact ⟨.write, ch, 0, [a], rfl, rfl, hzero _, rfl, fun _ => buildInstr_commandWord ..⟩
  | writeus ch us => exact ⟨.writeus, ch, 0, [us], rfl, rfl, hzero _, rfl, fun _ => buildInstr_commandWord ..⟩
  | read ch => exact ⟨.read, ch, 0, [], rfl, rfl, hzero _, rfl, fun _ => buildInstr_commandWord ..⟩
  | attached ch => exact ⟨.attached, ch, 0, [], rfl, rfl, hzero _, rfl, fun _ => buildInstr_commandWord ..⟩

/-- Settles O1: a command is its row's word and operand words (`encode_row`), which the decoder reads by `decode_row`. -/
theorem decodeEncodeRoundTrip : Obligations.DecodeEncodeRoundTrip := by
  intro i rest
  obtain ⟨op, ch, sel, ops, henc, hlen, hch, hsel, hbuild⟩ := encode_row i
  have hwords : (encode i).length = 1 + op.nops := by rw [henc, List.length_cons, hlen, Nat.add_comm]
  rw [hwords, henc, List.cons_append,
    decode_row op _ (ops ++ rest) (commandWord_matches hch hsel) (by simp [hlen]), hbuild]

/-- A word that matches a row, and that row's operands, are the encoding of the command they stand for. -/
theorem encode_buildInstr {op : Op} {w : Word} (h : w &&& op.mask = op.pattern) (opnd : Nat → Word) :
    encode (buildInstr op w opnd) = w :: (List.range op.nops).map opnd := by
  have hall : ∀ b : Byte, b &&& 0xFF = 0 → b = 0 := by decide
  obtain ⟨-, hch, hsel, -⟩ := (matches_row op w).1 h
  conv => rhs; rw [eq_commandWord h]
  cases op with
  | lookup | configure | us2cnt => rw [hall _ hch]; rfl
  | a2us => rw [hall _ hch, hall _ hsel]; rfl
  | detach | write | writeus | read | attached => rw [hall _ hsel]; rfl
  | attach | attachx => rfl

/-- The words at the front of a list, read one by one. -/
theorem take_eq_map_getD {n : Nat} {ws : List Word} (h : n ≤ ws.length) :
    ws.take n = (List.range n).map fun k => ws.getD k 0 := by
  refine List.ext_getElem (by simpa using h) fun k h1 h2 => ?_
  have hk : k < ws.length := by simp at h1; omega
  simp [List.getD_eq_getElem?_getD, hk]

/-- Settles O2: the decoder reads a row's word and operand words (`decode_instr_inv`), and those are the encoding of the
command they stand for. -/
theorem decodedWordsAreTheEncoding : Obligations.DecodedWordsAreTheEncoding := by
  intro ws i n h
  obtain ⟨op, w, rest, rfl, hmatch, hlen, rfl, rfl⟩ := decode_instr_inv h
  rw [encode_buildInstr hmatch, Nat.add_comm 1, List.take_succ_cons, take_eq_map_getD hlen]
  exact ⟨rfl, by simp⟩

/-! The rows. -/

/-- Settles O4: a word that matches a row has the row's opcode, and an opcode selects one row. -/
theorem opcodeRowsUnambiguous : Obligations.OpcodeRowsUnambiguous := by
  have hcode : ∀ {w : Word} {op : Op}, w &&& op.mask = op.pattern → Op.ofCode (opcodeField w) = some op := by
    intro w op h
    rw [((matches_row op w).1 h).1, Op.ofCode_code]
  refine ⟨fun w p q hp hq => ?_, fun w p hnone hp => ?_⟩
  · exact Option.some.inj ((hcode hp).symm.trans (hcode hq))
  · rw [hcode hp] at hnone
    cases hnone

/-- Settles O5: each clause is one branch of the decoder, taken by the opcode's row (`ofCode_none`, `ofCode_code`). -/
theorem wordsThatAreNoCommand : Obligations.WordsThatAreNoCommand := by
  refine ⟨rfl, fun w rest hno => ?_, fun op w rest hop => ⟨fun hshort => ?_, fun hlen hbad => ?_⟩⟩
  · simp [decode, Op.ofCode_none hno]
  · simp [decode, hop, Op.ofCode_code, hshort]
  · simp [decode, hop, Op.ofCode_code, Nat.not_lt.2 hlen, hbad]

/-- Settles O3: each clause is a run of the assembler, the encoder or the decoder on the words of R82. -/
theorem workedEncodings : Obligations.WorkedEncodings := by
  unfold Obligations.WorkedEncodings
  decide

namespace Machine

/-! The assembler. -/

/-- A byte field reads back the byte (R79). -/
theorem asmByte_byteField (b : Byte) : asmByte (byteField b) = some b := by
  simp [asmByte, byteField, b.isLt]

/-- A mnemonic names its row. -/
theorem find_mnemonicOf (op : Op) : (Op.all.find? fun o => mnemonicOf o == mnemonicOf op) = some op := by
  cases op <;> decide

/-- A line with a row's mnemonic is read by that row. -/
theorem assemble_mnemonicOf (op : Op) (fields : List AsmField) :
    assemble ⟨mnemonicOf op, fields⟩ = assembleOp op fields := by
  simp [assemble, find_mnemonicOf]

/-- Settles O6: a command's line has its row's mnemonic, and the row reads each field back. -/
theorem assembleReadsEveryLine : Obligations.AssembleReadsEveryLine := by
  intro i
  cases i with
  | lookup pin => exact (assemble_mnemonicOf .lookup _).trans (by simp [assembleOp, asmByte_byteField])
  | configure u => exact (assemble_mnemonicOf .configure _).trans (by simp [assembleOp, asmByte_byteField])
  | a2us a lo hi ulo uhi => exact assemble_mnemonicOf .a2us _
  | us2cnt u us => exact (assemble_mnemonicOf .us2cnt _).trans (by simp [assembleOp, asmByte_byteField, asmOperand])
  | attach ch pin => exact (assemble_mnemonicOf .attach _).trans (by simp [assembleOp, asmByte_byteField])
  | attachx ch pin lo hi ulo uhi =>
    exact (assemble_mnemonicOf .attachx _).trans (by simp [assembleOp, asmByte_byteField, asmOperand])
  | detach ch => exact (assemble_mnemonicOf .detach _).trans (by simp [assembleOp, asmByte_byteField])
  | write ch a => exact (assemble_mnemonicOf .write _).trans (by simp [assembleOp, asmByte_byteField, asmOperand])
  | writeus ch us => exact (assemble_mnemonicOf .writeus _).trans (by simp [assembleOp, asmByte_byteField, asmOperand])
  | read ch => exact (assemble_mnemonicOf .read _).trans (by simp [assembleOp, asmByte_byteField])
  | attached ch => exact (assemble_mnemonicOf .attached _).trans (by simp [assembleOp, asmByte_byteField])

end Machine
end Sys2Proof
end

section
/-! PROOFS. The reference configuration, pin 0, and the state after reset (spec/00_scope.md R7, R8, spec/40_pinmap.md R91 to
R93, spec/10_state.md R38 to R41). -/

namespace Sys2Proof.Machine

/-! REFCFG. -/

theorem refCfg_wellFormed : refCfg.WellFormed := by decide

theorem refCfgAlternate_wellFormed : refCfgAlternate.WellFormed := by decide

/-- Settles O7: REFCFG is a closed table, and so is the list of its units. -/
theorem refCfgWellFormed : Obligations.RefCfgWellFormed :=
  ⟨refCfg_wellFormed, refCfgAlternate_wellFormed, by decide⟩

/-- Settles O8: both tables searched for a pin id that is compared with the six ids in turn. -/
theorem refCfgBindings : Obligations.RefCfgBindings := by
  unfold Obligations.RefCfgBindings
  decide

/-! Pin 0 and reset. -/

/-- Settles O11: a pin with a binding is not 0 (00_scope R8 clause 1). -/
theorem pinZeroUnsupported : Obligations.PinZeroUnsupported := fun _ hc =>
  Option.eq_none_iff_forall_ne_some.2 fun _ hb => lookup_ne_zero hc.2.1 hb rfl

/-- Reset contexts are unattached, so with zero counters the invariant asks only that the registers fit (R38 to R41). -/
theorem resetIn_inv {c : Config} {regs : Memory} (hwf : regs.wf) (hfit : (State.resetIn c regs).RegistersFit) :
    (State.resetIn c regs).Inv := by
  refine ⟨by simp [State.ChannelsSized, State.resetIn, resetChannels], fun x hx => .inl ?_,
    countersExact_of fun u _ => ?_, hwf, hfit⟩
  · obtain ⟨-, rfl⟩ := List.mem_replicate.1 hx
    rfl
  · have hfree : State.Attached c u (resetChannel c) = false := rfl
    rw [State.resetIn_refcount]
    simp [State.attachedTo, State.resetIn, resetChannels, List.countP_replicate, hfree]

/-- Settles O10: `State.reset` is the reset state of REFCFG with no register listed. -/
theorem resetSatisfiesInv : Obligations.ResetSatisfiesInv :=
  ⟨resetIn_inv (by decide) (by decide), fun _ _ => resetIn_inv⟩

end Sys2Proof.Machine
end

section
/-! PROOFS. The converter's two functions and A2US (spec/42_converter.md R113 to R119). -/

namespace Sys2Proof.Machine

/-! A2US. -/

/-- Settles O20: A2US answers `a2usF` (`exec_a2us_quiet`), whose division is by a positive number, so it is `Int.fdiv`. -/
theorem a2usAnswersThePulse : Obligations.A2usAnswersThePulse := by
  intro angle lo hi ulo uhi s hq h
  have hlt : raw lo < raw hi := h
  rw [exec_a2us_quiet hq angle hlt, (pulseFitsTheWord (raw angle) lo hi ulo uhi hlt).1]
  rfl

/-- With a quiet outside A2US under a violated contract answers a free value (R113). -/
theorem exec_a2us_violated {s : State} (hq : s.Quiet) (angle : Word) {lo hi : Word} (h : ¬ raw lo < raw hi)
    (ulo uhi : Word) :
    exec (.a2us angle lo hi ulo uhi) s = .next (s.takeFree.answer (okData (Config.freePulse s.free) 0)) := by
  have hdata : a2usData angle lo hi ulo uhi s = (Config.freePulse s.free, s.takeFree) := if_neg h
  have hexec : exec (.a2us angle lo hi ulo uhi) s = execA2us angle lo hi ulo uhi s := rfl
  have hq' : s.takeFree.Quiet := hq
  rw [hexec, execA2us, hdata]
  dsimp only
  rw [respond_quiet hq', finish_ok]

/-- Settles O21: the answer is a free value, and the contract is the one that `strictExec` tests. -/
theorem a2usOutsideTheContract : Obligations.A2usOutsideTheContract := by
  intro angle lo hi ulo uhi s hq h
  have hnot : ¬ raw lo < raw hi := not_lt.2 h
  exact ⟨_, exec_a2us_violated hq angle hnot ulo uhi, strictExec_broken (decide_eq_false hnot)⟩

/-! The two functions. -/

theorem a2usF_lo {lo hi : Int} (h : lo < hi) (ulo uhi : Int) : a2usF lo lo hi ulo uhi = ulo := by
  have hc : clamp lo lo hi = lo := by rw [clamp_eq h.le]; omega
  simp [a2usF, hc]

theorem a2usF_hi {lo hi : Int} (h : lo < hi) (ulo uhi : Int) : a2usF hi lo hi ulo uhi = uhi := by
  have hc : clamp hi lo hi = hi := by rw [clamp_eq h.le]; omega
  rw [a2usF, hc, Int.mul_ediv_cancel _ (by omega)]
  omega

/-- `A2usF` follows the angle upwards when the pulse widths rise (R119). -/
theorem a2usF_mono {lo hi ulo uhi a a' : Int} (h : lo < hi) (hu : ulo ≤ uhi) (ha : a ≤ a') :
    a2usF a lo hi ulo uhi ≤ a2usF a' lo hi ulo uhi := by
  have hc := clamp_mono h.le ha
  have hmul : (uhi - ulo) * (clamp a lo hi - lo) ≤ (uhi - ulo) * (clamp a' lo hi - lo) :=
    mul_le_mul_of_nonneg_left (by omega) (by omega)
  exact Int.add_le_add_left (Int.ediv_le_ediv (by omega) hmul) ulo

/-- `A2usF` follows the angle downwards when the pulse widths fall (R119). -/
theorem a2usF_anti {lo hi ulo uhi a a' : Int} (h : lo < hi) (hu : uhi ≤ ulo) (ha : a ≤ a') :
    a2usF a' lo hi ulo uhi ≤ a2usF a lo hi ulo uhi := by
  have hc := clamp_mono h.le ha
  have hmul : (uhi - ulo) * (clamp a' lo hi - lo) ≤ (uhi - ulo) * (clamp a lo hi - lo) :=
    mul_le_mul_of_nonpos_left (by omega) (by omega)
  exact Int.add_le_add_left (Int.ediv_le_ediv (by omega) hmul) ulo

variable (c : Config) (u : UnitCfg)

theorem us2cntF_clamp (us : Int) : us2cntF c u (clamp us 0 maxPulse) = us2cntF c u us := by
  rw [us2cntF, fullCount, clamp_clamp maxPulse_nonneg, us2cntF, fullCount]

theorem us2cntF_of_nonpos {us : Int} (h : us ≤ 0) : us2cntF c u us = 0 := by
  have hc : clamp us 0 maxPulse = 0 := by rw [clamp_eq maxPulse_nonneg, maxPulse_eq]; omega
  simp [us2cntF, fullCount, hc]

variable {c u}

/-- A count that fits the register is not reduced (R117). -/
theorem us2cntF_eq_fullCount {us : Int} (h : fullCount c u us < 2 ^ u.cntBits) : (us2cntF c u us : Int) = fullCount c u us := by
  have hnonneg := fullCount_nonneg c u us
  have hlt : (fullCount c u us).toNat < 2 ^ u.cntBits := by
    rw [← Int.ofNat_lt, Int.toNat_of_nonneg hnonneg]
    exact_mod_cast h
  rw [us2cntF, Nat.mod_eq_of_lt hlt, Int.toNat_of_nonneg hnonneg]

/-- Settles O25: the boundary values, the two directions of monotonicity and the absorbed clamps, each a lemma. -/
theorem converterProperties : Obligations.ConverterProperties := by
  refine ⟨fun lo hi ulo uhi h => ⟨a2usF_lo h ulo uhi, a2usF_hi h ulo uhi⟩,
    fun a a' lo hi ulo uhi h ha => ⟨fun hu => a2usF_mono h hu ha, fun hu => a2usF_anti h hu ha⟩,
    fun a lo hi ulo uhi h => (a2usF_clamp h a ulo uhi).symm,
    fun c u _ _ => ⟨fun us => ?_, fun us us' hle hfit hfit' => ?_, fun us h => us2cntF_of_nonpos c u h⟩⟩
  · rw [← maxPulse_eq, us2cntF_clamp]
  · have hmono := fullCount_mono c u hle
    rw [← us2cntF_eq_fullCount hfit, ← us2cntF_eq_fullCount hfit'] at hmono
    exact_mod_cast hmono

/-- A calibration factor strictly below `2^cnt_bits / (20 * CPM)` keeps every count inside the register: the largest pulse is
20 ms (R117, log 20). -/
theorem fullCount_lt (hden : 0 < u.cpmDen) (hcal : 0 < c.calDen)
    (hbound : c.calNum * (20 * u.cpmNum) < 2 ^ u.cntBits * u.cpmDen * c.calDen) (us : Int) :
    fullCount c u us < 2 ^ u.cntBits := by
  have hk : (clamp us 0 maxPulse).toNat ≤ 20 * 65536 * 1000 := by
    have hle := (clamp_mem (x := us) maxPulse_nonneg).2
    rw [maxPulse_eq] at hle ⊢
    omega
  rw [fullCount_eq_natCast]
  generalize (clamp us 0 maxPulse).toNat = k at hk
  have hnat : u.cpmNum * k * c.calNum / (u.cpmDen * 65536 * 1000 * c.calDen) < 2 ^ u.cntBits := by
    rw [Nat.div_lt_iff_lt_mul (by positivity)]
    calc u.cpmNum * k * c.calNum ≤ u.cpmNum * (20 * 65536 * 1000) * c.calNum := by gcongr
      _ = c.calNum * (20 * u.cpmNum) * (65536 * 1000) := by ring
      _ < 2 ^ u.cntBits * u.cpmDen * c.calDen * (65536 * 1000) := by gcongr
      _ = 2 ^ u.cntBits * (u.cpmDen * 65536 * 1000 * c.calDen) := by ring
  exact_mod_cast hnat

/-- Settles O27: the reduction bounds the count, and under the strict bound it does nothing. -/
theorem countFitsTheRegister : Obligations.CountFitsTheRegister := by
  intro c u us hc hu
  obtain ⟨-, -, -, hcal, -, -, hunits⟩ := hc.1
  obtain ⟨-, -, -, -, hden⟩ := hunits u hu
  exact ⟨us2cntF_lt c u us, fun hbound => us2cntF_eq_fullCount (fullCount_lt hden hcal hbound us)⟩

/-- Refutes O28: one wide unit with CPM = 2000 and CAL = 65536 / 40000, which is `2^16 / (20 * 2000)`; the count of a pulse
of 20000 microseconds is then 65536 (log 20). -/
theorem not_countBoundIncludingTheLimit : ¬ Obligations.CountBoundIncludingTheLimit := by
  intro h
  have hcount := h { refCfg with pinMap := [], units := [refUnit0], calNum := 65536, calDen := 40000 } refUnit0 maxPulse
    (by decide) (by decide) (by decide)
  exact absurd hcount (by decide)

end Sys2Proof.Machine
end

section
/-! PROOFS. Every command is its effect followed by one response (spec/30_encoding.md R76), whatever the outside does; what an
effect adds to the history, and what it does to the contexts. -/

namespace Sys2Proof.Machine

/-! Short names for facts that many proofs use. -/

section Facts
variable {s t : State} {ch pin : Byte} {b : Binding}

theorem SameCore.chans (h : SameCore s t) : t.chans = s.chans := h.1

theorem SameCore.refcnt (h : SameCore s t) : t.refcnt = s.refcnt := h.2.1

theorem SameCore.cfg (h : SameCore s t) : t.cfg = s.cfg := h.2.2.1

/-- An existing channel has a context in a sound state (10_state R21). -/
theorem chan_lt (hI : s.Inv) (h : ch.toNat < s.cfg.nch) : ch.toNat < s.chans.length := hI.1 ▸ h

theorem pin_ne_zero {c : Config} (hc : c.WellFormed) (hb : lookup c pin = some b) : pin ≠ 0 := lookup_ne_zero hc.2.1 hb

theorem attached_of_bound {c : Config} (hc : c.WellFormed) {x : Channel} (hb : lookup c x.pin = some b) :
    x.attached = true := bne_iff_ne.2 (pin_ne_zero hc hb)

theorem attached_eq_false {x : Channel} (hp : x.pin = 0) : x.attached = false := by
  rw [Channel.attached, hp]
  rfl

end Facts

/-! Sequences of runs. -/

/-- A sequence completes when both parts do. -/
theorem bind_eq_ok {α : Type} {r : Except Stop α} {f : α → Run} {t : State} :
    (r >>= f) = .ok t ↔ ∃ a, r = .ok a ∧ f a = .ok t := by
  cases r with
  | error e => simp
  | ok a => simp

/-- A sequence ends in `t` when its first part is ended there, or when its second part ends there. -/
theorem finish_bind_eq_next {r : Run} {f : State → Run} {t : State} :
    finish (r >>= f) = .next t ↔ r = .error (.ended t) ∨ ∃ a, r = .ok a ∧ finish (f a) = .next t := by
  cases r with
  | ok a => simp
  | error e => cases e <;> simp [finish]

/-- What needs the binding of a pin and its unit's settings stops, or has both. -/
theorem boundTo_needUnit_cases (pin : Byte) (s : State) (f : Binding → UnitCfg → Run) :
    (∃ x, (boundTo pin s >>= fun b => needUnit b.unit s >>= f b) = .error (.fault x)) ∨
    (∃ x, (boundTo pin s >>= fun b => needUnit b.unit s >>= f b) = .error (.refused x)) ∨
    ∃ b u, lookup s.cfg pin = some b ∧ unitCfg? s.cfg b.unit = some u ∧
      (boundTo pin s >>= fun b => needUnit b.unit s >>= f b) = f b u := by
  cases hb : lookup s.cfg pin with
  | none => exact .inl ⟨.unboundChannel, by simp [boundTo, hb]⟩
  | some b =>
    cases hu : unitCfg? s.cfg b.unit with
    | none => exact .inr (.inl ⟨.illFormedConfig, by simp [boundTo, hb, needUnit, hu]⟩)
    | some u => exact .inr (.inr ⟨b, u, rfl, hu, by simp [boundTo, hb, needUnit, hu]⟩)

/-- What needs the binding of a pin and its unit's settings completes only where it has both. -/
theorem bound_eq_ok {pin : Byte} {s t : State} {f : Binding → UnitCfg → Run}
    (h : (boundTo pin s >>= fun b => needUnit b.unit s >>= f b) = .ok t) :
    ∃ b u, lookup s.cfg pin = some b ∧ unitCfg? s.cfg b.unit = some u ∧ f b u = .ok t := by
  rcases boundTo_needUnit_cases pin s f with ⟨x, e⟩ | ⟨x, e⟩ | ⟨b, u, hb, hu, e⟩
  · rw [e] at h; cases h
  · rw [e] at h; cases h
  · exact ⟨b, u, hb, hu, e.symm.trans h⟩

/-! Effect and answer. -/

/-- R131 steps 3 to 6: what an attach to a supported pin does before it answers. -/
def bindEffect (ch pin : Byte) (b : Binding) (k : Calibration) (s : State) : Run := do
  let s1 ← configureIfFirst b s
  let s2 ← applyModePatch b s1
  gpioDir pin .output (bindChannel ch pin b k s2)

/-- What an attach does before it answers (R131). -/
def attachEffect (ch pin : Byte) (k : Calibration) (s : State) : Run := do
  let t ← detachElsewhere ch pin s
  match lookup t.cfg pin with
  | none => .ok t
  | some b => bindEffect ch pin b k t

/-- What a legal command does before it answers. -/
def legalEffect (i : Instr) (s : State) : Run :=
  match i with
  | .configure unit => match unitCfg? s.cfg unit with
    | none => .ok s
    | some u => configure u s
  | .a2us angle lo hi ulo uhi => .ok (a2usData angle lo hi ulo uhi s).2
  | .attach ch pin => attachEffect ch pin (s.chan ch).calibration s
  | .attachx ch pin lo hi ulo uhi => attachEffect ch pin ⟨lo, hi, ulo, uhi⟩ s
  | .detach ch => if (s.chan ch).attached then detachCore ch s else .ok s
  | .write ch angle =>
    if (s.chan ch).attached then
      if (s.chan ch).contractKept then writeAngle ch (s.chan ch) angle s else writeUnspecified ch (s.chan ch) s
    else .ok s
  | .writeus ch us => if (s.chan ch).attached then writePulse (s.chan ch) us s else .ok s
  | .lookup _ | .us2cnt _ _ | .read _ | .attached _ => .ok s

/-- What a legal command answers. -/
def legalAnswer (i : Instr) (s : State) : Response :=
  match i with
  | .lookup pin => lookupResponse s.cfg pin
  | .a2us angle lo hi ulo uhi => okData (a2usData angle lo hi ulo uhi s).1 0
  | .us2cnt unit us => match unitCfg? s.cfg unit with
    | none => illegalCommand
    | some u => okData (BitVec.ofNat 32 (us2cntF s.cfg u (raw us))) 0
  | .attach _ pin | .attachx _ pin _ _ _ _ => if (lookup s.cfg pin).isSome then okResponse else unsupportedPin
  | .read ch => { status := .ok, flag := (s.chan ch).readFlag, data0 := (s.chan ch).readData, data1 := 0 }
  | .attached ch => okData (s.chan ch).attachedData 0
  | .configure _ | .detach _ | .write _ _ | .writeus _ _ => okResponse

/-- What a command does before it answers; an illegal one does nothing (30_encoding R75). -/
def effect (i : Instr) (s : State) : Run := if i.WellFormed s.cfg then legalEffect i s else .ok s

/-- What a command answers. -/
def answerTo (i : Instr) (s : State) : Response := if i.WellFormed s.cfg then legalAnswer i s else illegalCommand

/-- A command that can move a pin: the three that request a direction (60_exceptions R169). -/
def binds : Instr → Bool
  | .attach _ _ | .attachx _ _ _ _ _ _ | .detach _ => true
  | _ => false

/-- A register that a WRITE under a violated contract may leave with any value (R135; log 5). -/
def LeftFree (i : Instr) (s : State) (a : RegAddr) : Prop :=
  ∃ ch angle b u, i = .write ch angle ∧ contractKeptBy i s = false ∧ lookup s.cfg (s.chan ch).pin = some b ∧
    unitCfg? s.cfg b.unit = some u ∧ (a = b.cmpReg ∨ u.hlatch = some a)

/-- The events that a command can add to the history before its response. -/
def EffectEvent (i : Instr) (s : State) (e : Event) : Prop :=
  e.isAccess s.cfg ∨ e.isGpio = true ∧ binds i = true ∨ ∃ a, e = .unspecified a ∧ LeftFree i s a

variable {P : Event → Prop} {s t : State} {ch pin : Byte} {b : Binding} {k : Calibration} {i : Instr}

theorem effectEvent_admitsPorts (h : binds i = true) : AdmitsPorts s.cfg (EffectEvent i s) := fun _ he =>
  he.elim .inl fun hg => .inr (.inl ⟨hg, h⟩)

/-! What the effects can do under any outside. -/

theorem CommandRun.mono {Q : Event → Prop} {r : Run} (h : CommandRun P s r) (hPQ : ∀ e, P e → Q e) : CommandRun Q s r :=
  ⟨fun t e => ⟨(h.ok t e).1.mono hPQ, (h.ok t e).2⟩, fun t e => ⟨(h.ended t e).1.mono hPQ, (h.ended t e).2⟩⟩

/-- A run's ends, whatever it adds to the history. -/
theorem PortRun.any {r : Run} (h : PortRun P s r) : PortRun (fun _ => True) s r := h.mono fun _ _ => trivial

theorem admitsPorts_any (c : Config) : AdmitsPorts c fun _ => True := fun _ _ => trivial

theorem commandRun_bound {f : Binding → UnitCfg → Run}
    (hf : ∀ b u, lookup s.cfg pin = some b → unitCfg? s.cfg b.unit = some u → CommandRun P s (f b u)) :
    CommandRun P s (boundTo pin s >>= fun b => needUnit b.unit s >>= f b) := by
  rcases boundTo_needUnit_cases pin s f with ⟨x, h⟩ | ⟨x, h⟩ | ⟨b, u, hb, hu, h⟩ <;> rw [h]
  · exact .fault P s x
  · exact .refused P s x
  · exact hf b u hb hu

theorem bindEffect_run (hP : AdmitsPorts s.cfg P) (ch pin : Byte) (b : Binding) (k : Calibration) :
    CommandRun P s (bindEffect ch pin b k s) := by
  refine CommandRun.bind (.of_port (configureIfFirst_run hP b)) fun t _ ht => ?_
  have hpatch := rmw_run b.patch t
  rw [ht.cfg] at hpatch
  refine CommandRun.bind (.of_port (hpatch.mono fun e h => hP e (.inl h))) fun t2 _ _ => ?_
  obtain ⟨hkeeps, hquiet⟩ := keeps_bind P t2 ch pin b k
  refine CommandRun.bind (r := .ok (bindChannel ch pin b k t2)) (f := gpioDir pin .output) (.of_ok hkeeps hquiet) ?_
  exact fun t3 _ _ => .of_port ((gpioDir_run pin .output t3).mono fun e h => hP e (.inr h))

theorem detachElsewhere_run (hP : AdmitsPorts s.cfg P) (ch pin : Byte) : CommandRun P s (detachElsewhere ch pin s) := by
  unfold detachElsewhere
  split
  · exact detachCore_run hP ch
  · exact .of_ok (.refl P s) id

theorem attachEffect_run (hP : AdmitsPorts s.cfg P) (ch pin : Byte) (k : Calibration) :
    CommandRun P s (attachEffect ch pin k s) := by
  refine CommandRun.bind (detachElsewhere_run hP ch pin) fun t _ ht => ?_
  cases lookup t.cfg pin with
  | none => exact .of_ok (.refl P t) id
  | some b => exact bindEffect_run (ht.cfg ▸ hP) ch pin b k

theorem writeAngle_run (hP : ∀ e, e.isAccess s.cfg → P e) (ch : Byte) (x : Channel) (angle : Word) :
    CommandRun P s (writeAngle ch x angle s) := by
  refine CommandRun.bind (.of_ok (keeps_setChan P s ch (x.written angle)) id) (f := fun s1 => boundTo x.pin s1 >>= fun b =>
    needUnit b.unit s1 >>= fun u => cmpWrite u b (countReg s.cfg u (x.pulse angle)) s1) fun s1 _ hs1 => ?_
  refine commandRun_bound fun b u _ _ => .of_port ((wideWrite_run u b.cmpReg _ s1).mono fun e he => hP e ?_)
  rwa [hs1.cfg] at he

theorem writePulse_run (hP : ∀ e, e.isAccess s.cfg → P e) (x : Channel) (us : Word) :
    CommandRun P s (writePulse x us s) :=
  commandRun_bound fun _ _ _ _ => .of_port ((wideWrite_run _ _ _ s).mono hP)

/-- The free values go to the bound compare register and a narrow unit's latch, with one unspecified event for each
(R135; log 5). -/
theorem freeRegs_keeps {u : UnitCfg} (hP : ∀ a, a = b.cmpReg ∨ u.hlatch = some a → P (.unspecified a)) :
    Keeps P s (freeRegs u b s) := by
  unfold freeRegs
  split
  · rename_i h _ hl
    exact ⟨rfl, rfl, List.prefix_rfl, [.unspecified h, .unspecified b.cmpReg], by simp,
      by simpa using ⟨hP h (.inr hl), hP b.cmpReg (.inl rfl)⟩⟩
  · exact ⟨rfl, rfl, List.prefix_rfl, [.unspecified b.cmpReg], by simp, by simpa using hP b.cmpReg (.inl rfl)⟩

theorem freeRegs_env (u : UnitCfg) (b : Binding) (s : State) : (freeRegs u b s).env = s.env := by
  unfold freeRegs; split <;> rfl

theorem writeUnspecified_run (x : Channel)
    (hP : ∀ b u, lookup s.cfg x.pin = some b → unitCfg? s.cfg b.unit = some u →
      ∀ a, a = b.cmpReg ∨ u.hlatch = some a → P (.unspecified a)) :
    CommandRun P s (writeUnspecified ch x s) := by
  refine commandRun_bound fun b u hb hu => CommandRun.bind (.of_port (portSlot_run P s)) fun t _ _ => ?_
  refine .of_ok ?_ fun hq => (freeRegs_env u b t).trans hq
  exact (freeRegs_keeps (hP b u hb hu)).trans ⟨rfl, rfl, List.prefix_rfl, [], by simp [unspecifiedWrite]⟩

/-- What a legal command can do before its response. -/
theorem legalEffect_run (i : Instr) (s : State) : CommandRun (EffectEvent i s) s (legalEffect i s) := by
  have hrest : CommandRun (EffectEvent i s) s (.ok s) := .of_ok (.refl _ s) id
  cases i with
  | lookup | us2cnt | read | attached => exact hrest
  | configure unit =>
    rw [legalEffect]
    split
    · exact hrest
    · exact .of_port ((configure_run _ s).mono fun _ => .inl)
  | a2us angle lo hi ulo uhi =>
    simp only [legalEffect, a2usData]
    split
    · exact hrest
    · exact .of_ok ⟨rfl, rfl, List.prefix_rfl, [], by simp⟩ id
  | attach | attachx => exact attachEffect_run (effectEvent_admitsPorts rfl) _ _ _
  | detach ch =>
    rw [legalEffect]
    split
    · exact detachCore_run (effectEvent_admitsPorts rfl) ch
    · exact hrest
  | write ch angle =>
    simp only [legalEffect]
    split
    · rename_i hatt
      split
      · exact writeAngle_run (fun _ => .inl) ch _ angle
      · rename_i hkept
        have hbroken : contractKeptBy (.write ch angle) s = false := by simpa [contractKeptBy, hatt] using hkept
        exact writeUnspecified_run _ fun b u hb hu a ha => .inr (.inr ⟨a, rfl, ch, angle, b, u, rfl, hbroken, hb, hu, ha⟩)
    · exact hrest
  | writeus ch us =>
    rw [legalEffect]
    split
    · exact writePulse_run (fun _ => .inl) _ us
    · exact hrest

/-- What a command can do before its response. -/
theorem effect_run (i : Instr) (s : State) : CommandRun (EffectEvent i s) s (effect i s) := by
  unfold effect
  split
  · exact legalEffect_run i s
  · exact .of_ok (.refl _ s) id

/-! A command is its effect and its answer. -/

theorem attachBound_eq (ch pin : Byte) (b : Binding) (k : Calibration) (s : State) :
    attachBound ch pin b k s = bindEffect ch pin b k s >>= respond okResponse := by
  simp only [attachBound, bindEffect, bind_assoc]

/-- `AttachCore` is its effect and one answer, that of the pin's binding (R131). -/
theorem attachCore_eq (ch pin : Byte) (k : Calibration) (s : State) :
    attachCore ch pin k s = attachEffect ch pin k s >>=
      respond (if (lookup s.cfg pin).isSome then okResponse else unsupportedPin) := by
  simp only [attachCore, attachEffect, bind_assoc]
  have hrun := detachElsewhere_run (admitsPorts_any s.cfg) ch pin
  cases hr : detachElsewhere ch pin s with
  | error e => rfl
  | ok t =>
    have hcfg := (hrun.ok t hr).1.cfg
    simp only [ok_bind, hcfg]
    cases lookup s.cfg pin with
    | none => rfl
    | some b => exact attachBound_eq ch pin b k t

/-- A command that uses `ch`, with the effect and the answer that it has when `ch` exists. -/
theorem onChannel_eq {f : Channel → Run} (hch : i.channel? = some ch) (hunit : i.unit? = none)
    (hf : f (s.chan ch) = legalEffect i s >>= respond (legalAnswer i s)) :
    onChannel ch s f = finish (effect i s >>= respond (answerTo i s)) := by
  by_cases h : ch.toNat < s.cfg.nch
  · have hlegal := (legal_channel (c := s.cfg) hch hunit).2 h
    rw [onChannel_legal h, hf, effect, answerTo, if_pos hlegal, if_pos hlegal]
  · have hillegal := mt (legal_channel (c := s.cfg) hch hunit).1 h
    rw [onChannel_illegal h, effect, answerTo, if_neg hillegal, if_neg hillegal, ok_bind]

/-- A command that names a unit, with the effect and the answer that it has when the unit exists. -/
theorem onUnit_eq {unit : Byte} {f : UnitCfg → Run} (hch : i.channel? = none) (hunit : i.unit? = some unit)
    (hf : ∀ u, unitCfg? s.cfg unit = some u → f u = legalEffect i s >>= respond (legalAnswer i s)) :
    onUnit unit s f = finish (effect i s >>= respond (answerTo i s)) := by
  cases h : unitCfg? s.cfg unit with
  | some u =>
    have hlegal := (legal_unit (c := s.cfg) hch hunit).2 ⟨u, h⟩
    rw [onUnit_legal h, hf u h, effect, answerTo, if_pos hlegal, if_pos hlegal]
  | none =>
    have hillegal : ¬ i.WellFormed s.cfg := by simp [legal_unit hch hunit, h]
    rw [onUnit_illegal h, effect, answerTo, if_neg hillegal, if_neg hillegal, ok_bind]

/-- Every command is its effect and then its answer (R76), under any outside. -/
theorem exec_eq (i : Instr) (s : State) : exec i s = finish (effect i s >>= respond (answerTo i s)) := by
  cases i with
  | lookup pin =>
    have hlegal : (Instr.lookup pin).WellFormed s.cfg := legal_plain rfl rfl
    rw [effect, answerTo, if_pos hlegal, if_pos hlegal]; rfl
  | a2us angle lo hi ulo uhi =>
    have hlegal : (Instr.a2us angle lo hi ulo uhi).WellFormed s.cfg := legal_plain rfl rfl
    rw [effect, answerTo, if_pos hlegal, if_pos hlegal]; rfl
  | configure unit => exact onUnit_eq rfl rfl fun u hu => by simp only [legalEffect, legalAnswer, hu]
  | us2cnt unit us => exact onUnit_eq rfl rfl fun u hu => by simp only [legalEffect, legalAnswer, hu, ok_bind]
  | attach ch pin =>
    unfold exec; refine onChannel_eq rfl rfl ?_
    exact attachCore_eq ch pin _ s
  | attachx ch pin lo hi ulo uhi =>
    unfold exec; refine onChannel_eq rfl rfl ?_
    exact attachCore_eq ch pin _ s
  | detach ch =>
    unfold exec; refine onChannel_eq rfl rfl ?_
    simp only [legalEffect, legalAnswer]
    split <;> rfl
  | write ch angle =>
    unfold exec; refine onChannel_eq rfl rfl ?_
    simp only [legalEffect, legalAnswer]
    split <;> [split; skip] <;> rfl
  | writeus ch us =>
    unfold exec; refine onChannel_eq rfl rfl ?_
    simp only [legalEffect, legalAnswer]
    split <;> rfl
  | read ch => unfold exec; refine onChannel_eq rfl rfl ?_; rfl
  | attached ch => unfold exec; refine onChannel_eq rfl rfl ?_; rfl

/-- What a command keeps and can add to the history, under any outside. -/
theorem exec_keeps (h : exec i s = .next t) : Keeps (fun e => EffectEvent i s e ∨ ∃ r, e = .respond r) s t := by
  rw [exec_eq, finish_bind_eq_next] at h
  have heffect := (effect_run i s).mono (Q := fun e => EffectEvent i s e ∨ ∃ r, e = .respond r) fun _ => .inl
  rcases h with hended | ⟨t1, hok, hanswer⟩
  · exact (heffect.ended t hended).1
  · have hrespond := (respond_run (answerTo i s) t1).mono (Q := fun e => EffectEvent i s e ∨ ∃ r, e = .respond r)
      fun _ he => .inr ⟨_, he⟩
    refine (heffect.ok t1 hok).1.trans ?_
    rcases finish_next hanswer with hdone | hended
    · exact (hrespond.ok t hdone).toKeeps
    · exact (hrespond.ended t hended).1

/-- With a quiet outside a command that ends has had its whole effect and then answered. -/
theorem exec_quiet_inv (hq : s.Quiet) (h : exec i s = .next t) :
    ∃ t1, effect i s = .ok t1 ∧ Keeps (EffectEvent i s) s t1 ∧ t = t1.answer (answerTo i s) := by
  rw [exec_eq] at h
  obtain ⟨t1, hok, hq1, hanswer⟩ := (effect_run i s).quiet_ok hq h
  exact ⟨t1, hok, ((effect_run i s).ok t1 hok).1, finish_respond_quiet hq1 hanswer⟩

/-- A command leaves a quiet outside quiet. -/
theorem exec_stays_quiet (hq : s.Quiet) (h : exec i s = .next t) : t.Quiet := by
  obtain ⟨t1, hok, -, rfl⟩ := exec_quiet_inv hq h
  exact ((effect_run i s).ok t1 hok).2 hq

/-! What effects do to contexts and counters. -/

/-- What an effect that binds can do to the contexts: it names one channel, sets its pin, and may give it the calibration
`k`. -/
structure Rebinds (ch : Byte) (k : Calibration) (s t : State) : Prop where
  cfg   : t.cfg = s.cfg
  other : ∀ c, c ≠ ch → t.chan c = s.chan c
  self  : ∃ pin k', t.chan ch = { (s.chan ch).calibrated k' with pin := pin } ∧ (k' = (s.chan ch).calibration ∨ k' = k)

theorem Rebinds.of_core (h : SameCore s t) : Rebinds ch k s t :=
  ⟨h.cfg, fun c _ => h.chan c, _, _, h.chan ch, .inl rfl⟩

theorem Rebinds.trans {u : State} (h : Rebinds ch k s t) (h' : Rebinds ch k t u) : Rebinds ch k s u := by
  obtain ⟨p, k1, e1, h1⟩ := h.self
  obtain ⟨p', k2, e2, h2⟩ := h'.self
  refine ⟨h'.cfg.trans h.cfg, fun c hc => (h'.other c hc).trans (h.other c hc), p', k2, ?_, ?_⟩
  · rw [e2, e1]; rfl
  · rcases h2 with rfl | rfl
    · rw [e1]; exact h1
    · exact .inr rfl

/-- A context written is read back, or it does not exist and reads as before. -/
theorem setChan_chan_cases (s : State) (ch : Byte) (x : Channel) :
    (s.setChan ch x).chan ch = x ∨ (s.setChan ch x).chan ch = s.chan ch := by
  by_cases h : ch.toNat < s.chans.length
  · exact .inl (State.setChan_chan_same h x)
  · refine .inr ?_
    rw [State.chan, State.setChan_chans, List.set_eq_of_length_le (Nat.not_lt.1 h)]
    rfl

/-- A state that reads the same contexts, with the named channel's pin and calibration set. -/
theorem rebinds_setChan {k' : Calibration} (hcfg : t.cfg = s.cfg) (hchan : ∀ c, t.chan c = s.chan c)
    (hk : k' = (s.chan ch).calibration ∨ k' = k) :
    Rebinds ch k s (t.setChan ch { (s.chan ch).calibrated k' with pin := pin }) := by
  refine ⟨hcfg, fun c hc => (State.setChan_chan_other hc _).trans (hchan c), ?_⟩
  rcases setChan_chan_cases t ch { (s.chan ch).calibrated k' with pin := pin } with h | h
  · exact ⟨pin, k', h, hk⟩
  · exact ⟨_, _, h.trans (hchan ch), .inl rfl⟩

theorem rebinds_unbind (ch : Byte) (b : Binding) (k : Calibration) (s : State) : Rebinds ch k s (unbind ch b s) :=
  rebinds_setChan (t := s.decRefcount b.unit) (k' := (s.chan ch).calibration) rfl (fun _ => rfl) (.inl rfl)

theorem rebinds_bindChannel (ch pin : Byte) (b : Binding) (k : Calibration) (s : State) :
    Rebinds ch k s (bindChannel ch pin b k s) := by
  simp only [bindChannel]
  split
  · exact rebinds_setChan (t := s) rfl (fun _ => rfl) (.inr rfl)
  · exact rebinds_setChan (t := s.incRefcount b.unit) rfl (fun _ => rfl) (.inr rfl)

/-- A completed `DetachCore` has used its ports and then unbound the channel (R130). -/
theorem detachCore_ok (h : detachCore ch s = .ok t) :
    ∃ b t1, lookup s.cfg (s.chan ch).pin = some b ∧ Extends (fun _ => True) s t1 ∧ t = unbind ch b t1 := by
  obtain ⟨b, u, hb, -, h⟩ := bound_eq_ok h
  obtain ⟨s1, h1, h⟩ := bind_eq_ok.1 h
  obtain ⟨s2, h2, h⟩ := bind_eq_ok.1 h
  cases h
  exact ⟨b, s2, hb, ((wideWrite_run u b.cmpReg 0 s).any.ok s1 h1).trans ((gpioDir_run _ .input s1).any.ok s2 h2), rfl⟩

theorem detachElsewhere_ok (h : detachElsewhere ch pin s = .ok t) :
    ((s.chan ch).attachedElsewhere pin = true ∧ detachCore ch s = .ok t) ∨
    ((s.chan ch).attachedElsewhere pin = false ∧ t = s) := by
  unfold detachElsewhere at h
  split at h
  · rename_i he; exact .inl ⟨he, h⟩
  · rename_i he; cases h; exact .inr ⟨by simpa using he, rfl⟩

/-- A completed attach to a supported pin has used its ports, bound the channel and requested the direction (R131). -/
theorem bindEffect_ok (h : bindEffect ch pin b k s = .ok t) :
    ∃ s2, Extends (fun _ => True) s s2 ∧ Extends (fun _ => True) (bindChannel ch pin b k s2) t := by
  obtain ⟨s1, h1, h⟩ := bind_eq_ok.1 h
  obtain ⟨s2, h2, h⟩ := bind_eq_ok.1 h
  have hfirst := (configureIfFirst_run (admitsPorts_any s.cfg) b).ok s1 h1
  have hpatch := (rmw_run b.patch s1).any.ok s2 h2
  exact ⟨s2, hfirst.trans hpatch, (gpioDir_run pin .output _).any.ok t h⟩

theorem attachEffect_rebinds (h : attachEffect ch pin k s = .ok t) : Rebinds ch k s t := by
  obtain ⟨t1, h1, h⟩ := bind_eq_ok.1 h
  have hdetach : Rebinds ch k s t1 := by
    rcases detachElsewhere_ok h1 with ⟨-, hcore⟩ | ⟨-, rfl⟩
    · obtain ⟨b, t2, -, hext, rfl⟩ := detachCore_ok hcore
      exact (Rebinds.of_core hext.core).trans (rebinds_unbind ch b k t2)
    · exact .of_core (.refl _)
  refine hdetach.trans ?_
  cases hb : lookup t1.cfg pin with
  | none => rw [hb] at h; cases h; exact .of_core (.refl _)
  | some b =>
    rw [hb] at h
    obtain ⟨s2, hext, hext'⟩ := bindEffect_ok h
    exact (Rebinds.of_core hext.core).trans ((rebinds_bindChannel ch pin b k s2).trans (.of_core hext'.core))

/-- What an effect that stores an angle can do to the contexts: it names one channel. -/
structure StoresAngle (ch : Byte) (s t : State) : Prop where
  other : ∀ c, c ≠ ch → t.chan c = s.chan c
  self  : ∃ angle valid, t.chan ch = { s.chan ch with angle := angle, angleValid := valid }

theorem storesAngle_setChan {u : State} (ht : ∀ c, t.chan c = s.chan c) {angle : Word} {valid : Bool}
    (hu : ∀ c, u.chan c = (t.setChan ch { s.chan ch with angle := angle, angleValid := valid }).chan c) :
    StoresAngle ch s u := by
  refine ⟨fun c hc => by rw [hu, State.setChan_chan_other hc, ht], ?_⟩
  rcases setChan_chan_cases t ch { s.chan ch with angle := angle, angleValid := valid } with h | h
  · exact ⟨angle, valid, (hu ch).trans h⟩
  · exact ⟨_, _, ((hu ch).trans h).trans (ht ch)⟩

theorem writeAngle_ok {angle : Word} (h : writeAngle ch (s.chan ch) angle s = .ok t) :
    Extends (fun _ => True) (s.setChan ch ((s.chan ch).written angle)) t := by
  obtain ⟨b, u, -, -, h⟩ := bound_eq_ok (s := s.setChan ch ((s.chan ch).written angle)) h
  exact (wideWrite_run u b.cmpReg _ _).any.ok t h

theorem writePulse_ok {x : Channel} {us : Word} (h : writePulse x us s = .ok t) : Extends (fun _ => True) s t := by
  obtain ⟨b, u, -, -, h⟩ := bound_eq_ok h
  exact (wideWrite_run u b.cmpReg _ s).any.ok t h

theorem writeUnspecified_ok {x : Channel} (h : writeUnspecified ch x s = .ok t) :
    ∃ b u t1, lookup s.cfg x.pin = some b ∧ unitCfg? s.cfg b.unit = some u ∧ Extends (fun _ => True) s t1 ∧
      t = unspecifiedWrite ch x u b t1 := by
  obtain ⟨b, u, hb, hu, h⟩ := bound_eq_ok h
  obtain ⟨t1, h1, h⟩ := bind_eq_ok.1 h
  cases h
  exact ⟨b, u, t1, hb, hu, (portSlot_run _ s).ok t1 h1, rfl⟩

theorem freeRegs_core (u : UnitCfg) (b : Binding) (s : State) : SameCore s (freeRegs u b s) := by
  unfold freeRegs; split <;> exact ⟨rfl, rfl, rfl, rfl, rfl⟩

/-- What a command's effect can do to the contexts and the counters. -/
inductive ContextEffect (i : Instr) (s t : State) : Prop
  | leaves (chans : t.chans = s.chans) (refcnt : t.refcnt = s.refcnt) (cfg : t.cfg = s.cfg)
  | stores (ch : Byte) (angle : Word) (cmd : i = .write ch angle) (refcnt : t.refcnt = s.refcnt) (h : StoresAngle ch s t)
  | rebinds (ch : Byte) (k : Calibration) (cmd : binds i = true) (named : i.channel? = some ch) (h : Rebinds ch k s t)
      (cal : k = (s.chan ch).calibration ∨ ∃ pin lo hi ulo uhi, i = .attachx ch pin lo hi ulo uhi)

theorem ContextEffect.of_core (h : SameCore s t) : ContextEffect i s t := .leaves h.chans h.refcnt h.cfg

theorem legalEffect_contexts (h : legalEffect i s = .ok t) : ContextEffect i s t := by
  have hrest : ∀ {u : State}, Except.ok u = (.ok t : Run) → SameCore s u → ContextEffect i s t := fun e hu => by
    cases e; exact .of_core hu
  cases i with
  | lookup | us2cnt | read | attached => exact hrest h (.refl s)
  | configure unit =>
    rw [legalEffect] at h
    split at h
    · exact hrest h (.refl s)
    · exact .of_core ((configure_run _ s).ok t h).core
  | a2us angle lo hi ulo uhi =>
    simp only [legalEffect, a2usData] at h
    split at h <;> cases h <;> exact .leaves rfl rfl rfl
  | attach ch pin => exact .rebinds ch _ rfl rfl (attachEffect_rebinds h) (.inl rfl)
  | attachx ch pin lo hi ulo uhi => exact .rebinds ch _ rfl rfl (attachEffect_rebinds h) (.inr ⟨_, _, _, _, _, rfl⟩)
  | detach ch =>
    rw [legalEffect] at h
    split at h
    · obtain ⟨b, t1, -, hext, rfl⟩ := detachCore_ok h
      exact .rebinds ch _ rfl rfl ((Rebinds.of_core hext.core).trans (rebinds_unbind ch b _ t1)) (.inl rfl)
    · exact hrest h (.refl s)
  | write ch angle =>
    simp only [legalEffect] at h
    split at h
    · split at h
      · have hext := (writeAngle_ok h).core
        exact .stores ch angle rfl hext.refcnt (storesAngle_setChan (fun _ => rfl) hext.chan)
      · obtain ⟨b, u, t1, -, -, hext, rfl⟩ := writeUnspecified_ok h
        have hfree := hext.core.trans (freeRegs_core u b t1)
        exact .stores ch angle rfl hfree.refcnt (storesAngle_setChan (t := freeRegs u b t1) hfree.chan fun _ => rfl)
    · exact hrest h (.refl s)
  | writeus ch us =>
    rw [legalEffect] at h
    split at h
    · exact .of_core (writePulse_ok h).core
    · exact hrest h (.refl s)

theorem effect_contexts (h : effect i s = .ok t) : ContextEffect i s t := by
  unfold effect at h
  split at h
  · exact legalEffect_contexts h
  · cases h; exact .leaves rfl rfl rfl

theorem ContextEffect.chan_other (h : ContextEffect i s t) {c : Byte} (hc : i.channel? ≠ some c) :
    t.chan c = s.chan c := by
  cases h with
  | leaves chans _ cfg => simp only [State.chan, chans, cfg]
  | stores ch _ cmd _ h => exact h.other c fun e => hc (by rw [cmd, e]; rfl)
  | rebinds ch k _ named h _ => exact h.other c fun e => hc (e ▸ named)

end Sys2Proof.Machine
end

section
/-! PROOFS. What every command keeps, adds to the history and answers (spec/20_memory.md R51, R67, spec/30_encoding.md R75 to
R77, spec/10_state.md R23, R24, R42, spec/60_exceptions.md R161), read off its effect and its answer. -/

namespace Sys2Proof.Machine

variable {s t : State} {i : Instr}

/-! Under any outside. -/

/-- Settles O53: the frame of `exec_keeps`. -/
theorem commandsKeepTheStream : Obligations.CommandsKeepTheStream := by
  intro i s t h
  have hkeeps := exec_keeps h
  obtain ⟨es, hlog, -⟩ := hkeeps.log
  exact ⟨hkeeps.cpc, hkeeps.cfg, hkeeps.stream, es, hlog.symm⟩

/-- The events between two states of which one extends the other's history. -/
theorem eventsTo_eq {es : List Event} (h : t.log = s.log ++ es) : s.eventsTo t = es := by
  rw [State.eventsTo, h, List.drop_left]

/-- The registers left free by a violated contract are implemented (R135). -/
theorem regKind_leftFree (hc : s.cfg.WellFormed) {a : RegAddr} (h : LeftFree i s a) : (regKind s.cfg a).isSome := by
  obtain ⟨ch, angle, b, u, -, -, hb, hu, ha⟩ := h
  obtain ⟨hmem, hcmp⟩ := binding_unit_mem hc hb hu
  have hnodup := wf_dataRegs hc
  rcases ha with rfl | hl
  · rcases unit_variant hc hmem with ⟨hv, -, -⟩ | ⟨l, hv, -, hl⟩
    · rw [regKind_wide hnodup hmem hv (.inr hcmp)]; rfl
    · rw [regKind_narrow hnodup hmem hv hl (.inr hcmp)]; rfl
  · rw [regKind_latch hnodup hmem hl]; rfl

/-- Settles O49: an event of a command is an access that fits, a direction request, a response, or an access to a register
that the command leaves free, which only a broken contract has. -/
theorem accessesFitTheirRegisters : Obligations.AccessesFitTheirRegisters := by
  intro i s t hc h e he
  obtain ⟨es, hlog, hes⟩ := (exec_keeps h).log
  rw [eventsTo_eq hlog] at he
  rcases hes e he with (⟨hfits, -, -, hspec⟩ | ⟨hgpio, -⟩ | ⟨a, rfl, hfree⟩) | ⟨r, rfl⟩
  · exact ⟨hfits, fun _ => hspec⟩
  · cases e <;> simp [Event.isGpio] at hgpio
    exact ⟨trivial, fun _ => rfl⟩
  · refine ⟨regKind_leftFree hc hfree, fun hkept => ?_⟩
    obtain ⟨_, _, _, _, -, hbroken, -⟩ := hfree
    simp [hbroken] at hkept
  · exact ⟨trivial, fun _ => rfl⟩

/-! With a quiet outside. -/

/-- Settles O18: an illegal command has no effect, and the answer ILLEGAL_COMMAND. -/
theorem illegalOperandsAnswered : Obligations.IllegalOperandsAnswered := by
  intro i s hq hillegal
  rw [exec_eq, effect, answerTo, if_neg hillegal, if_neg hillegal, ok_bind, respond_quiet hq, finish_ok]
  rfl

/-- No event of an effect is a response. -/
theorem EffectEvent.not_respond {e : Event} (h : EffectEvent i s e) : e.isRespond = false := by
  rcases h with ⟨-, hr, -⟩ | ⟨hgpio, -⟩ | ⟨a, rfl, -⟩
  · exact hr
  · cases e <;> simp [Event.isGpio] at hgpio
    rfl
  · rfl

/-- Settles O54: the effect's events, of which none is a response, then the answer. -/
theorem oneResponsePerCommand : Obligations.OneResponsePerCommand := by
  intro i s t hq h
  obtain ⟨t1, -, hkeeps, rfl⟩ := exec_quiet_inv hq h
  obtain ⟨es, hlog, hes⟩ := hkeeps.log
  exact ⟨es, answerTo i s, by rw [answer_log, hlog], fun e he => (hes e he).not_respond⟩

/-- A legal command answers OK, or UNSUPPORTED_PIN where it looks up a pin that has no binding (R161). -/
theorem legalAnswer_status (hlegal : i.WellFormed s.cfg) : (legalAnswer i s).status = .ok ∨
    (legalAnswer i s).status = .unsupportedPin ∧ ∃ ch pin, lookup s.cfg pin = none ∧
      (i = .lookup pin ∨ i = .attach ch pin ∨ ∃ lo hi ulo uhi, i = .attachx ch pin lo hi ulo uhi) := by
  cases i with
  | lookup pin =>
    cases hb : lookup s.cfg pin with
    | none => exact .inr ⟨by rw [legalAnswer, lookupResponse_of_none hb]; rfl, 0, pin, hb, .inl rfl⟩
    | some b => exact .inl (by rw [legalAnswer, lookupResponse_of_some hb]; rfl)
  | us2cnt unit us =>
    obtain ⟨u, hu⟩ := (legal_unit rfl rfl).1 hlegal
    exact .inl (by simp only [legalAnswer, hu]; rfl)
  | attach ch pin =>
    cases hb : lookup s.cfg pin with
    | none => exact .inr ⟨by rw [legalAnswer, hb]; rfl, ch, pin, hb, .inr (.inl rfl)⟩
    | some b => exact .inl (by rw [legalAnswer, hb]; rfl)
  | attachx ch pin lo hi ulo uhi =>
    cases hb : lookup s.cfg pin with
    | none => exact .inr ⟨by rw [legalAnswer, hb]; rfl, ch, pin, hb, .inr (.inr ⟨lo, hi, ulo, uhi, rfl⟩)⟩
    | some b => exact .inl (by rw [legalAnswer, hb]; rfl)
  | configure | a2us | detach | write | writeus | read | attached => exact .inl rfl

/-- Settles O55: the last event is `answerTo`, which is ILLEGAL_COMMAND for an illegal command and `legalAnswer` for a
legal one. -/
theorem onlyTheseCommandsFail : Obligations.OnlyTheseCommandsFail := by
  intro i s t es r hq h hlog
  obtain ⟨t1, -, -, rfl⟩ := exec_quiet_inv hq h
  have hlast : [Event.respond (answerTo i s)] = [.respond r] := List.append_inj_right' hlog rfl
  obtain rfl : answerTo i s = r := by simpa using hlast
  by_cases hlegal : i.WellFormed s.cfg
  · rw [answerTo, if_pos hlegal]
    rcases legalAnswer_status hlegal with hok | ⟨hpin, hwhere⟩
    · exact ⟨iff_of_false (by simp [hok]) (not_not_intro hlegal), fun hpin => by simp [hok] at hpin⟩
    · exact ⟨iff_of_false (by simp [hpin]) (not_not_intro hlegal), fun _ => hwhere⟩
  · rw [answerTo, if_neg hlegal]
    exact ⟨iff_of_true rfl hlegal, fun hpin => by simp [illegalCommand] at hpin⟩

/-- The contexts and the counters after a command that ends are those after its effect. -/
theorem exec_contexts (hq : s.Quiet) (h : exec i s = .next t) : ContextEffect i s t := by
  obtain ⟨t1, hok, -, rfl⟩ := exec_quiet_inv hq h
  cases effect_contexts hok with
  | leaves chans refcnt cfg => exact .leaves chans refcnt cfg
  | stores ch angle cmd refcnt h => exact .stores ch angle cmd refcnt ⟨h.other, h.self⟩
  | rebinds ch k cmd named h cal => exact .rebinds ch k cmd named ⟨h.cfg, h.other, h.self⟩ cal

/-- A command that does not bind leaves every pin and every counter. -/
theorem ContextEffect.of_not_binds (h : ContextEffect i s t) (hi : binds i = false) :
    (∀ c, (t.chan c).pin = (s.chan c).pin) ∧ t.refcnt = s.refcnt := by
  cases h with
  | leaves chans refcnt cfg => exact ⟨fun c => by simp only [State.chan, chans, cfg], refcnt⟩
  | stores ch angle cmd refcnt h =>
    refine ⟨fun c => ?_, refcnt⟩
    by_cases hc : c = ch
    · obtain ⟨angle, valid, hself⟩ := h.self
      rw [hc, hself]
    · rw [h.other c hc]
  | rebinds ch k cmd _ _ _ => rw [hi] at cmd; cases cmd

theorem binds_eq_false (h1 : ∀ ch pin, i ≠ .attach ch pin)
    (h2 : ∀ ch pin lo hi ulo uhi, i ≠ .attachx ch pin lo hi ulo uhi) (h3 : ∀ ch, i ≠ .detach ch) : binds i = false := by
  unfold binds
  split
  · exact absurd rfl (h1 _ _)
  · exact absurd rfl (h2 _ _ _ _ _ _)
  · exact absurd rfl (h3 _)
  · rfl

/-- Settles O57: pins and counters by the command's effect on the contexts; a direction request is an event of a command
that binds. -/
theorem onlyAttachAndDetachBind : Obligations.OnlyAttachAndDetachBind := by
  intro i s t hq h
  have hctx := exec_contexts hq h
  refine ⟨fun h1 h2 h3 => ?_, fun c hc => hctx.chan_other hc⟩
  have hbinds := binds_eq_false h1 h2 h3
  obtain ⟨hpins, hcounters⟩ := hctx.of_not_binds hbinds
  refine ⟨hpins, hcounters, fun e he => ?_⟩
  obtain ⟨es, hlog, hes⟩ := (exec_keeps h).log
  rw [eventsTo_eq hlog] at he
  rcases hes e he with (⟨-, -, hgpio, -⟩ | ⟨-, hb⟩ | ⟨a, rfl, -⟩) | ⟨r, rfl⟩
  · exact hgpio
  · simp [hbinds] at hb
  · rfl
  · rfl

/-- Settles O58: binding keeps the angle, and keeps the calibration unless the command is ATTACHX; storing an angle keeps the
calibration. -/
theorem onlyWriteAndAttachxStore : Obligations.OnlyWriteAndAttachxStore := by
  intro i s t hq h c
  cases exec_contexts hq h with
  | leaves chans _ cfg =>
    have hchan : t.chan c = s.chan c := by simp only [State.chan, chans, cfg]
    rw [hchan]
    exact ⟨fun _ => ⟨rfl, rfl⟩, fun _ => rfl⟩
  | stores ch angle cmd _ h =>
    refine ⟨fun hnot => absurd cmd (hnot ch angle), fun _ => ?_⟩
    by_cases hc : c = ch
    · obtain ⟨_, _, hself⟩ := h.self
      rw [hc, hself]; rfl
    · rw [h.other c hc]
  | rebinds ch k _ _ h cal =>
    by_cases hc : c = ch
    · obtain ⟨pin, k', hself, hk'⟩ := h.self
      rw [hc, hself]
      refine ⟨fun _ => ⟨rfl, rfl⟩, fun hnot => ?_⟩
      have hk : k = (s.chan ch).calibration := cal.resolve_right fun ⟨_, _, _, _, _, e⟩ => hnot _ _ _ _ _ _ e
      obtain rfl : k' = (s.chan ch).calibration := hk'.elim id fun e => e.trans hk
      rfl
    · rw [h.other c hc]
      exact ⟨fun _ => ⟨rfl, rfl⟩, fun _ => rfl⟩

/-- Settles O59: the effect of these five is nothing, but for the counter of free values that A2US can advance. -/
theorem answeringCommandsChangeNothing : Obligations.AnsweringCommandsChangeNothing := by
  intro i s t hq h hi
  obtain ⟨t1, hok, -, rfl⟩ := exec_quiet_inv hq h
  have hlegal : legalEffect i s = .ok s ∨ legalEffect i s = .ok s.takeFree := by
    rcases hi with ⟨pin, rfl⟩ | ⟨a, lo, hi, ulo, uhi, rfl⟩ | ⟨u, us, rfl⟩ | ⟨ch, rfl⟩ | ⟨ch, rfl⟩
    · exact .inl rfl
    · simp only [legalEffect, a2usData]
      split
      · exact .inl rfl
      · exact .inr rfl
    · exact .inl rfl
    · exact .inl rfl
    · exact .inl rfl
  have ht1 : t1 = s ∨ t1 = s.takeFree := by
    unfold effect at hok
    split at hok
    · exact hlegal.imp (fun e => (Except.ok.inj (e.symm.trans hok)).symm) fun e => (Except.ok.inj (e.symm.trans hok)).symm
    · exact .inl (Except.ok.inj hok).symm
  rcases ht1 with rfl | rfl
  · exact ⟨rfl, rfl, rfl, _, rfl⟩
  · exact ⟨rfl, rfl, rfl, _, rfl⟩

/-- Settles O23: the word is `commandWord`'s row with `ch` the channel; READ has no effect, and its answer reads the
context. -/
theorem readAnswersTheAngle : Obligations.ReadAnswersTheAngle := by
  intro ch s hq h
  have hlegal := (legal_channel (c := s.cfg) (i := .read ch) rfl rfl).2 h
  refine ⟨congrArg (fun w => [w]) (commandWord_ch .read ch), ?_⟩
  rw [exec_eq, effect, answerTo, if_pos hlegal, if_pos hlegal, legalEffect, ok_bind, respond_quiet hq, finish_ok]
  rfl

end Sys2Proof.Machine
end

section
/-! PROOFS. The invariant of spec/10_state.md R41 under every effect, whatever the outside does. -/

namespace Sys2Proof.Machine

variable {s t : State} {ch pin : Byte} {b : Binding} {u : UnitCfg} {k : Calibration} {i : Instr}

/-- Wherever a run ends, at its end or at a reset, the invariant holds. -/
def EndsSound (r : Run) : Prop := ∀ t, finish r = .next t → t.Inv

theorem EndsSound.of_ok (h : s.Inv) : EndsSound (.ok s) := fun t e => by
  obtain rfl : s = t := by simpa using e
  exact h

theorem EndsSound.bind {r : Run} {f : State → Run} (hr : EndsSound r) (hf : ∀ a, r = .ok a → EndsSound (f a)) :
    EndsSound (r >>= f) := by
  intro t e
  rcases finish_bind_eq_next.1 e with h | ⟨a, ha, h⟩
  · exact hr t (by rw [h]; rfl)
  · exact hf a ha t h

/-- A part of a command that uses ports only keeps the invariant. -/
theorem PortRun.endsSound {P : Event → Prop} {r : Run} (h : PortRun P s r) (hI : s.Inv) : EndsSound r := fun t e =>
  (finish_next e).elim (fun h1 => (h.ok t h1).inv hI) fun h1 => (h.ended t h1).2.1 hI

theorem endsSound_bound {f : Binding → UnitCfg → Run}
    (hf : ∀ b u, lookup s.cfg pin = some b → unitCfg? s.cfg b.unit = some u → EndsSound (f b u)) :
    EndsSound (boundTo pin s >>= fun b => needUnit b.unit s >>= f b) := by
  rcases boundTo_needUnit_cases pin s f with ⟨x, h⟩ | ⟨x, h⟩ | ⟨b, u, hb, hu, h⟩ <;> rw [h]
  · intro t e; cases e
  · intro t e; cases e
  · exact hf b u hb hu

/-! The updates. -/

/-- A context replaced by one on the same pin. -/
theorem setChan_inv (hI : s.Inv) (h : ch.toNat < s.cfg.nch) {x : Channel} (hx : x.pin = (s.chan ch).pin) :
    (s.setChan ch x).Inv := by
  have hlen := chan_lt hI h
  have hmem := chan_mem hI.1 h
  obtain ⟨hsized, hbound, hexact, hregs⟩ := hI
  refine ⟨by simpa [State.ChannelsSized] using hsized, fun y hy => ?_, countersExact_of fun u hu => ?_, hregs⟩
  · rcases List.mem_or_eq_of_mem_set hy with hy | rfl
    · exact hbound y hy
    · rw [hx]; exact hbound _ hmem
  · have hset := attachedTo_setChan hlen x u
    have hsame : State.Attached s.cfg u x = State.Attached s.cfg u (s.chan ch) := by
      simp only [State.Attached, Channel.attached, hx]
    rw [hsame] at hset
    rw [State.setChan_refcount, refcount_eq hexact hu]
    omega

theorem takeFree_inv (hI : s.Inv) : s.takeFree.Inv := inv_congr rfl rfl rfl rfl hI

/-- A register written with content that fits it. -/
theorem regsWrite_inv (hI : s.Inv) {a : RegAddr} {kind : RegKind} (hk : regKind s.cfg a = some kind) {v : Half}
    (hv : v.toNat < 2 ^ kind.width) : ({ s with regs := s.regs.write a.toNat v } : State).Inv := by
  obtain ⟨hsized, hbound, hexact, hwf, hfit⟩ := hI
  exact ⟨hsized, hbound, hexact, Memory.write_wf hwf _ _, registersFit_write hk hv hfit⟩

theorem freeRegs_inv (hc : s.cfg.WellFormed) (hI : s.Inv) (hu : u ∈ s.cfg.units) (hcmp : b.cmpReg ∈ u.cmpRegs) :
    (freeRegs u b s).Inv := by
  rcases unit_variant hc hu with ⟨hv, -, hl⟩ | ⟨h, hv, -, hl⟩
  · simp only [freeRegs, hv, hl]
    exact emit_inv (regsWrite_inv hI (regKind_wide (wf_dataRegs hc) hu hv (.inr hcmp)) (Config.freeCompare s.free).isLt) _
  · simp only [freeRegs, hv, hl]
    have hlatch := regsWrite_inv hI (regKind_latch (wf_dataRegs hc) hu hl)
      (v := (Config.freeLatch s.free).setWidth 16) (by simp only [RegKind.width, BitVec.toNat_setWidth]; omega)
    refine emit_inv (emit_inv (regsWrite_inv hlatch (regKind_narrow (wf_dataRegs hc) hu hv hl (.inr hcmp)) ?_) _) _
    simp only [RegKind.width, BitVec.toNat_setWidth]
    omega

theorem unspecifiedWrite_inv (hc : s.cfg.WellFormed) (hI : s.Inv) (h : ch.toNat < s.cfg.nch) (hu : u ∈ s.cfg.units)
    (hcmp : b.cmpReg ∈ u.cmpRegs) {x : Channel} (hx : x.pin = (s.chan ch).pin) : (unspecifiedWrite ch x u b s).Inv := by
  have hcore := freeRegs_core u b s
  refine takeFree_inv (setChan_inv (freeRegs_inv hc hI hu hcmp) ?_ ?_)
  · rw [hcore.cfg]; exact h
  · rw [hcore.chan]; exact hx

/-! The effects. -/

section Effects
variable (hc : s.cfg.WellFormed) (hI : s.Inv) (h : ch.toNat < s.cfg.nch)
include hc hI h

theorem detachCore_endsSound : EndsSound (detachCore ch s) := by
  refine endsSound_bound fun b u hb _ => ?_
  have hwrite := (wideWrite_run u b.cmpReg 0 s).any
  refine EndsSound.bind (hwrite.endsSound hI) fun s1 h1 => ?_
  have hgpio := (gpioDir_run (s.chan ch).pin .input s1).any
  have hext1 := hwrite.ok s1 h1
  refine EndsSound.bind (hgpio.endsSound (hext1.inv hI)) fun s2 h2 => .of_ok ?_
  have hext := hext1.trans (hgpio.ok s2 h2)
  refine unbind_inv ?_ (hext.inv hI) ?_ ?_
  · rw [hext.cfg]; exact hc
  · rw [hext.cfg]; exact h
  · rw [hext.cfg, hext.core.chan]; exact hb

omit hc in
/-- Step 1 of an attach leaves the channel unattached, or on the pin already (R131). -/
theorem detachElsewhere_pin (hok : detachElsewhere ch pin s = .ok t) : (t.chan ch).pin = 0 ∨ (t.chan ch).pin = pin := by
  rcases detachElsewhere_ok hok with ⟨-, hcore⟩ | ⟨helse, rfl⟩
  · obtain ⟨b, t1, -, hext, rfl⟩ := detachCore_ok hcore
    have hlen : ch.toNat < t1.chans.length := by rw [hext.core.chans]; exact chan_lt hI h
    exact .inl (by rw [unbind_chan_same hlen])
  · by_contra hpins
    rw [not_or] at hpins
    rw [(attachedElsewhere_iff _ _).2 hpins] at helse
    cases helse

theorem bindEffect_endsSound (hb : lookup s.cfg pin = some b) (hpin : (s.chan ch).pin = 0 ∨ (s.chan ch).pin = pin) :
    EndsSound (bindEffect ch pin b k s) := by
  have hfirst := configureIfFirst_run (admitsPorts_any s.cfg) b
  refine EndsSound.bind (hfirst.endsSound hI) fun s1 h1 => ?_
  have hext1 := hfirst.ok s1 h1
  have hpatch := (rmw_run b.patch s1).any
  refine EndsSound.bind (hpatch.endsSound (hext1.inv hI)) fun s2 h2 => ?_
  have hext := hext1.trans (hpatch.ok s2 h2)
  refine (gpioDir_run pin .output _).endsSound (bindChannel_inv ?_ (hext.inv hI) ?_ ?_ ?_)
  · rw [hext.cfg]; exact hc
  · rw [hext.cfg]; exact h
  · rw [hext.cfg]; exact hb
  · rw [hext.core.chan]; exact hpin

theorem attachEffect_endsSound : EndsSound (attachEffect ch pin k s) := by
  have hdetach : EndsSound (detachElsewhere ch pin s) := by
    unfold detachElsewhere
    split
    · exact detachCore_endsSound hc hI h
    · exact .of_ok hI
  refine EndsSound.bind hdetach fun t ht => ?_
  have hIt : t.Inv := hdetach t (by rw [ht]; rfl)
  have hcfg := ((detachElsewhere_run (admitsPorts_any s.cfg) ch pin).ok t ht).1.cfg
  cases hb : lookup t.cfg pin with
  | none => exact .of_ok hIt
  | some b => exact bindEffect_endsSound (hcfg ▸ hc) hIt (hcfg ▸ h) hb (detachElsewhere_pin hI h ht)

omit hc in
theorem writeAngle_endsSound (angle : Word) : EndsSound (writeAngle ch (s.chan ch) angle s) :=
  endsSound_bound (s := s.setChan ch ((s.chan ch).written angle)) fun _ _ _ _ =>
    (wideWrite_run _ _ _ _).endsSound (setChan_inv hI h rfl)

theorem writeUnspecified_endsSound : EndsSound (writeUnspecified ch (s.chan ch) s) := by
  refine endsSound_bound fun b u hb hu => ?_
  obtain ⟨hmem, hcmp⟩ := binding_unit_mem hc hb hu
  have hslot := portSlot_run (fun _ => True) s
  refine EndsSound.bind (hslot.endsSound hI) fun t ht => .of_ok ?_
  have hext := hslot.ok t ht
  refine unspecifiedWrite_inv ?_ (hext.inv hI) ?_ ?_ hcmp ?_
  · rw [hext.cfg]; exact hc
  · rw [hext.cfg]; exact h
  · rw [hext.cfg]; exact hmem
  · rw [hext.core.chan]

end Effects

theorem legalEffect_endsSound (hc : s.cfg.WellFormed) (hI : s.Inv) (hlegal : i.WellFormed s.cfg) :
    EndsSound (legalEffect i s) := by
  cases i with
  | lookup | us2cnt | read | attached => exact .of_ok hI
  | configure unit =>
    rw [legalEffect]
    split
    · exact .of_ok hI
    · exact (configure_run _ s).endsSound hI
  | a2us angle lo hi ulo uhi =>
    simp only [legalEffect, a2usData]
    split
    · exact .of_ok hI
    · exact .of_ok (takeFree_inv hI)
  | attach | attachx => exact attachEffect_endsSound hc hI ((legal_channel rfl rfl).1 hlegal)
  | detach ch =>
    rw [legalEffect]
    split
    · exact detachCore_endsSound hc hI ((legal_channel rfl rfl).1 hlegal)
    · exact .of_ok hI
  | write ch angle =>
    have hch := (legal_channel (i := .write ch angle) rfl rfl).1 hlegal
    simp only [legalEffect]
    split
    · split
      · exact writeAngle_endsSound hI hch angle
      · exact writeUnspecified_endsSound hc hI hch
    · exact .of_ok hI
  | writeus ch us =>
    rw [legalEffect]
    split
    · exact endsSound_bound fun _ _ _ _ => (wideWrite_run _ _ _ s).endsSound hI
    · exact .of_ok hI

/-- A command keeps the invariant, whatever the outside does. -/
theorem exec_inv (hc : s.cfg.WellFormed) (hI : s.Inv) (h : exec i s = .next t) : t.Inv := by
  have heffect : EndsSound (effect i s) := by
    unfold effect
    split
    · rename_i hlegal; exact legalEffect_endsSound hc hI hlegal
    · exact .of_ok hI
  rw [exec_eq] at h
  refine EndsSound.bind heffect (fun t1 ht1 => (respond_run _ t1).endsSound ?_) t h
  exact heffect t1 (by rw [ht1]; rfl)

end Sys2Proof.Machine
end

section
/-! PROOFS. The step (spec/30_encoding.md R74, R75, R78, spec/70_reset_and_hazards.md R180, spec/60_exceptions.md R171): what
it does with what the unread words begin with, and that it keeps the invariant. -/

namespace Sys2Proof.Machine

variable {s t : State}

/-! What a step does. -/

/-- A step that answers has a well-formed configuration; its slot ends it, or it executes a command, or it answers an illegal
one, or it waits. -/
theorem step_cases (h : step s = .next t) : s.cfg.WellFormed ∧ (idleSlot s = .error (.ended t) ∨
    ∃ u, idleSlot s = .ok u ∧
      ((∃ i n, decode u.unread = .instr i n ∧ exec i (u.advance n) = .next t) ∨
       (∃ why n, decode u.unread = .illegal why n ∧ finish (respond illegalCommand (u.advance n)) = .next t) ∨ t = u)) := by
  unfold step at h
  split at h
  · rename_i hc
    refine ⟨hc, ?_⟩
    unfold takeCommand at h
    cases hslot : idleSlot s with
    | error e =>
      rw [hslot] at h
      exact (finish_next h).elim (fun h => by cases h) .inl
    | ok u =>
      refine .inr ⟨u, rfl, ?_⟩
      simp only [hslot, ok_bind] at h
      cases hd : decode u.unread with
      | empty =>
        simp only [hd, await] at h
        split at h
        · cases h
        · exact .inr (.inr (by simpa [finish] using h.symm))
      | truncated =>
        simp only [hd, await] at h
        split at h
        · cases h
        · exact .inr (.inr (by simpa [finish] using h.symm))
      | illegal why n =>
        simp only [hd] at h
        refine .inr (.inl ⟨why, n, rfl, ?_⟩)
        cases hr : respond illegalCommand (u.advance n) with
        | ok v => simpa [hr, finish] using h
        | error e => simpa [hr] using h
      | instr i n =>
        simp only [hd] at h
        exact .inl ⟨i, n, rfl, h⟩
  · cases h

theorem applyIdleEvent_inv (hI : s.Inv) (e : EnvEvent) : (s.applyIdleEvent e).Inv := by
  cases e with
  | reset =>
    refine resetEvent_inv ?_
    unfold State.dropPartial
    split
    · exact inv_congr rfl rfl rfl rfl hI
    · exact hI
  | send ws => exact applyEvent_inv hI (.send ws)
  | foreignRead a => exact applyEvent_inv hI (.foreignRead a)
  | foreignWrite a v => exact applyEvent_inv hI (.foreignWrite a v)

theorem applyIdleEvent_cfg (s : State) (e : EnvEvent) : (s.applyIdleEvent e).cfg = s.cfg := by
  cases e with
  | reset =>
    show s.dropPartial.cfg = s.cfg
    unfold State.dropPartial
    split <;> rfl
  | send ws => rfl
  | foreignRead a => rfl
  | foreignWrite a v => rfl

theorem foldl_applyIdleEvent (es : List EnvEvent) (hI : s.Inv) :
    (es.foldl State.applyIdleEvent s).Inv ∧ (es.foldl State.applyIdleEvent s).cfg = s.cfg := by
  induction es generalizing s with
  | nil => exact ⟨hI, rfl⟩
  | cons e es ih =>
    obtain ⟨hinv, hcfg⟩ := ih (applyIdleEvent_inv hI e)
    exact ⟨hinv, hcfg.trans (applyIdleEvent_cfg s e)⟩

/-- The slot at the start of a step keeps the invariant and the configuration, whether it ends the step or not. -/
theorem idleSlot_inv (hI : s.Inv) (h : finish (idleSlot s) = .next t) : t.Inv ∧ t.cfg = s.cfg := by
  unfold idleSlot at h
  split at h
  · obtain rfl : s = t := by simpa using h
    exact ⟨hI, rfl⟩
  · rename_i slot later _
    have hfold := foldl_applyIdleEvent (s := { s with env := later }) slot (inv_congr rfl rfl rfl rfl hI)
    split at h
    · obtain rfl : _ = t := by simpa [finish] using h
      exact hfold
    · obtain rfl : _ = t := by simpa [finish] using h
      exact hfold

/-- Settles O50: the slot keeps the invariant, so does the command that is executed (`exec_inv`), and a response changes
nothing that the invariant reads. -/
theorem everyStepKeepsInv : Obligations.EveryStepKeepsInv := by
  intro s t hI h
  obtain ⟨hc, hended | ⟨u, hu, hcmd⟩⟩ := step_cases h
  · exact (idleSlot_inv hI (by rw [hended]; rfl)).1
  · obtain ⟨hIu, hcfg⟩ := idleSlot_inv hI (t := u) (by rw [hu]; rfl)
    have hadv : ∀ n, (u.advance n).Inv := fun n => inv_congr rfl rfl rfl rfl hIu
    rcases hcmd with ⟨i, n, -, hexec⟩ | ⟨why, n, -, hanswer⟩ | rfl
    · exact exec_inv (s := u.advance n) (hcfg ▸ hc) (hadv n) hexec
    · exact (respond_run illegalCommand (u.advance n)).endsSound (hadv n) t hanswer
    · exact hIu

/-! The step of one decoded word list. -/

/-- Settles O12: with a quiet outside the command is taken at once (`takeCommand_instr`); the strict machine tests the
contract where `exec` would run, which does not depend on the command index. -/
theorem stepRunsTheDecodedCommand : Obligations.StepRunsTheDecodedCommand := by
  intro s i n hc hq hd
  have hstep : step s = exec i (s.advance n) := by rw [step_of_wf hc, takeCommand_instr hq hd]
  refine ⟨hstep, ?_⟩
  rw [strictStep_of_wf hc, takeCommand_instr hq hd, hstep]
  show strictExec i (s.advance n) = _
  rw [strictExec, contractKeptBy_advance]

/-- Settles O13: with a quiet outside the response is the only port action. -/
theorem stepAnswersIllegalWords : Obligations.StepAnswersIllegalWords := by
  intro s why n hc hq hd
  have hq' : (s.advance n).Quiet := hq
  have hd' : decode s.unread = .illegal why n := hd
  have htake : takeCommand s = .error (.ended ((s.advance n).answer illegalCommand)) := by
    simp [takeCommand, idleSlot_quiet hq, hd', respond_quiet hq']
  rw [step_of_wf hc, htake]
  rfl

/-- Settles O14: the slot is used first; then `await` stops when the schedule was used up before it, and waits else. -/
theorem stepWaitsForMissingWords : Obligations.StepWaitsForMissingWords := by
  intro s hc
  refine ⟨fun hq hd => ?_, fun hq hd => ?_, fun ws henv hd => ?_⟩
  · have htake : takeCommand s = .error (.fault .commandTruncated) := by
      simp [takeCommand, idleSlot_quiet hq, State.unread, hd, await, hq]
    rw [step_of_wf hc, htake]
    rfl
  · have htake : takeCommand s = .error (.fault .commandStreamEnd) := by
      simp [takeCommand, idleSlot_quiet hq, State.unread, hd, await, hq]
    rw [step_of_wf hc, htake]
    rfl
  · have hslot : idleSlot s = .ok { s with stream := s.stream ++ ws, env := [] } := by
      simp [idleSlot, henv, State.applyIdleEvent, State.applyEvent]
    have htake : takeCommand s = .error (.ended { s with stream := s.stream ++ ws, env := [] }) := by
      simp [takeCommand, hslot, State.unread, hd, await, henv]
    rw [step_of_wf hc, htake]
    rfl

/-- Settles O15: the configuration is checked before anything else. -/
theorem illFormedConfigRefused : Obligations.IllFormedConfigRefused := fun _ hc => if_neg hc

/-- A reset between commands skips the words of a truncated command, and no others (log 8). -/
theorem dropPartial_eq (s : State) : s.dropPartial =
    { s with cpc := if decode s.unread = .truncated then s.stream.length else s.cpc } := by
  unfold State.dropPartial
  split
  · rename_i htrunc; rw [if_pos htrunc]
  · rename_i hwhole; rw [if_neg hwhole]

/-- Settles O16: the reset ends the step in its slot, and drops the words exactly where the next command is truncated. -/
theorem resetBetweenCommands : Obligations.ResetBetweenCommands := by
  intro s hc henv
  have hslot : idleSlot s = .error (.ended (({ s with env := [] } : State).dropPartial.resetEvent)) := by
    simp [idleSlot, henv, State.applyIdleEvent]
  have htake : takeCommand s = .error (.ended (({ s with env := [] } : State).dropPartial.resetEvent)) := by
    rw [takeCommand, hslot, error_bind]
  rw [step_of_wf hc, htake]
  rw [dropPartial_eq]
  rfl

end Sys2Proof.Machine
end

section
/-! PROOFS. A reset before a command's first port action (spec/70_reset_and_hazards.md R180), WRITE and the clamped angle
(spec/43_channel.md R141 clause 2), and the bus under a schedule (spec/20_memory.md R54, R55, R61). -/

namespace Sys2Proof.Machine

variable {s t : State} {ch pin : Byte} {b : Binding} {u : UnitCfg} {k : Calibration} {i : Instr}

/-- In a sound state a channel is unattached, or on a pin with a binding and that binding's unit (10_state R41 clause 1). -/
theorem unattached_or_bound (hc : s.cfg.WellFormed) (hI : s.Inv) (h : ch.toNat < s.cfg.nch) :
    ((s.chan ch).attached = false ∧ (s.chan ch).pin = 0) ∨
    ((s.chan ch).attached = true ∧ ∃ b u, lookup s.cfg (s.chan ch).pin = some b ∧ unitCfg? s.cfg b.unit = some u ∧
      u ∈ s.cfg.units ∧ b.cmpReg ∈ u.cmpRegs) := by
  by_cases hp : (s.chan ch).pin = 0
  · exact .inl ⟨attached_eq_false hp, hp⟩
  · obtain ⟨b, hb⟩ := bound_of_attached hI h hp
    obtain ⟨u, hu, hmem, -, hcmp⟩ := lookup_unit hc hb
    exact .inr ⟨attached_of_bound hc hb, b, u, hb, hu, hmem, hcmp⟩

/-! A reset in the next slot. -/

/-- The state a reset in the one slot leaves, when it ends a command there. -/
def abandoned (s : State) : State := ({ s with env := [] } : State).resetEvent

theorem portSlot_reset (h : s.env = [[.reset]]) : portSlot s = .error (.ended (abandoned s)) := by
  simp [portSlot, h, State.applyEvent, abandoned]

section Reset
variable (h : s.env = [[.reset]])
include h

theorem rmw_reset (p : Patch) : rmw p s = .error (.ended (abandoned s)) := by
  simp [rmw, memRead8, portSlot_reset h]

theorem respond_reset (r : Response) : respond r s = .error (.ended (abandoned s)) := by
  simp [respond, portSlot_reset h]

variable (hc : s.cfg.WellFormed)
include hc

theorem wideWrite_reset (hu : u ∈ s.cfg.units) (a : RegAddr) (v : Half) :
    wideWrite u a v s = .error (.ended (abandoned s)) := by
  rcases unit_variant hc hu with ⟨hv, -, -⟩ | ⟨l, hv, -, hl⟩
  · simp [wideWrite, hv, memWrite16, portSlot_reset h]
  · simp [wideWrite, hv, hl, memWriteLocked, portSlot_reset h]

/-- `Configure(u)` begins with a patch, or with the TOP write of a unit that has none (log 22). -/
theorem configure_reset (hu : u ∈ s.cfg.units) : configure u s = .error (.ended (abandoned s)) := by
  cases hw : u.wgmPatches with
  | cons p ps => simp [configure, hw, applyPatches, rmw_reset h]
  | nil =>
    cases hp : u.prescPatches with
    | cons p ps => simp [configure, hw, hp, applyPatches, rmw_reset h]
    | nil => simp [configure, hw, hp, applyPatches, wideWrite_reset h hc hu]

theorem detachCore_reset (hb : lookup s.cfg (s.chan ch).pin = some b) : detachCore ch s = .error (.ended (abandoned s)) := by
  obtain ⟨u, hu, hmem, -, -⟩ := lookup_unit hc hb
  simp [detachCore, boundTo_some hb, needUnit_some hu, cmpWrite, wideWrite_reset h hc hmem]

theorem bindEffect_reset (hb : lookup s.cfg pin = some b) : bindEffect ch pin b k s = .error (.ended (abandoned s)) := by
  obtain ⟨u, hu, hmem, -, -⟩ := lookup_unit hc hb
  by_cases hcnt : s.configured b.unit = true
  · simp [bindEffect, configureIfFirst, hcnt, applyModePatch, rmw_reset h]
  · simp [bindEffect, configureIfFirst, hcnt, needUnit_some hu, configure_reset h hc hmem]

variable (hI : s.Inv) (hch : ch.toNat < s.cfg.nch)
include hI hch

/-- An attach has no port action before its answer, or the reset ends it at the first. -/
theorem attachEffect_reset : attachEffect ch pin k s = .ok s ∨ attachEffect ch pin k s = .error (.ended (abandoned s)) := by
  by_cases helse : (s.chan ch).attachedElsewhere pin = true
  · obtain ⟨b, hb⟩ := bound_of_attached hI hch ((attachedElsewhere_iff _ _).1 helse).1
    simp [attachEffect, detachElsewhere, helse, detachCore_reset h hc hb]
  · cases hb : lookup s.cfg pin with
    | none => simp [attachEffect, detachElsewhere, helse, hb]
    | some b => simp [attachEffect, detachElsewhere, helse, hb, bindEffect_reset h hc hb]

end Reset

/-- Before its first port action a command has done nothing that the reset does not undo, but for taking free values. -/
theorem legalEffect_reset (h : s.env = [[.reset]]) (hc : s.cfg.WellFormed) (hI : s.Inv) (hlegal : i.WellFormed s.cfg) :
    legalEffect i s = .ok s ∨ legalEffect i s = .ok s.takeFree ∨ legalEffect i s = .error (.ended (abandoned s)) := by
  cases i with
  | lookup | us2cnt | read | attached => exact .inl rfl
  | configure unit =>
    obtain ⟨u, hu⟩ := (legal_unit rfl rfl).1 hlegal
    exact .inr (.inr (by simp only [legalEffect, hu, configure_reset h hc (unitCfg?_some hu).1]))
  | a2us angle lo hi ulo uhi =>
    simp only [legalEffect, a2usData]
    split
    · exact .inl rfl
    · exact .inr (.inl rfl)
  | attach | attachx => exact (attachEffect_reset h hc hI ((legal_channel rfl rfl).1 hlegal)).imp_right .inr
  | detach ch =>
    rcases unattached_or_bound hc hI ((legal_channel rfl rfl).1 hlegal) with ⟨hun, -⟩ | ⟨hatt, b, u, hb, -⟩
    · exact .inl (by simp [legalEffect, hun])
    · exact .inr (.inr (by simp [legalEffect, hatt, detachCore_reset h hc hb]))
  | write ch angle =>
    rcases unattached_or_bound hc hI ((legal_channel rfl rfl).1 hlegal) with ⟨hun, -⟩ | ⟨hatt, b, u, hb, hu, hmem, -⟩
    · exact .inl (by simp [legalEffect, hun])
    · have hwrite : writeAngle ch (s.chan ch) angle s = .error (.ended (abandoned s)) := by
        simp only [writeAngle, boundTo_some (s := s.setChan ch _) hb, needUnit_some (s := s.setChan ch _) hu, ok_bind, cmpWrite]
        exact wideWrite_reset (s := s.setChan ch _) h hc hmem _ _
      have hfree : writeUnspecified ch (s.chan ch) s = .error (.ended (abandoned s)) := by
        simp [writeUnspecified, boundTo_some hb, needUnit_some hu, portSlot_reset h]
      exact .inr (.inr (by simp [legalEffect, hatt, hwrite, hfree]))
  | writeus ch us =>
    rcases unattached_or_bound hc hI ((legal_channel rfl rfl).1 hlegal) with ⟨hun, -⟩ | ⟨hatt, b, u, hb, hu, hmem, -⟩
    · exact .inl (by simp [legalEffect, hun])
    · have hpulse : writePulse (s.chan ch) us s = .error (.ended (abandoned s)) := by
        simp only [writePulse, boundTo_some hb, needUnit_some hu, ok_bind, cmpWrite, wideWrite_reset h hc hmem]
      exact .inr (.inr (by simp [legalEffect, hatt, hpulse]))

/-- Settles O17: the reset ends the effect or, where that has no port action, the response. -/
theorem resetAbandonsCommand : Obligations.ResetAbandonsCommand := by
  intro i s hc hI henv
  have heffect : effect i s = .ok s ∨ effect i s = .ok s.takeFree ∨ effect i s = .error (.ended (abandoned s)) := by
    unfold effect
    split
    · rename_i hlegal; exact legalEffect_reset henv hc hI hlegal
    · exact .inl rfl
  rw [exec_eq]
  rcases heffect with h | h | h
  · rw [h, ok_bind, respond_reset henv]
    exact ⟨_, rfl, rfl, rfl, rfl, rfl, rfl, rfl, rfl, rfl⟩
  · rw [h, ok_bind, respond_reset (s := s.takeFree) henv]
    exact ⟨_, rfl, rfl, rfl, rfl, rfl, rfl, rfl, rfl, rfl⟩
  · rw [h, error_bind]
    exact ⟨_, rfl, rfl, rfl, rfl, rfl, rfl, rfl, rfl, rfl⟩

/-! WRITE and the clamped angle. -/

/-- Settles O44: the context that is written and the pulse both read the angle through the clamp, and the free values do not
read it at all. -/
theorem writeDependsOnTheClampedAngle : Obligations.WriteDependsOnTheClampedAngle := by
  intro ch a a' s h
  have hwrite : writeAngle ch (s.chan ch) a s = writeAngle ch (s.chan ch) a' s := by
    simp only [writeAngle, Channel.written, Channel.pulse, h]
  have heffect : effect (.write ch a) s = effect (.write ch a') s := by
    by_cases hch : ch.toNat < s.cfg.nch
    · have hlegal : ∀ x, (Instr.write ch x).WellFormed s.cfg := fun x => (legal_channel rfl rfl).2 hch
      simp only [effect, if_pos (hlegal a), if_pos (hlegal a'), legalEffect, hwrite]
    · have hillegal : ∀ x, ¬ (Instr.write ch x).WellFormed s.cfg := fun x => mt (legal_channel rfl rfl).1 hch
      simp only [effect, if_neg (hillegal a), if_neg (hillegal a')]
  have hanswer : answerTo (.write ch a) s = answerTo (.write ch a') s := rfl
  rw [exec_eq, exec_eq, heffect, hanswer]

/-! The bus. -/

/-- A completed locked pair is the pair of writes right after its slot, whatever the slot did. -/
theorem wideWrite_narrow_ok {h a : RegAddr} {v : Half} (hv : u.variant = .narrow) (hl : u.hlatch = some h)
    (hok : wideWrite u a v s = .ok t) : ∃ s1 : State, s1.cfg = s.cfg ∧ t = s1.wideAtomic u a v := by
  simp only [wideWrite, hv, hl, memWriteLocked] at hok
  obtain ⟨s1, hslot, hok⟩ := bind_eq_ok.1 hok
  refine ⟨s1, (portSlot_ok hslot).cfg, ?_⟩
  split at hok
  · cases hok
    simp only [State.wideAtomic, hv, hl]
  · cases hok

/-- Settles O46: no slot stands inside the pair, so it has the effect of `wideAtomic` on the state the slot left. -/
theorem lockedPairIsIndivisible : Obligations.LockedPairIsIndivisible := by
  intro u h a v s t hc hu hv hl ha hok
  obtain ⟨s1, hcfg, rfl⟩ := wideWrite_narrow_ok hv hl hok
  have hc1 : s1.cfg.WellFormed := hcfg ▸ hc
  have hu1 : u ∈ s1.cfg.units := hcfg ▸ hu
  rw [wideAtomic_reg_same hc1 hu1 ha, cntBits_of_latch hc hu hl, wideAtomic_reg_latch hc1 hu1 ha hl]
  exact ⟨rfl, rfl⟩

/-- Settles O47: the write puts back the byte that was read before the foreign write, patched. -/
theorem foreignWriteInsideRmwIsLost : Obligations.ForeignWriteInsideRmwIsLost := by
  intro p v s hk henv
  have hrmw : rmw p s = .ok (((({ s with env := [] } : State).emit (.rd p.reg (s.reg8 p.reg))).store p.reg v).store p.reg
      ((patched p (s.reg8 p.reg)).setWidth 16) |>.emit (.wr8 p.reg (patched p (s.reg8 p.reg)))) := by
    simp [rmw, memRead8, memWrite8, portSlot, henv, hk, State.applyEvent]
    rfl
  refine ⟨_, hrmw, ?_, fun a ha => ?_⟩
  · simp only [State.reg, State.emit_regs, State.store_regs, State.store_cfg, State.emit_cfg, busStore_mode hk,
      setWidth_8_16_8]
    rw [BitVec.toNat_setWidth_of_le (by omega)]
    rfl
  · simp only [State.reg, State.emit_regs, State.store_regs, Memory.read_busStore_other _ ha]

/-- Settles O48: two pins have different compare registers and patches that do not meet, and a pin's patch meets no unit's
patch. -/
theorem pinsDoNotInterfere : Obligations.PinsDoNotInterfere := by
  intro p q b d u count s hc hq hpq hb hd hu
  obtain ⟨hmem, hcmp⟩ := binding_unit_mem hc hb hu
  obtain ⟨v, -, hmem', -, hcmp'⟩ := lookup_unit hc hd
  obtain ⟨hcmps, hpatches⟩ := pins_disjoint hc hpq hb hd
  have hk := lookup_patch hc hb
  refine ⟨⟨_, wideWrite_quiet hq hc hmem (.inr hcmp) count, ?_⟩, _, rmw_quiet hq hk, ?_, fun r hr => ?_⟩
  · exact wideAtomic_reg_other s hcmps.symm (cmp_ne_latch hc hmem' hmem hcmp') count
  · exact rmwAtomic_field hk (hpatches.imp Ne.symm fun e => by rw [BitVec.and_comm]; exact e)
  · exact rmwAtomic_field hk (unit_pin_disjoint hc hb hr)

/-! Commands as atomic transitions. -/

/-- With a quiet outside CONFIGURE of a unit is `Configure` and the answer OK (41_timer_config R103). -/
theorem exec_configure_quiet (hq : s.Quiet) (hc : s.cfg.WellFormed) {unit : Byte} (hu : unitCfg? s.cfg unit = some u) :
    exec (.configure unit) s = .next ((s.configureAtomic u).answer okResponse) := by
  have hlegal : (Instr.configure unit).WellFormed s.cfg := (legal_unit rfl rfl).2 ⟨u, hu⟩
  have hq' : (s.configureAtomic u).Quiet := by simpa [State.Quiet] using hq
  rw [exec_eq, effect, answerTo, if_pos hlegal, if_pos hlegal]
  simp only [legalEffect, legalAnswer, hu, configure_quiet hq hc (unitCfg?_some hu).1, ok_bind, respond_quiet hq', finish_ok]

/-- With a quiet outside DETACH of an unattached channel answers OK, and does nothing else (43_channel R134). -/
theorem exec_detach_unattached (hq : s.Quiet) (h : ch.toNat < s.cfg.nch) (hp : (s.chan ch).pin = 0) :
    exec (.detach ch) s = .next (s.answer okResponse) := by
  have hlegal := (legal_channel (c := s.cfg) (i := .detach ch) rfl rfl).2 h
  rw [exec_eq, effect, answerTo, if_pos hlegal, if_pos hlegal]
  simp [legalEffect, legalAnswer, attached_eq_false hp, respond_quiet hq]

/-- With a quiet outside READ answers what the context holds, and does nothing else (43_channel R137). -/
theorem exec_read_quiet (hq : s.Quiet) (h : ch.toNat < s.cfg.nch) : exec (.read ch) s = .next (s.answer
    { status := .ok, flag := (s.chan ch).readFlag, data0 := (s.chan ch).readData, data1 := 0 }) :=
  (readAnswersTheAngle ch s hq h).2

/-- With a quiet outside WRITE of an attached channel under a violated contract leaves free values (43_channel R135). -/
theorem exec_write_violated (hc : s.cfg.WellFormed) (hq : s.Quiet) (hb : lookup s.cfg (s.chan ch).pin = some b)
    (hu : unitCfg? s.cfg b.unit = some u) (h : ch.toNat < s.cfg.nch)
    (hk : ¬ raw (s.chan ch).minAngle < raw (s.chan ch).maxAngle) (angle : Word) :
    exec (.write ch angle) s = .next ((unspecifiedWrite ch (s.chan ch) u b s).answer okResponse) := by
  have hlegal := (legal_channel (c := s.cfg) (i := .write ch angle) rfl rfl).2 h
  have hatt := attached_of_bound hc hb
  have hbroken : (s.chan ch).contractKept = false := decide_eq_false hk
  have hq' : (unspecifiedWrite ch (s.chan ch) u b s).Quiet := (freeRegs_env u b s).trans hq
  rw [exec_eq, effect, answerTo, if_pos hlegal, if_pos hlegal]
  simp only [legalEffect, legalAnswer, hatt, hbroken, if_true, Bool.false_eq_true, if_false, writeUnspecified, boundTo_some hb,
    needUnit_some hu, portSlot_quiet hq, ok_bind, respond_quiet hq', finish_ok]

section Attach
variable (hc : s.cfg.WellFormed) (hI : s.Inv) (hq : s.Quiet) (h : ch.toNat < s.cfg.nch)
include hc hI hq h

/-- ATTACHX is `AttachCore` with its operands (43_channel R132). -/
theorem exec_attachx_quiet (pin : Byte) (k : Calibration) :
    exec (.attachx ch pin k.minAngle k.maxAngle k.minUs k.maxUs) s = .next (s.attachAtomic ch pin k) := by
  have hexec : exec (.attachx ch pin k.minAngle k.maxAngle k.minUs k.maxUs) s =
    execAttachx ch pin k.minAngle k.maxAngle k.minUs k.maxUs s := rfl
  rw [hexec, execAttachx, onChannel_legal h, attachCore_quiet hc hI hq h, finish_ok]

/-- ATTACH is `AttachCore` with the stored calibration (43_channel R133). -/
theorem exec_attach_stored_quiet (pin : Byte) :
    exec (.attach ch pin) s = .next (s.attachAtomic ch pin (s.chan ch).calibration) := by
  have hexec : exec (.attach ch pin) s = execAttach ch pin s := rfl
  rw [hexec, execAttach, onChannel_legal h, attachCore_quiet hc hI hq h, finish_ok]

end Attach

/-- Settles O52: command by command, the run that the quiet outside allows is the transition. -/
theorem commandsAreAtomicTransitions : Obligations.CommandsAreAtomicTransitions := by
  intro i s hc hI hq
  by_cases hlegal : i.WellFormed s.cfg
  · rw [State.atomic, if_pos hlegal]
    cases i with
    | lookup pin => exact exec_lookup_quiet hq pin
    | read ch => exact exec_read_quiet hq ((legal_channel rfl rfl).1 hlegal)
    | attached ch => exact exec_attached_quiet hq ((legal_channel rfl rfl).1 hlegal)
    | attach ch pin => exact exec_attach_stored_quiet hc hI hq ((legal_channel rfl rfl).1 hlegal) pin
    | attachx ch pin lo hi ulo uhi =>
      exact exec_attachx_quiet hc hI hq ((legal_channel rfl rfl).1 hlegal) pin ⟨lo, hi, ulo, uhi⟩
    | configure unit =>
      obtain ⟨u, hu⟩ := (legal_unit rfl rfl).1 hlegal
      rw [exec_configure_quiet hq hc hu]
      simp only [State.commandAtomic, hu]
    | us2cnt unit us =>
      obtain ⟨u, hu⟩ := (legal_unit rfl rfl).1 hlegal
      rw [exec_us2cnt_quiet hq hu]
      simp only [State.commandAtomic, hu]
    | a2us angle lo hi ulo uhi =>
      by_cases hk : raw lo < raw hi
      · rw [exec_a2us_quiet hq angle hk]
        simp only [State.commandAtomic, a2usData, if_pos hk]
      · rw [exec_a2us_violated hq angle hk]
        simp only [State.commandAtomic, a2usData, if_neg hk]
    | detach ch =>
      have h := (legal_channel (i := .detach ch) rfl rfl).1 hlegal
      rcases unattached_or_bound hc hI h with ⟨hun, hp⟩ | ⟨hatt, b, u, hb, -⟩
      · rw [exec_detach_unattached hq h hp]
        simp [State.commandAtomic, hun]
      · rw [exec_detach_bound hc hq hb h]
        simp [State.commandAtomic, hatt]
    | write ch angle =>
      have h := (legal_channel (i := .write ch angle) rfl rfl).1 hlegal
      rcases unattached_or_bound hc hI h with ⟨hun, hp⟩ | ⟨hatt, b, u, hb, hu, -⟩
      · rw [exec_write_unattached hq h hp]
        simp [State.commandAtomic, hun]
      · by_cases hk : raw (s.chan ch).minAngle < raw (s.chan ch).maxAngle
        · rw [exec_write_bound hc hq hb hu h hk]
          simp [State.commandAtomic, hatt, State.onBinding, hb, hu, Channel.contractKept, hk]
        · rw [exec_write_violated hc hq hb hu h hk]
          simp [State.commandAtomic, hatt, State.onBinding, hb, hu, Channel.contractKept, hk]
    | writeus ch us =>
      have h := (legal_channel (i := .writeus ch us) rfl rfl).1 hlegal
      rcases unattached_or_bound hc hI h with ⟨hun, hp⟩ | ⟨hatt, b, u, hb, hu, -⟩
      · rw [exec_writeus_unattached hq h hp]
        simp [State.commandAtomic, hun]
      · rw [exec_writeus_bound hc hq hb hu h]
        simp [State.commandAtomic, hatt, State.onBinding, hb, hu]
  · rw [State.atomic, if_neg hlegal]
    exact illegalOperandsAnswered i s hq hlegal

end Sys2Proof.Machine
end

section
/-! PROOFS. CONFIGURE with a quiet outside (spec/41_timer_config.md R102 to R106). -/

namespace Sys2Proof.Machine

variable {s t : State} {u : UnitCfg}

/-! Registers after `Configure`. -/

section Configure
variable (hc : s.cfg.WellFormed) (hu : u ∈ s.cfg.units)

/-- `Configure` leaves every register that its settings do not name (R104). -/
theorem configureAtomic_reg_other {a : RegAddr} (h1 : a ∉ (u.wgmPatches ++ u.prescPatches).map (·.reg)) (h2 : a ≠ u.topReg)
    (h3 : u.hlatch ≠ some a) : (s.configureAtomic u).reg a = s.reg a := by
  rw [configureAtomic_eq, wideAtomic_reg_other _ h2 h3, foldl_rmw_reg_other _ _ h1]

include hu in
/-- A register that holds no data is, after `Configure`, what the patches made of it. -/
theorem configureAtomic_reg8_mode {a : RegAddr} (ha : a ∉ s.cfg.dataRegs) :
    (s.configureAtomic u).reg8 a = ((u.wgmPatches ++ u.prescPatches).foldl State.rmwAtomic s).reg8 a := by
  have htop : a ≠ u.topReg := fun e => ha (mem_dataRegs hu (.inl e))
  have hlatch : u.hlatch ≠ some a := fun e => ha (mem_dataRegs hu (.inr (.inr e)))
  simp only [configureAtomic_eq, State.reg8, wideAtomic_reg_other _ htop hlatch]

include hc hu

theorem unitPatches_mode : ∀ p ∈ u.wgmPatches ++ u.prescPatches, regKind s.cfg p.reg = some .mode := fun _ hp =>
  unitPatch_mode hc hu hp

/-- Outside the masks of the unit's patches a mode register keeps its bits (R104, 20_memory R56). -/
theorem configureAtomic_bit_other {a : RegAddr} (ha : a ∉ s.cfg.dataRegs) {n : Nat}
    (h : ∀ p ∈ u.wgmPatches ++ u.prescPatches, p.reg = a → p.mask.getLsbD n = false) :
    ((s.configureAtomic u).reg8 a).getLsbD n = (s.reg8 a).getLsbD n := by
  rw [configureAtomic_reg8_mode hu ha, foldl_rmw_bit_other (unitPatches_mode hc hu) h]

theorem configureAtomic_top : ((s.configureAtomic u).reg u.topReg).toNat = u.topValue := by
  rw [configureAtomic_eq, wideAtomic_reg_same (by simpa using hc) (by simpa using hu) (.inl rfl), topValue_toNat hc hu,
    Nat.mod_eq_of_lt (topValue_lt hc hu)]

theorem configureAtomic_latch {h : RegAddr} (hl : u.hlatch = some h) :
    ((s.configureAtomic u).reg h).toNat = u.topValue / 2 ^ 8 := by
  have hlt := topValue_lt hc hu
  rw [cntBits_of_latch hc hu hl] at hlt
  rw [configureAtomic_eq, wideAtomic_reg_latch (by simpa using hc) (by simpa using hu) (.inl rfl) hl, topValue_toNat hc hu,
    Nat.mod_eq_of_lt (by omega)]

/-- After `Configure` the unit holds its configured fields and TOP (R102). -/
theorem configureAtomic_holds : (s.configureAtomic u).UnitHolds u := by
  refine ⟨fun p hp => ?_, BitVec.eq_of_toNat_eq ?_⟩
  · have hmem := mem_unitPatches hu hp
    rw [configureAtomic_reg8_mode hu (unitPatch_not_data hc hmem)]
    exact foldl_rmw_holds (unitPatches_mode hc hu) (unitPatches_disjoint hc hu)
      (fun q hq => unitPatch_value hc (mem_unitPatches hu hq)) hp
  · rw [configureAtomic_top hc hu, topValue_toNat hc hu]

end Configure

/-- Settles O29: CONFIGURE is `Configure` and the answer; what it sets is `configureAtomic_holds`, the rest its frame. -/
theorem configureSetsTheUnit : Obligations.ConfigureSetsTheUnit := by
  intro unit u s hc hq hunit
  have hu := (unitCfg?_some hunit).1
  obtain ⟨hchans, hrefcnt, hcfg, hcpc, hfree⟩ := configureAtomic_core s u
  refine ⟨_, exec_configure_quiet hq hc hunit, (configureAtomic_holds hc hu).1, fun a ha n _ hmask => ?_,
    configureAtomic_top hc hu, fun l hl => configureAtomic_latch hc hu hl,
    fun a h1 h2 h3 => configureAtomic_reg_other h1 h2 h3, hchans, hrefcnt, hcfg, configureAtomic_stream s u, hcpc, hfree⟩
  obtain ⟨p, hp, rfl⟩ := List.mem_map.1 ha
  exact configureAtomic_bit_other hc hu (unitPatch_not_data hc (mem_unitPatches hu hp)) hmask

/-! The history of `Configure`. -/

/-- A compare write accesses its register and the unit's latch. -/
theorem compareWrite_accessed {a c : RegAddr} {n : Nat} (h : c ∈ (Event.compareWrite u a n).accessed) :
    c = a ∨ u.hlatch = some c := by
  unfold Event.compareWrite at h
  split at h
  · exact .inl (by simpa [Event.accessed] using h)
  · rename_i l hl
    simp only [Event.accessed, List.mem_cons, List.not_mem_nil, or_false] at h
    exact h.elim (fun e => .inr (e ▸ hl)) .inl

/-- The registers that a unit's settings name are no unit's compare registers (R106). -/
theorem settings_not_cmpReg {c : Config} (hc : c.WellFormed) (hu : u ∈ c.units) {v : UnitCfg} (hv : v ∈ c.units)
    {a : RegAddr} (ha : a ∈ (u.wgmPatches ++ u.prescPatches).map (·.reg) ∨ a = u.topReg ∨ u.hlatch = some a) :
    a ∉ v.cmpRegs := by
  rcases ha with ha | rfl | hl
  · obtain ⟨p, hp, rfl⟩ := List.mem_map.1 ha
    obtain ⟨-, -, hcmp⟩ := patch_ne_data hc hv (mem_unitPatches hu hp)
    exact hcmp
  · exact (top_ne_data hc hu hv).1
  · exact fun hcmp => cmp_ne_latch hc hv hu hcmp hl

/-- Settles O30: the history is `configureAtomic_log`, and its events access the registers of the settings only. -/
theorem configureHistory : Obligations.ConfigureHistory := by
  intro unit u s hc hq hunit
  have hu := (unitCfg?_some hunit).1
  refine ⟨_, _, exec_configure_quiet hq hc hunit, rfl, ?_, ?_, fun e he a ha => ?_⟩
  · rw [answer_log, configureAtomic_log hc hu, ← List.append_assoc]
    rfl
  · rw [List.length_append, patchEvents_length, List.length_append]
    rfl
  · have hnamed : a ∈ (u.wgmPatches ++ u.prescPatches).map (·.reg) ∨ a = u.topReg ∨ u.hlatch = some a := by
      rcases List.mem_append.1 he with he | he
      · exact .inl (patchEvents_accessed he ha)
      · rw [List.mem_singleton.1 he] at ha
        exact .inr (compareWrite_accessed ha)
    exact ⟨hnamed, fun v hv => settings_not_cmpReg hc hu hv hnamed⟩

/-! A unit that is configured already. -/

/-- A patch whose field holds its value leaves the whole register (R105). -/
theorem rmwAtomic_reg_held {p : Patch} (hI : s.Inv) (hk : regKind s.cfg p.reg = some .mode) (hv : p.value &&& ~~~p.mask = 0)
    (h : s.reg8 p.reg &&& p.mask = p.value) (a : RegAddr) : (s.rmwAtomic p).reg a = s.reg a := by
  by_cases ha : a = p.reg
  · have hfit := reg_fits hI hk
    have hbyte := congrArg BitVec.toNat ((rmwAtomic_reg8_same hk).trans (patched_holds hv h))
    have hfit' := reg_fits (rmwAtomic_inv hI p) (a := p.reg) hk
    simp only [State.reg8, BitVec.toNat_setWidth, RegKind.width] at hbyte hfit hfit'
    rw [ha]
    apply BitVec.eq_of_toNat_eq
    omega
  · exact rmwAtomic_reg_other s p ha

theorem foldl_rmw_reg_held {ps : List Patch} (hI : s.Inv) (hk : ∀ p ∈ ps, regKind s.cfg p.reg = some .mode)
    (hv : ∀ p ∈ ps, p.value &&& ~~~p.mask = 0) (h : ∀ p ∈ ps, s.reg8 p.reg &&& p.mask = p.value) (a : RegAddr) :
    (ps.foldl State.rmwAtomic s).reg a = s.reg a := by
  induction ps generalizing s with
  | nil => rfl
  | cons p ps ih =>
    have hp := rmwAtomic_reg_held hI (hk p (by simp)) (hv p (by simp)) (h p (by simp))
    rw [List.foldl_cons, ih (s := s.rmwAtomic p) (rmwAtomic_inv hI p) (fun q hq => hk q (by simp [hq]))
      (fun q hq => hv q (by simp [hq])) fun q hq => ?_, hp]
    rw [State.reg8, hp]
    exact h q (by simp [hq])

/-- Patches whose fields hold their values write back the bytes that are there (R105). -/
theorem patchEvents_held {old : RegAddr → Byte} {ps : List Patch} (hv : ∀ p ∈ ps, p.value &&& ~~~p.mask = 0)
    (h : ∀ p ∈ ps, old p.reg &&& p.mask = p.value) {a : RegAddr} {v : Byte} (hmem : Event.wr8 a v ∈ patchEvents old ps) :
    old a = v := by
  induction ps with
  | nil => cases hmem
  | cons p ps ih =>
    have hp : patched p (old p.reg) = old p.reg := patched_holds (hv p (by simp)) (h p (by simp))
    have hsame : (fun a => if a = p.reg then old p.reg else old a) = old := by
      funext a
      split
      · rename_i e; rw [e]
      · rfl
    simp only [patchEvents, hp, hsame, List.mem_cons, reduceCtorEq, Event.wr8.injEq, false_or] at hmem
    rcases hmem with ⟨rfl, rfl⟩ | hmem
    · rfl
    · exact ih (fun q hq => hv q (by simp [hq])) (fun q hq => h q (by simp [hq])) hmem

/-- Patches make 8-bit accesses only. -/
theorem patchEvents_narrow {old : RegAddr → Byte} {ps : List Patch} {e : Event} (h : e ∈ patchEvents old ps) :
    ∃ a v, e = .rd a v ∨ e = .wr8 a v := by
  induction ps generalizing old with
  | nil => cases h
  | cons p ps ih =>
    simp only [patchEvents, List.mem_cons] at h
    rcases h with rfl | rfl | h
    · exact ⟨_, _, .inl rfl⟩
    · exact ⟨_, _, .inr rfl⟩
    · exact ih h

/-- Settles O31: the patches hold already, so they write back what is there; the TOP write writes the value that TOP holds. -/
theorem configureIdempotent : Obligations.ConfigureIdempotent := by
  intro unit u s hc hI hq hunit hholds
  obtain ⟨hfields, htop⟩ := hholds
  have hu := (unitCfg?_some hunit).1
  have hv : ∀ p ∈ u.wgmPatches ++ u.prescPatches, p.value &&& ~~~p.mask = 0 := fun p hp =>
    unitPatch_value hc (mem_unitPatches hu hp)
  have hevents : s.eventsTo ((s.configureAtomic u).answer okResponse) =
      patchEvents s.reg8 (u.wgmPatches ++ u.prescPatches) ++
        [Event.compareWrite u u.topReg u.topValue, .respond okResponse] := by
    refine eventsTo_eq ?_
    rw [answer_log, configureAtomic_log hc hu, List.append_assoc, List.append_assoc]
    rfl
  have hlast : ∀ e, e ∈ s.eventsTo ((s.configureAtomic u).answer okResponse) →
      e ∈ patchEvents s.reg8 (u.wgmPatches ++ u.prescPatches) ∨ e = Event.compareWrite u u.topReg u.topValue ∨
        e = .respond okResponse := fun e he => by
    rw [hevents] at he
    simpa using he
  refine ⟨_, exec_configure_quiet hq hc hunit, fun a hl => ?_, fun h hl => configureAtomic_latch hc hu hl,
    fun h hv a v he => ?_, fun a v he => ?_, fun a v he => ?_⟩
  · by_cases ha : a = u.topReg
    · subst ha
      exact (configureAtomic_holds hc hu).2.trans htop.symm
    · rw [answer_reg, configureAtomic_eq, wideAtomic_reg_other _ ha hl,
        foldl_rmw_reg_held hI (unitPatches_mode hc hu) hv hfields]
  · rcases hlast _ he with he | he | he
    · obtain ⟨_, _, e | e⟩ := patchEvents_narrow he <;> cases e
    · unfold Event.compareWrite at he
      split at he
      · cases he
      · cases he
        rw [htop, BitVec.setWidth_ofNat_of_le (by omega)]
    · cases he
  · rcases hlast _ he with he | he | he
    · exact patchEvents_held hv hfields he
    · unfold Event.compareWrite at he
      split at he <;> cases he
    · cases he
  · rcases hlast _ he with he | he | he
    · obtain ⟨_, _, e | e⟩ := patchEvents_narrow he <;> cases e
    · unfold Event.compareWrite at he
      split at he
      · cases he
        exact htop
      · cases he
    · cases he

end Sys2Proof.Machine
end

section
/-! PROOFS. DETACH of an unattached channel and WRITE with a quiet outside (spec/43_channel.md R134, R135). -/

namespace Sys2Proof.Machine

variable {s t : State} {ch : Byte}

/-! DETACH. -/

/-- A completed DETACH leaves its channel unattached, and the outside quiet. -/
theorem exec_detach_ends (hc : s.cfg.WellFormed) (hI : s.Inv) (hq : s.Quiet) (h : ch.toNat < s.cfg.nch)
    (hexec : exec (.detach ch) s = .next t) : t.Quiet ∧ t.cfg = s.cfg ∧ t.chan ch = { s.chan ch with pin := 0 } := by
  rcases unattached_or_bound hc hI h with ⟨-, hp⟩ | ⟨-, b, u, hb, hu, -⟩
  · rw [exec_detach_unattached hq h hp] at hexec
    obtain rfl := Host.Outcome.next.inj hexec
    exact ⟨hq, rfl, by rw [answer_chan, ← hp]⟩
  · obtain ⟨t', hexec', hchan, -⟩ := detachReleasesTheChannel ch b u s hc hI hq h hb hu
    rw [exec_detach_bound hc hq hb h] at hexec hexec'
    obtain rfl := Host.Outcome.next.inj hexec
    obtain rfl := Host.Outcome.next.inj hexec'
    exact ⟨(detachAtomic_env s ch).trans hq, detachAtomic_cfg s ch, hchan⟩

/-- Settles O39: an unattached channel's DETACH only answers, and a DETACH leaves its channel unattached. -/
theorem detachTwiceIsDetachOnce : Obligations.DetachTwiceIsDetachOnce := by
  refine ⟨fun ch s hq h hp => exec_detach_unattached hq h hp, fun ch s t hc hI hq h hexec => ?_⟩
  obtain ⟨hqt, hcfg, hchan⟩ := exec_detach_ends hc hI hq h hexec
  exact exec_detach_unattached hqt (hcfg ▸ h) (by rw [hchan])

/-! WRITE. -/

/-- Settles O40: WRITE is the context update and one compare write of the count (`exec_write_bound`). -/
theorem writeMovesTheServo : Obligations.WriteMovesTheServo := by
  intro ch angle b u s hc hI hq h hb hu hk
  obtain ⟨hmem, hcmp⟩ := binding_unit_mem hc hb hu
  have hlen := chan_lt hI h
  have hcore := wideAtomic_core s u b.cmpReg (countReg s.cfg u ((s.chan ch).pulse angle))
  obtain ⟨hchans, hrefcnt, hcfg, hcpc, hfree⟩ := hcore
  have hexec := exec_write_bound hc hq hb hu h hk angle
  rw [wideAtomic_setChan] at hexec
  have hreg : ((s.wideAtomic u b.cmpReg (countReg s.cfg u ((s.chan ch).pulse angle))).reg b.cmpReg).toNat =
      us2cntF s.cfg u ((s.chan ch).pulse angle) := wideAtomic_count_reg hc hmem hcmp _
  refine ⟨_, hexec, ?_, fun c hne => ?_, hrefcnt, ?_, fun l hl => ?_, fun a ha hl => ?_, ?_, hcfg,
    wideAtomic_stream s u _ _, hcpc, hfree⟩
  · rw [answer_chan, State.setChan_chan_same (by rwa [hchans]), Channel.written, clamp_eq hk.le]
  · rw [answer_chan, State.setChan_chan_other hne, SameCore.chan (wideAtomic_core s u _ _)]
  · rw [answer_reg, State.setChan_reg, hreg, pulse_eq hk]
  · simp only [answer_reg, State.setChan_reg, hreg]
    exact wideAtomic_count_latch hc hmem hcmp hl _
  · exact wideAtomic_reg_other s ha hl _
  · simp only [answer_log, answer_reg, State.setChan_log, State.setChan_reg, hreg]
    rw [wideAtomic_count_log hc hmem, List.append_assoc]
    rfl

/-- The free values change no register but the bound compare register and the unit's latch (R135; log 5). -/
theorem freeRegs_reg_other {u : UnitCfg} {b : Binding} {a : RegAddr} (ha : a ≠ b.cmpReg) (hl : u.hlatch ≠ some a) :
    (freeRegs u b s).reg a = s.reg a := by
  have hne : a.toNat ≠ b.cmpReg.toNat := fun e => ha (BitVec.eq_of_toNat_eq e)
  unfold freeRegs
  split
  · rename_i l _ hlatch
    have hne' : a.toNat ≠ l.toNat := fun e => hl (by rw [hlatch, BitVec.eq_of_toNat_eq e])
    simp only [State.reg, State.emit_regs, Memory.read_write_other _ hne, Memory.read_write_other _ hne']
  · simp only [State.reg, State.emit_regs, Memory.read_write_other _ hne]

/-- Settles O45: the effect is `unspecifiedWrite` (`exec_write_violated`), which changes the named context and the two
registers; the contract is the one that `strictExec` tests. -/
theorem writeOutsideTheContract : Obligations.WriteOutsideTheContract := by
  intro ch angle b u s hc hI hq h hb hu hk
  have hnot : ¬ raw (s.chan ch).minAngle < raw (s.chan ch).maxAngle := not_lt.2 hk
  have hatt := attached_of_bound hc hb
  have hbroken : contractKeptBy (.write ch angle) s = false := by simp [contractKeptBy, hatt, Channel.contractKept, hnot]
  have hcore := freeRegs_core u b s
  have hrefcnt := hcore.refcnt
  have hlen : ch.toNat < (freeRegs u b s).chans.length := by rw [hcore.chans]; exact chan_lt hI h
  have hkeeps := freeRegs_keeps (s := s) (P := fun e => ∃ a, e = .unspecified a ∧ (a = b.cmpReg ∨ u.hlatch = some a))
    fun a ha => ⟨a, rfl, ha⟩
  obtain ⟨es, hlog, hes⟩ := hkeeps.log
  have hstream : (freeRegs u b s).stream = s.stream := by unfold freeRegs; split <;> rfl
  refine ⟨_, exec_write_violated hc hq hb hu h hnot angle, ⟨_, _, State.setChan_chan_same hlen _⟩, fun c hne => ?_,
    hrefcnt, fun a ha hl => freeRegs_reg_other ha hl, ⟨es, ?_, hes⟩, hkeeps.cfg, hstream, hkeeps.cpc,
    strictExec_broken hbroken⟩
  · exact (State.setChan_chan_other hne _).trans (hcore.chan c)
  · exact congrArg (· ++ [Event.respond okResponse]) hlog

end Sys2Proof.Machine
end

section
/-! PROOFS. ATTACH and ATTACHX of a supported pin with a quiet outside (spec/43_channel.md R131 to R133). -/

namespace Sys2Proof.Machine

variable {s t : State} {ch pin : Byte} {b : Binding} {u : UnitCfg} {k : Calibration} {i : Instr}

/-! Before the channel is bound: the unit's settings, if it is the first, and the pin's patch (R131 step 3). -/

/-- The state in which the unit is configured. -/
def readied (s : State) (b : Binding) (u : UnitCfg) : State := if s.configured b.unit then s else s.configureAtomic u

/-- The state in which the pin's patch is applied too. -/
def prepared (s : State) (b : Binding) (u : UnitCfg) : State := (readied s b u).rmwAtomic b.patch

theorem readied_configured (h : s.refcount b.unit ≠ 0) : readied s b u = s := if_pos (bne_iff_ne.2 h)

theorem readied_first (h : s.refcount b.unit = 0) : readied s b u = s.configureAtomic u :=
  if_neg (by simp [State.configured, h])

theorem readied_core (s : State) (b : Binding) (u : UnitCfg) : SameCore s (readied s b u) := by
  unfold readied
  split
  · exact .refl s
  · exact configureAtomic_core s u

theorem readied_stream (s : State) (b : Binding) (u : UnitCfg) : (readied s b u).stream = s.stream := by
  unfold readied
  split
  · rfl
  · exact configureAtomic_stream s u

theorem readied_inv (hI : s.Inv) : (readied s b u).Inv := by
  unfold readied
  split
  · exact hI
  · exact configureAtomic_inv hI u

theorem readied_log (hc : s.cfg.WellFormed) (hu : u ∈ s.cfg.units) : ∃ es, (readied s b u).log = s.log ++ es := by
  unfold readied
  split
  · exact ⟨[], by simp⟩
  · exact ⟨_, by rw [configureAtomic_log hc hu, List.append_assoc]⟩

/-- A patch touches registers and history only. -/
theorem rmwAtomic_core (s : State) (p : Patch) : SameCore s (s.rmwAtomic p) := ⟨rfl, rfl, rfl, rfl, rfl⟩

theorem prepared_core (s : State) (b : Binding) (u : UnitCfg) : SameCore s (prepared s b u) :=
  (readied_core s b u).trans (rmwAtomic_core _ b.patch)

theorem prepared_stream (s : State) (b : Binding) (u : UnitCfg) : (prepared s b u).stream = s.stream := by
  rw [prepared, rmwAtomic_stream, readied_stream]

theorem prepared_inv (hI : s.Inv) : (prepared s b u).Inv := rmwAtomic_inv (readied_inv hI) b.patch

/-- Only the patch's register, and those of the settings that were applied, can change (R131). -/
theorem prepared_reg_other {a : RegAddr} (ha : a ≠ b.patch.reg)
    (hfirst : s.refcount b.unit = 0 →
      a ∉ (u.wgmPatches ++ u.prescPatches).map (·.reg) ∧ a ≠ u.topReg ∧ u.hlatch ≠ some a) :
    (prepared s b u).reg a = s.reg a := by
  rw [prepared, rmwAtomic_reg_other _ _ ha]
  by_cases h0 : s.refcount b.unit = 0
  · obtain ⟨h1, h2, h3⟩ := hfirst h0
    rw [readied_first h0, configureAtomic_reg_other h1 h2 h3]
  · rw [readied_configured h0]

theorem prepared_log (s : State) (b : Binding) (u : UnitCfg) : (prepared s b u).log = (readied s b u).log ++
    [Event.rd b.patch.reg ((readied s b u).reg8 b.patch.reg),
      Event.wr8 b.patch.reg (patched b.patch ((readied s b u).reg8 b.patch.reg))] := by
  rw [prepared, rmwAtomic_log, List.append_assoc]
  rfl

section WellFormed
variable (hc : s.cfg.WellFormed) (hb : lookup s.cfg pin = some b)
include hc hb

theorem readied_patch_mode : regKind (readied s b u).cfg b.patch.reg = some .mode := by
  rw [(readied_core s b u).cfg]
  exact lookup_patch hc hb

/-- After the patch the pin's mode field holds its value (40_pinmap R96). -/
theorem prepared_field : (prepared s b u).reg8 b.patch.reg &&& b.patch.mask = b.patch.value := by
  have hholds := foldl_rmw_holds (ps := [b.patch]) (s := readied s b u) (p := b.patch)
    (by simpa using readied_patch_mode hc hb) (List.pairwise_singleton _ _) (by simpa using binding_value hc hb)
  exact hholds (by simp)

variable (hu : u ∈ s.cfg.units)
include hu

/-- In a mode register the bits outside the masks that were applied are as before (20_memory R56). -/
theorem prepared_bit_other {a : RegAddr} (ha : a ∉ s.cfg.dataRegs) {n : Nat}
    (hpatch : b.patch.reg = a → b.patch.mask.getLsbD n = false)
    (hfirst : s.refcount b.unit = 0 → ∀ p ∈ u.wgmPatches ++ u.prescPatches, p.reg = a → p.mask.getLsbD n = false) :
    ((prepared s b u).reg8 a).getLsbD n = (s.reg8 a).getLsbD n := by
  have hstep : ((prepared s b u).reg8 a).getLsbD n = ((readied s b u).reg8 a).getLsbD n := by
    rw [prepared, rmwAtomic_bit (readied_patch_mode hc hb)]
    refine if_neg fun ⟨hreg, hmask⟩ => ?_
    rw [hpatch hreg.symm] at hmask
    cases hmask
  rw [hstep]
  by_cases h0 : s.refcount b.unit = 0
  · rw [readied_first h0, configureAtomic_bit_other hc hu ha (hfirst h0)]
  · rw [readied_configured h0]

/-- No compare register of any unit is written (R131). -/
theorem prepared_cmpReg {v : UnitCfg} (hv : v ∈ s.cfg.units) {a : RegAddr} (ha : a ∈ v.cmpRegs) :
    (prepared s b u).reg a = s.reg a := by
  refine prepared_reg_other ?_ fun _ => ?_
  · rintro rfl
    exact regKind_mode_not_data (lookup_patch hc hb) (mem_dataRegs hv (.inr (.inl ha)))
  · exact ⟨fun h => settings_not_cmpReg hc hu hv (.inl h) ha, fun h => settings_not_cmpReg hc hu hv (.inr (.inl h)) ha,
      fun h => settings_not_cmpReg hc hu hv (.inr (.inr h)) ha⟩

end WellFormed

/-! Steps 3 to 7 (R131). -/

/-- An attach to a supported pin, step by step. -/
theorem attachBoundAtomic_eq (hu : unitCfg? s.cfg b.unit = some u) : s.attachBoundAtomic ch pin b k =
    ((bindChannel ch pin b k (prepared s b u)).emit (.gpioDir pin .output)).answer okResponse := by
  simp only [State.attachBoundAtomic, hu]
  rfl

theorem bindChannel_log (ch pin : Byte) (b : Binding) (k : Calibration) (s : State) :
    (bindChannel ch pin b k s).log = s.log := by simp only [bindChannel]; split <;> rfl

/-- Binding leaves configuration, stream, command index and free counter. -/
theorem bindChannel_frame (ch pin : Byte) (b : Binding) (k : Calibration) (s : State) :
    (bindChannel ch pin b k s).cfg = s.cfg ∧ (bindChannel ch pin b k s).stream = s.stream ∧
      (bindChannel ch pin b k s).cpc = s.cpc ∧ (bindChannel ch pin b k s).free = s.free := by
  simp only [bindChannel]; split <;> exact ⟨rfl, rfl, rfl, rfl⟩

/-- The one unit that counts a bound channel (10_state R41 clause 2). -/
theorem attached_bound {c : Config} (hc : c.WellFormed) {x : Channel} (hb : lookup c x.pin = some b) (unit : Byte) :
    State.Attached c unit x = true ↔ unit = b.unit := by
  rw [attached_iff, hb]
  exact ⟨fun ⟨_, _, e, he⟩ => by cases e; exact he.symm, fun e => ⟨pin_ne_zero hc hb, b, rfl, e.symm⟩⟩

theorem not_attached {c : Config} {x : Channel} (hp : x.pin = 0) (unit : Byte) : State.Attached c unit x = false := by
  rw [State.Attached, attached_eq_false hp, Bool.false_and]

section Bound
variable (hu : unitCfg? s.cfg b.unit = some u)
include hu

theorem attachBoundAtomic_reg (a : RegAddr) : (s.attachBoundAtomic ch pin b k).reg a = (prepared s b u).reg a := by
  rw [attachBoundAtomic_eq hu, answer_reg, State.emit_reg, bindChannel_reg]

theorem attachBoundAtomic_reg8 (a : RegAddr) : (s.attachBoundAtomic ch pin b k).reg8 a = (prepared s b u).reg8 a := by
  rw [State.reg8, State.reg8, attachBoundAtomic_reg hu]

theorem attachBoundAtomic_log : (s.attachBoundAtomic ch pin b k).log =
    (prepared s b u).log ++ [Event.gpioDir pin .output, .respond okResponse] := by
  rw [attachBoundAtomic_eq hu, answer_log, State.emit_log, bindChannel_log, List.append_assoc]
  rfl

/-- On a configured unit an attach is one `Rmw` and one direction request (R141 clause 6). -/
theorem attachBoundAtomic_log_configured (hcnt : s.refcount b.unit ≠ 0) :
    (s.attachBoundAtomic ch pin b k).log = s.log ++
      [Event.rd b.patch.reg (s.reg8 b.patch.reg), Event.wr8 b.patch.reg (patched b.patch (s.reg8 b.patch.reg)),
        Event.gpioDir pin .output, .respond okResponse] := by
  rw [attachBoundAtomic_log hu, prepared_log, readied_configured hcnt, List.append_assoc]
  rfl

theorem attachBoundAtomic_chan_same (h : ch.toNat < s.chans.length) :
    (s.attachBoundAtomic ch pin b k).chan ch = { (s.chan ch).calibrated k with pin := pin } := by
  have hcore := prepared_core s b u
  rw [attachBoundAtomic_eq hu, answer_chan, State.emit_chan, bindChannel_chan_same (by rwa [hcore.chans]), hcore.chan]

theorem attachBoundAtomic_chan_other {c : Byte} (hne : c ≠ ch) :
    (s.attachBoundAtomic ch pin b k).chan c = s.chan c := by
  rw [attachBoundAtomic_eq hu, answer_chan, State.emit_chan, bindChannel_chan_other hne, (prepared_core s b u).chan]

theorem attachBoundAtomic_frame : (s.attachBoundAtomic ch pin b k).cfg = s.cfg ∧
    (s.attachBoundAtomic ch pin b k).stream = s.stream ∧ (s.attachBoundAtomic ch pin b k).cpc = s.cpc ∧
    (s.attachBoundAtomic ch pin b k).free = s.free := by
  obtain ⟨-, -, hcfg, hcpc, hfree⟩ := prepared_core s b u
  have hbind := bindChannel_frame ch pin b k (prepared s b u)
  rw [attachBoundAtomic_eq hu]
  generalize bindChannel ch pin b k (prepared s b u) = t at hbind
  obtain ⟨hcfg', hstream', hcpc', hfree'⟩ := hbind
  exact ⟨hcfg'.trans hcfg, hstream'.trans (prepared_stream s b u), hcpc'.trans hcpc, hfree'.trans hfree⟩

/-- The counters after an attach by a channel that is unattached or on the pin already: the unit counts it once. -/
theorem attachBoundAtomic_refcount (hc : s.cfg.WellFormed) (hI : s.Inv) (h : ch.toNat < s.cfg.nch)
    (hb : lookup s.cfg pin = some b) (hpin : (s.chan ch).pin = 0 ∨ (s.chan ch).pin = pin) (x : Byte) :
    (s.attachBoundAtomic ch pin b k).refcount x + (if State.Attached s.cfg x (s.chan ch) then 1 else 0)
      = s.refcount x + (if x = b.unit then 1 else 0) := by
  have hcore := prepared_core s b u
  rw [attachBoundAtomic_eq hu, answer_refcount, State.emit_refcount, ← hcore.refcount]
  rcases hpin with hp | hp
  · rw [not_attached hp]
    by_cases hx : x = b.unit
    · rw [hx, bindChannel_refcount_new (by rw [hcore.cfg]; exact hc) (prepared_inv hI) (by rw [hcore.cfg]; exact h)
        (by rw [hcore.cfg]; exact hb) (by rw [hcore.chan]; exact hp)]
      simp
    · rw [bindChannel_refcount_other hx, if_neg hx]
      simp
  · rw [bindChannel_refcount_held (by rw [hcore.chan]; exact hp)]
    simp only [attached_bound hc (hp ▸ hb)]

end Bound

/-! Step 1 (R131). -/

/-- The counters after `DetachCore`: the channel's unit no longer counts it. -/
theorem detachAtomic_refcount (hc : s.cfg.WellFormed) (hI : s.Inv) (h : ch.toNat < s.cfg.nch)
    (hb : lookup s.cfg (s.chan ch).pin = some b) (x : Byte) :
    (s.detachAtomic ch).refcount x + (if x = b.unit then 1 else 0) = s.refcount x := by
  obtain ⟨u, hu, -⟩ := lookup_unit hc hb
  have hcore := released_core s (s.chan ch).pin u b
  rw [detachAtomic_bound hb hu, ← hcore.refcount]
  by_cases hx : x = b.unit
  · rw [if_pos hx, hx]
    exact unbind_refcount_same (by rw [hcore.cfg]; exact hc) (released_inv hI) (by rw [hcore.cfg]; exact h)
      (by rw [hcore.cfg, hcore.chan]; exact hb)
  · rw [if_neg hx, unbind_refcount_other hx]
    rfl

theorem detachAtomic_chan_same (hI : s.Inv) (h : ch.toNat < s.cfg.nch) (hb : lookup s.cfg (s.chan ch).pin = some b)
    (hu : unitCfg? s.cfg b.unit = some u) : (s.detachAtomic ch).chan ch = { s.chan ch with pin := 0 } := by
  have hcore := released_core s (s.chan ch).pin u b
  rw [detachAtomic_bound hb hu, unbind_chan_same (by rw [hcore.chans]; exact chan_lt hI h), hcore.chan]

theorem detachAtomic_chan_other (hb : lookup s.cfg (s.chan ch).pin = some b) (hu : unitCfg? s.cfg b.unit = some u) {c : Byte}
    (hne : c ≠ ch) : (s.detachAtomic ch).chan c = s.chan c := by
  rw [detachAtomic_bound hb hu, unbind_chan_other hne, (released_core s _ u b).chan]

theorem detachAtomic_reg_other (hb : lookup s.cfg (s.chan ch).pin = some b) (hu : unitCfg? s.cfg b.unit = some u) {a : RegAddr}
    (ha : a ≠ b.cmpReg) (hl : u.hlatch ≠ some a) : (s.detachAtomic ch).reg a = s.reg a := by
  rw [detachAtomic_bound hb hu, unbind_reg, released_reg_other ha hl]

/-- `DetachCore` leaves stream, command index and free counter. -/
theorem detachAtomic_frame (hb : lookup s.cfg (s.chan ch).pin = some b) (hu : unitCfg? s.cfg b.unit = some u) :
    (s.detachAtomic ch).stream = s.stream ∧ (s.detachAtomic ch).cpc = s.cpc ∧ (s.detachAtomic ch).free = s.free := by
  obtain ⟨-, -, -, hcpc, hfree⟩ := released_core s (s.chan ch).pin u b
  rw [detachAtomic_bound hb hu]
  exact ⟨released_stream s (s.chan ch).pin u b, hcpc, hfree⟩

theorem detachAtomic_log (hc : s.cfg.WellFormed) (hb : lookup s.cfg (s.chan ch).pin = some b)
    (hu : unitCfg? s.cfg b.unit = some u) :
    (s.detachAtomic ch).log = s.log ++ [Event.compareWrite u b.cmpReg 0, .gpioDir (s.chan ch).pin .input] := by
  rw [detachAtomic_bound hb hu, unbind_log, released_log hc (binding_unit_mem hc hb hu).1]

theorem attachAtomic_here (hb : lookup s.cfg pin = some b) (hpin : (s.chan ch).pin = 0 ∨ (s.chan ch).pin = pin) :
    s.attachAtomic ch pin k = s.attachBoundAtomic ch pin b k := by
  have helse : (s.chan ch).attachedElsewhere pin = false := by
    rw [← Bool.not_eq_true, attachedElsewhere_iff]
    exact fun ⟨h0, h1⟩ => hpin.elim h0 h1
  simp [State.attachAtomic, helse, hb]

theorem attachAtomic_elsewhere (hb : lookup s.cfg pin = some b) (h0 : (s.chan ch).pin ≠ 0) (h1 : (s.chan ch).pin ≠ pin) :
    s.attachAtomic ch pin k = (s.detachAtomic ch).attachBoundAtomic ch pin b k := by
  have helse : (s.chan ch).attachedElsewhere pin = true := (attachedElsewhere_iff _ _).2 ⟨h0, h1⟩
  simp [State.attachAtomic, helse, hb]

/-! The commands. -/

/-- Both attach commands are `AttachCore` with the calibration that they apply (R132, R133). -/
theorem exec_attach_calibrated (hc : s.cfg.WellFormed) (hI : s.Inv) (hq : s.Quiet) (h : ch.toNat < s.cfg.nch)
    (hcmd : i = .attachx ch pin k.minAngle k.maxAngle k.minUs k.maxUs ∨
      i = .attach ch pin ∧ k = (s.chan ch).calibration) : exec i s = .next (s.attachAtomic ch pin k) := by
  rcases hcmd with rfl | ⟨rfl, rfl⟩
  · exact exec_attachx_quiet hc hI hq h pin k
  · exact exec_attach_stored_quiet hc hI hq h pin

/-- A channel on a pin of the unit keeps the unit's counter from being zero (10_state R41 clause 2). -/
theorem refcount_ne_zero (hc : s.cfg.WellFormed) (hI : s.Inv) (h : ch.toNat < s.cfg.nch)
    (hb : lookup s.cfg (s.chan ch).pin = some b) : s.refcount b.unit ≠ 0 := by
  rw [refcount_eq hI.2.2.1 (unit_lt hc hb)]
  exact (attachedTo_pos (chan_lt hI h) ((attached_iff _ _ _).2 ⟨pin_ne_zero hc hb, b, hb, rfl⟩)).ne'

/-- Settles O37: the unit is configured, so the history is that of one patch and one request. -/
theorem attachOnSharedUnit : Obligations.AttachOnSharedUnit := by
  intro ch pin b i s hc hI hq h hb hp hcnt hcmd
  obtain ⟨k, hexec⟩ := exec_attach_quiet hc hI hq h hcmd
  obtain ⟨u, hu, -⟩ := lookup_unit hc hb
  rw [attachAtomic_here hb (.inl hp)] at hexec
  exact ⟨_, hexec, eventsTo_eq (attachBoundAtomic_log_configured hu hcnt)⟩

/-- Settles O36: the channel itself is counted, so the unit is configured; binding a channel to the pin that it holds stores
the calibration only. -/
theorem reattachToTheSamePin : Obligations.ReattachToTheSamePin := by
  intro ch pin k b i s hc hI hq h hb hpin hcmd
  obtain ⟨u, hu, -⟩ := lookup_unit hc hb
  have hexec := exec_attach_calibrated hc hI hq h hcmd
  have hcnt : s.refcount b.unit ≠ 0 := refcount_ne_zero hc hI h (by rw [hpin]; exact hb)
  rw [attachAtomic_here hb (.inr hpin)] at hexec
  refine ⟨_, hexec, ?_, fun c hne => attachBoundAtomic_chan_other hu hne, ?_,
    attachBoundAtomic_log_configured hu hcnt, fun a ha => ?_⟩
  · rw [attachBoundAtomic_chan_same hu (chan_lt hI h), ← hpin]
    rfl
  · have hcore := prepared_core s b u
    have hheld : (((prepared s b u).chan ch).calibrated k).pin = pin := (congrArg Channel.pin (hcore.chan ch)).trans hpin
    rw [attachBoundAtomic_eq hu]
    simp only [bindChannel, hheld, if_true]
    exact hcore.refcnt
  · rw [attachBoundAtomic_reg hu]
    exact prepared_reg_other ha fun h0 => absurd h0 hcnt

/-- A mode register holds no data (20_memory R50). -/
theorem modeReg_not_data {c : Config} (hc : c.WellFormed) {a : RegAddr} (ha : a ∈ c.modeRegs) : a ∉ c.dataRegs := by
  obtain ⟨p, hp, rfl⟩ := List.mem_map.1 ha
  rcases List.mem_append.1 hp with hp | hp
  · exact unitPatch_not_data hc hp
  · obtain ⟨r, hr, rfl⟩ := List.mem_map.1 hp
    obtain ⟨-, -, -, hbindings, -⟩ := hc
    exact (hbindings r hr).2

/-- Settles O33: the registers are those of `prepared`. -/
theorem attachRegisterFrame : Obligations.AttachRegisterFrame := by
  intro ch pin b u i s t hc hI hq h hb hu hpin hcmd hexec
  obtain ⟨k, hexec'⟩ := exec_attach_quiet hc hI hq h hcmd
  rw [hexec', attachAtomic_here hb hpin] at hexec
  obtain rfl := Host.Outcome.next.inj hexec
  have hmem := (unitCfg?_some hu).1
  refine ⟨fun a ha hfirst => ?_, fun v hv a ha => ?_, fun a ha n _ hpatch hfirst => ?_⟩
  · rw [attachBoundAtomic_reg hu, prepared_reg_other ha hfirst]
  · rw [attachBoundAtomic_reg hu, prepared_cmpReg hc hb hmem hv ha]
  · rw [attachBoundAtomic_reg8 hu, prepared_bit_other hc hb hmem (modeReg_not_data hc ha) hpatch hfirst]

/-- Steps 3 to 7 bind a channel that is unattached or on the pin already (R131). -/
theorem attachBoundAtomic_binds (hc : s.cfg.WellFormed) (hI : s.Inv) (h : ch.toNat < s.cfg.nch)
    (hb : lookup s.cfg pin = some b) (hpin : (s.chan ch).pin = 0 ∨ (s.chan ch).pin = pin) :
    (s.attachBoundAtomic ch pin b k).chan ch = { (s.chan ch).calibrated k with pin := pin } ∧
    (∀ c : Byte, c ≠ ch → (s.attachBoundAtomic ch pin b k).chan c = s.chan c) ∧
    (∀ x : Byte, (s.attachBoundAtomic ch pin b k).refcount x + (if State.Attached s.cfg x (s.chan ch) then 1 else 0)
      = s.refcount x + (if x = b.unit then 1 else 0)) ∧
    (s.attachBoundAtomic ch pin b k).reg8 b.patch.reg &&& b.patch.mask = b.patch.value ∧
    (∃ es, (s.attachBoundAtomic ch pin b k).log = s.log ++ es ++ [Event.gpioDir pin .output, .respond okResponse]) ∧
    (s.attachBoundAtomic ch pin b k).cfg = s.cfg ∧ (s.attachBoundAtomic ch pin b k).stream = s.stream ∧
    (s.attachBoundAtomic ch pin b k).cpc = s.cpc ∧ (s.attachBoundAtomic ch pin b k).free = s.free := by
  obtain ⟨u, hu, hmem, -⟩ := lookup_unit hc hb
  obtain ⟨es, hlog⟩ := readied_log (b := b) hc hmem
  refine ⟨attachBoundAtomic_chan_same hu (chan_lt hI h), fun c hne => attachBoundAtomic_chan_other hu hne,
    attachBoundAtomic_refcount hu hc hI h hb hpin, ?_, ?_, attachBoundAtomic_frame hu⟩
  · rw [attachBoundAtomic_reg8 hu, prepared_field hc hb]
  · exact ⟨_, by rw [attachBoundAtomic_log hu, prepared_log, hlog, List.append_assoc s.log]⟩

/-- Settles O32: a channel that is elsewhere goes through steps 3 to 7 from the state that `DetachCore` leaves, in which it is
unattached and not counted. -/
theorem attachBindsTheChannel : Obligations.AttachBindsTheChannel := by
  intro ch pin k b i s hc hI hq h hb hcmd
  have hexec := exec_attach_calibrated hc hI hq h hcmd
  refine ⟨_, hexec, ?_⟩
  by_cases hpin : (s.chan ch).pin = 0 ∨ (s.chan ch).pin = pin
  · rw [attachAtomic_here hb hpin]
    exact attachBoundAtomic_binds hc hI h hb hpin
  · obtain ⟨h0, h1⟩ := not_or.1 hpin
    obtain ⟨b0, hb0⟩ := bound_of_attached hI h h0
    obtain ⟨u0, hu0, -⟩ := lookup_unit hc hb0
    have hcfg := detachAtomic_cfg s ch
    have hself := detachAtomic_chan_same hI h hb0 hu0
    obtain ⟨hstream, hcpc, hfree⟩ := detachAtomic_frame hb0 hu0
    have hlog0 := detachAtomic_log hc hb0 hu0
    have hcount0 := detachAtomic_refcount hc hI h hb0
    have hothers0 := fun c => detachAtomic_chan_other (c := c) hb0 hu0
    have hIt := detachAtomic_inv hc hI h
    rw [attachAtomic_elsewhere hb h0 h1]
    generalize s.detachAtomic ch = t at *
    obtain ⟨hchan, hothers, hcounts, hfield, ⟨es, hlog⟩, hcfg', hstream', hcpc', hfree'⟩ :=
      attachBoundAtomic_binds (k := k) (hcfg ▸ hc) hIt (hcfg ▸ h) (hcfg ▸ hb) (.inl (congrArg Channel.pin hself))
    refine ⟨?_, fun c hne => (hothers c hne).trans (hothers0 c hne), fun x => ?_, hfield, ?_, hcfg'.trans hcfg,
      hstream'.trans hstream, hcpc'.trans hcpc, hfree'.trans hfree⟩
    · rw [hchan, hself]
      rfl
    · have hx := hcounts x
      rw [not_attached (congrArg Channel.pin hself), if_neg Bool.false_ne_true, Nat.add_zero] at hx
      simp only [hx, attached_bound hc hb0, ← hcount0 x]
      omega
    · exact ⟨_, by rw [hlog, hlog0, List.append_assoc s.log]; rfl⟩

/-- Settles O35: the old pin's registers and history are those of `DetachCore`; the rest is steps 3 to 7 from the state that
it leaves, which write no compare register. -/
theorem attachElsewhereDetachesFirst : Obligations.AttachElsewhereDetachesFirst := by
  intro ch pin b b0 u u0 i s hc hI hq h hb hu hpin hb0 hu0 hcmd
  obtain ⟨k, hexec⟩ := exec_attach_quiet hc hI hq h hcmd
  have h0 : (s.chan ch).pin ≠ 0 := pin_ne_zero hc hb0
  obtain ⟨hmem0, hcmp0⟩ := binding_unit_mem hc hb0 hu0
  have hmem := (unitCfg?_some hu).1
  have hcfg := detachAtomic_cfg s ch
  have hlog0 := detachAtomic_log hc hb0 hu0
  have hregs0 := fun a => detachAtomic_reg_other (a := a) hb0 hu0
  have hzero : (s.detachAtomic ch).reg b0.cmpReg = 0 := by
    rw [detachAtomic_bound hb0 hu0, unbind_reg, released_cmpReg hc hmem0 hcmp0]
  have hfirst : (s.detachAtomic ch).refcount b.unit = 0 → s.refcount b.unit = if b.unit = b0.unit then 1 else 0 := fun e => by
    rw [← detachAtomic_refcount hc hI h hb0, e, Nat.zero_add]
  have hself := detachAtomic_chan_same hI h hb0 hu0
  have hIt := detachAtomic_inv hc hI h
  rw [attachAtomic_elsewhere hb h0 hpin] at hexec
  refine ⟨_, hexec, ?_⟩
  generalize s.detachAtomic ch = t at *
  have hct : t.cfg.WellFormed := hcfg ▸ hc
  have hbt : lookup t.cfg pin = some b := hcfg ▸ hb
  have hut : unitCfg? t.cfg b.unit = some u := hcfg ▸ hu
  have hmemt : u ∈ t.cfg.units := hcfg ▸ hmem
  refine ⟨?_, fun a ha hl hpatch hset => ?_, fun a ha n hn hpatch hset => ?_, ?_⟩
  · rw [attachBoundAtomic_reg hut, prepared_cmpReg hct hbt hmemt (hcfg ▸ hmem0) hcmp0, hzero]
  · rw [attachBoundAtomic_reg hut, prepared_reg_other hpatch fun e => hset (hfirst e), hregs0 a ha hl]
  · have hdata := modeReg_not_data hc ha
    have hsame : t.reg8 a = s.reg8 a := by
      rw [State.reg8, hregs0 a (fun e => hdata (mem_dataRegs hmem0 (.inr (.inl (e ▸ hcmp0)))))
        fun e => hdata (mem_dataRegs hmem0 (.inr (.inr e)))]
      rfl
    rw [attachBoundAtomic_reg8 hut, prepared_bit_other hct hbt hmemt (hcfg ▸ hdata) hpatch fun e => hset (hfirst e), hsame]
  · obtain ⟨-, -, -, -, ⟨es, hlog⟩, -⟩ :=
      attachBoundAtomic_binds (k := k) hct hIt (hcfg ▸ h) hbt (.inl (congrArg Channel.pin hself))
    exact ⟨es, by rw [hlog, hlog0]; rfl⟩

end Sys2Proof.Machine
end

section
/-! PROOFS. The life of a channel (spec/43_channel.md R139, R141) with a quiet outside. -/

namespace Sys2Proof.Machine

variable {s t : State} {ch pin : Byte} {i : Instr}

/-- After an attach the channel is on the pin if it is supported, and unattached otherwise (R139). -/
theorem exec_attach_pin (hc : s.cfg.WellFormed) (hI : s.Inv) (hq : s.Quiet) (h : ch.toNat < s.cfg.nch)
    (hcmd : i = .attach ch pin ∨ ∃ lo hi ulo uhi, i = .attachx ch pin lo hi ulo uhi) (hexec : exec i s = .next t) :
    (t.chan ch).pin = if (lookup s.cfg pin).isSome then pin else 0 := by
  cases hb : lookup s.cfg pin with
  | none =>
    obtain ⟨t', hexec', hchan, -⟩ := attachToUnsupportedPin ch pin i s hc hI hq h hb hcmd
    obtain rfl : t' = t := Host.Outcome.next.inj (hexec'.symm.trans hexec)
    rw [hchan]
    rfl
  | some b =>
    have hcal : ∃ k : Calibration, i = .attachx ch pin k.minAngle k.maxAngle k.minUs k.maxUs ∨
        i = .attach ch pin ∧ k = (s.chan ch).calibration := by
      rcases hcmd with rfl | ⟨lo, hi, ulo, uhi, rfl⟩
      · exact ⟨_, .inr ⟨rfl, rfl⟩⟩
      · exact ⟨⟨lo, hi, ulo, uhi⟩, .inl rfl⟩
    obtain ⟨k, hk⟩ := hcal
    obtain ⟨t', hexec', hchan, -⟩ := attachBindsTheChannel ch pin k b i s hc hI hq h hb hk
    obtain rfl : t' = t := Host.Outcome.next.inj (hexec'.symm.trans hexec)
    rw [hchan]
    rfl

/-- Settles O56: an attach by `exec_attach_pin`, a DETACH by `exec_detach_ends`, and the other commands bind nothing. -/
theorem channelLifecycle : Obligations.ChannelLifecycle := by
  intro ch pin i x s t hc hI hq h hexec
  refine ⟨fun hcmd => exec_attach_pin hc hI hq h hcmd hexec, ?_, fun hcmd => ?_⟩
  · rintro rfl
    obtain ⟨-, -, hchan⟩ := exec_detach_ends hc hI hq h hexec
    rw [hchan]
  · have hbinds : binds i = false := by rcases hcmd with rfl | rfl | rfl | rfl <;> rfl
    exact ((exec_contexts hq hexec).of_not_binds hbinds).1 ch

/-- WRITE, WRITEUS and DETACH change no register but the bound compare register and a narrow unit's latch (R141 clause 5). -/
theorem pulse_reg_other (hc : s.cfg.WellFormed) (hI : s.Inv) (hq : s.Quiet) {x : Word}
    (hcmd : i = .write ch x ∨ i = .writeus ch x ∨ i = .detach ch) (hexec : exec i s = .next t) {a : RegAddr}
    (ha : ∀ b u, lookup s.cfg (s.chan ch).pin = some b → unitCfg? s.cfg b.unit = some u →
      a ≠ b.cmpReg ∧ u.hlatch ≠ some a) :
    t.reg a = s.reg a := by
  have hlegal : i.WellFormed s.cfg ↔ ch.toNat < s.cfg.nch := by
    rcases hcmd with rfl | rfl | rfl <;> exact legal_channel rfl rfl
  by_cases h : ch.toNat < s.cfg.nch
  · rcases unattached_or_bound hc hI h with ⟨-, hp⟩ | ⟨-, b, u, hb, hu, -⟩
    · have hanswer : exec i s = .next (s.answer okResponse) := by
        rcases hcmd with rfl | rfl | rfl
        · exact exec_write_unattached hq h hp x
        · exact exec_writeus_unattached hq h hp x
        · exact exec_detach_unattached hq h hp
      obtain rfl := Host.Outcome.next.inj (hanswer.symm.trans hexec)
      rfl
    · obtain ⟨hne, hl⟩ := ha b u hb hu
      rcases hcmd with rfl | rfl | rfl
      · by_cases hk : raw (s.chan ch).minAngle < raw (s.chan ch).maxAngle
        · obtain rfl := Host.Outcome.next.inj ((exec_write_bound hc hq hb hu h hk x).symm.trans hexec)
          exact wideAtomic_reg_other _ hne hl _
        · obtain rfl := Host.Outcome.next.inj ((exec_write_violated hc hq hb hu h hk x).symm.trans hexec)
          exact freeRegs_reg_other hne hl
      · obtain rfl := Host.Outcome.next.inj ((exec_writeus_bound hc hq hb hu h x).symm.trans hexec)
        exact wideAtomic_reg_other s hne hl _
      · obtain rfl := Host.Outcome.next.inj ((exec_detach_bound hc hq hb h).symm.trans hexec)
        exact detachAtomic_reg_other hb hu hne hl
  · have hanswer := illegalOperandsAnswered i s hq (mt hlegal.1 h)
    obtain rfl := Host.Outcome.next.inj (hanswer.symm.trans hexec)
    rfl

/-- An attach answers OK for a supported pin and UNSUPPORTED_PIN for another (R141 clause 1). -/
theorem answerTo_attach (h : ch.toNat < s.cfg.nch)
    (hcmd : i = .attach ch pin ∨ ∃ lo hi ulo uhi, i = .attachx ch pin lo hi ulo uhi) :
    answerTo i s = if (lookup s.cfg pin).isSome then okResponse else unsupportedPin := by
  rcases hcmd with rfl | ⟨lo, hi, ulo, uhi, rfl⟩ <;> exact if_pos ((legal_channel rfl rfl).2 h)

/-- Settles O60: clause by clause; clauses 2, 4 and 6 are statements of their own, clause 5 is `pulse_reg_other`, and clauses
1 and 3 run the second command in the state that the first one leaves. -/
theorem channelPropertiesHold : Obligations.ChannelPropertiesHold := by
  intro s hc hI hq
  constructor
  case attachAnswers =>
    intro ch pin i h hcmd
    obtain ⟨k, hexec⟩ := exec_attach_quiet hc hI hq h hcmd
    have hpin := exec_attach_pin hc hI hq h hcmd hexec
    have hqt := exec_stays_quiet hq hexec
    have hcfg := (exec_keeps hexec).cfg
    obtain ⟨t1, -, hkeeps, ht⟩ := exec_quiet_inv hq hexec
    obtain ⟨es, hlog, -⟩ := hkeeps.log
    refine ⟨_, es, hexec, ?_, ?_⟩
    · rw [ht, answer_log, hlog, answerTo_attach h hcmd]
    · rw [exec_attached_quiet hqt (hcfg ▸ h), attachedData_eq, hpin]
      cases hb : lookup s.cfg pin with
      | none => rfl
      | some b =>
        simp only [Option.isSome_some, if_true, if_pos (pin_ne_zero hc hb)]
        rfl
  case writeClamps => exact fun ch a a' => writeDependsOnTheClampedAngle ch a a' s
  case detachKeepsTheAngle =>
    intro ch t h hexec
    obtain ⟨hqt, hcfg, hchan⟩ := exec_detach_ends hc hI hq h hexec
    have ht : ch.toNat < t.cfg.nch := hcfg ▸ h
    have hread := exec_read_quiet hqt ht
    refine ⟨?_, _, exec_read_quiet hq h, ?_⟩
    · rw [exec_attached_quiet hqt ht, hchan]
      rfl
    · rw [hread, hchan]
      rfl
  case detachTwice => exact fun ch t h hexec => detachTwiceIsDetachOnce.2 ch s t hc hI hq h hexec
  case pulseFrame => exact fun ch x i t hcmd hexec a ha => pulse_reg_other hc hI hq hcmd hexec ha
  case sharedUnitAttach => exact fun ch pin b i h hb hp hcnt hcmd => attachOnSharedUnit ch pin b i s hc hI hq h hb hp hcnt hcmd

end Sys2Proof.Machine
end

section
/-! PROOFS. Units with attached channels hold their configured fields (spec/10_state.md R41 clause 3). -/

namespace Sys2Proof.Machine

variable {s t : State} {ch pin : Byte} {b : Binding} {u v : UnitCfg} {k : Calibration} {i : Instr}

/-! What keeps a unit's fields. -/

section Units
variable (hc : s.cfg.WellFormed) (hv : v ∈ s.cfg.units)
include hc hv

/-- A unit's fields stand in no compare register and in no latch, of any unit. -/
theorem unitHolds_of_reg_eq
    (h : ∀ a : RegAddr, (∀ x ∈ s.cfg.units, a ∉ x.cmpRegs ∧ x.hlatch ≠ some a) → t.reg a = s.reg a)
    (hh : s.UnitHolds v) : t.UnitHolds v := by
  refine unitHolds_congr (fun p hp => ?_) (h _ fun x hx => ?_) hh
  · rw [State.reg8, h p.reg fun x hx => ?_]
    · rfl
    · obtain ⟨-, hl, hcmp⟩ := patch_ne_data hc hx (mem_unitPatches hv hp)
      exact ⟨hcmp, hl⟩
  · obtain ⟨hcmp, hl, -⟩ := top_ne_data hc hv hx
    exact ⟨hcmp, hl⟩

/-- A pin's patch meets no unit's fields (00_scope R8 clause 5). -/
theorem rmwAtomic_unitHolds (hb : lookup s.cfg pin = some b) (hh : s.UnitHolds v) : (s.rmwAtomic b.patch).UnitHolds v := by
  have hk := lookup_patch hc hb
  refine unitHolds_congr (fun p hp => rmwAtomic_field hk (unit_pin_disjoint hc hb (mem_unitPatches hv hp))) ?_ hh
  refine rmwAtomic_reg_other s b.patch fun e => ?_
  exact regKind_mode_not_data hk (mem_dataRegs hv (.inl e.symm))

/-- `Configure` of one unit meets no other unit's fields (00_scope R8 clause 5, 20_memory R50). -/
theorem configureAtomic_unitHolds_other (hu : u ∈ s.cfg.units) (hne : v ≠ u) (hh : s.UnitHolds v) :
    (s.configureAtomic u).UnitHolds v := by
  have hk := unitPatches_mode hc hu
  obtain ⟨-, hlatch, htop⟩ := top_ne_data hc hv hu
  refine unitHolds_congr (fun p hp => ?_) ?_ hh
  · rw [configureAtomic_reg8_mode hu (unitPatch_not_data hc (mem_unitPatches hv hp)),
      foldl_rmw_field hk fun q hq => units_disjoint hc hv hu hne hp hq]
  · refine configureAtomic_reg_other (fun hmem => ?_) (htop hne) hlatch
    obtain ⟨p, hp, e⟩ := List.mem_map.1 hmem
    exact (patch_ne_data hc hv (mem_unitPatches hu hp)).1 e

end Units

/-- Where no counter leaves zero and every unit's fields are kept, clause 3 is kept. -/
theorem configuredUnitsHold_of (hcfg : t.cfg = s.cfg) (hcnt : ∀ x, t.refcount x ≠ 0 → s.refcount x ≠ 0)
    (hunits : ∀ v ∈ s.cfg.units, s.UnitHolds v → t.UnitHolds v) (hh : s.ConfiguredUnitsHold) : t.ConfiguredUnitsHold :=
  fun v hv hn => hunits v (hcfg ▸ hv) (hh v (hcfg ▸ hv) (hcnt v.id hn))

/-! The transitions. -/

section Transitions
variable (hc : s.cfg.WellFormed) (hh : s.ConfiguredUnitsHold)
include hc hh

theorem configureAtomic_configuredUnitsHold (hu : u ∈ s.cfg.units) : (s.configureAtomic u).ConfiguredUnitsHold := by
  have hcore := configureAtomic_core s u
  intro v hv hn
  rw [hcore.refcount] at hn
  rw [hcore.cfg] at hv
  by_cases hne : v = u
  · rw [hne]; exact configureAtomic_holds hc hu
  · exact configureAtomic_unitHolds_other hc hv hu hne (hh v hv hn)

/-- Before a channel is bound its unit holds its fields, whether it was configured before or is now (R131 step 3). -/
theorem prepared_unitHolds (hb : lookup s.cfg pin = some b) (hu : unitCfg? s.cfg b.unit = some u) (hv : v ∈ s.cfg.units)
    (hn : v = u ∨ s.refcount v.id ≠ 0) : (prepared s b u).UnitHolds v := by
  obtain ⟨hmem, hid⟩ := unitCfg?_some hu
  have hcfg := (readied_core s b u).cfg
  have hready : (readied s b u).UnitHolds v := by
    by_cases h0 : s.refcount b.unit = 0
    · rw [readied_first h0]
      by_cases hne : v = u
      · rw [hne]; exact configureAtomic_holds hc hmem
      · exact configureAtomic_unitHolds_other hc hv hmem hne (hh v hv (hn.resolve_left hne))
    · rw [readied_configured h0]
      exact hh v hv (hn.elim (fun e => by rw [e, hid]; exact h0) id)
  exact rmwAtomic_unitHolds (hcfg ▸ hc) (hcfg ▸ hv) (hcfg ▸ hb) hready

variable (hI : s.Inv) (h : ch.toNat < s.cfg.nch)
include hI h

theorem attachBoundAtomic_configuredUnitsHold (hb : lookup s.cfg pin = some b)
    (hpin : (s.chan ch).pin = 0 ∨ (s.chan ch).pin = pin) : (s.attachBoundAtomic ch pin b k).ConfiguredUnitsHold := by
  obtain ⟨u, hu, hmem, hid, -⟩ := lookup_unit hc hb
  intro v hv hn
  rw [(attachBoundAtomic_frame hu).1] at hv
  have hcount := attachBoundAtomic_refcount (k := k) hu hc hI h hb hpin v.id
  have hkept : v = u ∨ s.refcount v.id ≠ 0 := by
    by_cases hne : v.id = b.unit
    · exact .inl (unit_unique hc hv hmem (hne.trans hid.symm))
    · rw [if_neg hne] at hcount
      exact .inr (by omega)
  refine unitHolds_congr (fun p _ => ?_) (attachBoundAtomic_reg hu _) (prepared_unitHolds hc hh hb hu hv hkept)
  rw [attachBoundAtomic_reg8 hu]

theorem detachAtomic_configuredUnitsHold (hb : lookup s.cfg (s.chan ch).pin = some b) :
    (s.detachAtomic ch).ConfiguredUnitsHold := by
  obtain ⟨u, hu, hmem, -, hcmp⟩ := lookup_unit hc hb
  refine configuredUnitsHold_of (detachAtomic_cfg s ch) (fun x hn => ?_) (fun v hv => unitHolds_of_reg_eq hc hv fun a ha => ?_) hh
  · have hcount := detachAtomic_refcount hc hI h hb x
    omega
  · exact detachAtomic_reg_other hb hu (fun e => (ha u hmem).1 (e ▸ hcmp)) (ha u hmem).2

theorem attachAtomic_configuredUnitsHold : (s.attachAtomic ch pin k).ConfiguredUnitsHold := by
  have hcfg := detachAtomic_cfg s ch
  cases hb : lookup s.cfg pin with
  | none =>
    rw [attachAtomic_unsupported hc hI h hb]
    rcases unattached_or_bound hc hI h with ⟨-, hp⟩ | ⟨-, b0, u0, hb0, -⟩
    · rw [detachAtomic_unattached hc hp]
      exact hh
    · exact detachAtomic_configuredUnitsHold hc hh hI h hb0
  | some b =>
    by_cases hpin : (s.chan ch).pin = 0 ∨ (s.chan ch).pin = pin
    · rw [attachAtomic_here hb hpin]
      exact attachBoundAtomic_configuredUnitsHold hc hh hI h hb hpin
    · obtain ⟨h0, h1⟩ := not_or.1 hpin
      obtain ⟨b0, hb0⟩ := bound_of_attached hI h h0
      obtain ⟨u0, hu0, -⟩ := lookup_unit hc hb0
      have hself := detachAtomic_chan_same hI h hb0 hu0
      rw [attachAtomic_elsewhere hb h0 h1]
      exact attachBoundAtomic_configuredUnitsHold (hcfg ▸ hc) (detachAtomic_configuredUnitsHold hc hh hI h hb0)
        (detachAtomic_inv hc hI h) (hcfg ▸ h) (hcfg ▸ hb) (.inl (congrArg Channel.pin hself))

end Transitions

/-! The commands. -/

/-- WRITE and WRITEUS change no counter, and no register that holds a unit's fields. -/
theorem exec_write_configuredUnitsHold (hc : s.cfg.WellFormed) (hI : s.Inv) (hq : s.Quiet) (hh : s.ConfiguredUnitsHold)
    {x : Word} (hcmd : i = .write ch x ∨ i = .writeus ch x) (hexec : exec i s = .next t) : t.ConfiguredUnitsHold := by
  have hbinds : binds i = false := by rcases hcmd with rfl | rfl <;> rfl
  have hcounters := ((exec_contexts hq hexec).of_not_binds hbinds).2
  refine configuredUnitsHold_of (exec_keeps hexec).cfg (fun y hn => ?_)
    (fun v hv => unitHolds_of_reg_eq hc hv fun a ha => ?_) hh
  · rwa [State.refcount, hcounters] at hn
  · refine pulse_reg_other hc hI hq (x := x) (hcmd.imp_right .inl) hexec fun b u hb hu => ?_
    obtain ⟨hmem, hcmp⟩ := binding_unit_mem hc hb hu
    exact ⟨fun e => (ha u hmem).1 (e ▸ hcmp), (ha u hmem).2⟩

/-- The commands that only answer change no counter and no register. -/
theorem answering_configuredUnitsHold (hc : s.cfg.WellFormed) (hq : s.Quiet) (hh : s.ConfiguredUnitsHold)
    (hcmd : (∃ pin, i = .lookup pin) ∨ (∃ a lo hi ulo uhi, i = .a2us a lo hi ulo uhi) ∨ (∃ u us, i = .us2cnt u us) ∨
      (∃ ch, i = .read ch) ∨ ∃ ch, i = .attached ch) (hexec : exec i s = .next t) : t.ConfiguredUnitsHold := by
  obtain ⟨-, hcnt, hregs, -⟩ := answeringCommandsChangeNothing i s t hq hexec hcmd
  refine configuredUnitsHold_of (exec_keeps hexec).cfg (fun x hn => ?_)
    (fun v hv => unitHolds_of_reg_eq hc hv fun a _ => ?_) hh
  · rwa [State.refcount, hcnt] at hn
  · rw [State.reg, hregs]
    rfl

/-- A command keeps clause 3 with a quiet outside. -/
theorem exec_configuredUnitsHold (hc : s.cfg.WellFormed) (hI : s.Inv) (hq : s.Quiet) (hh : s.ConfiguredUnitsHold)
    (hexec : exec i s = .next t) : t.ConfiguredUnitsHold := by
  by_cases hlegal : i.WellFormed s.cfg
  · have hanswers := fun hcmd => answering_configuredUnitsHold hc hq hh hcmd hexec
    have hatomic := (commandsAreAtomicTransitions i s hc hI hq).symm.trans hexec
    rw [State.atomic, if_pos hlegal] at hatomic
    have ht := Host.Outcome.next.inj hatomic
    cases i with
    | lookup pin => exact hanswers (.inl ⟨pin, rfl⟩)
    | a2us a lo hi ulo uhi => exact hanswers (.inr (.inl ⟨a, lo, hi, ulo, uhi, rfl⟩))
    | us2cnt unit us => exact hanswers (.inr (.inr (.inl ⟨unit, us, rfl⟩)))
    | read ch => exact hanswers (.inr (.inr (.inr (.inl ⟨ch, rfl⟩))))
    | attached ch => exact hanswers (.inr (.inr (.inr (.inr ⟨ch, rfl⟩))))
    | configure unit =>
      obtain ⟨u, hu⟩ := (legal_unit rfl rfl).1 hlegal
      simp only [State.commandAtomic, hu] at ht
      rw [← ht]
      exact configureAtomic_configuredUnitsHold hc hh (unitCfg?_some hu).1
    | attach | attachx =>
      rw [← ht]
      exact attachAtomic_configuredUnitsHold hc hh hI ((legal_channel rfl rfl).1 hlegal)
    | detach ch =>
      have h := (legal_channel (i := .detach ch) rfl rfl).1 hlegal
      rw [← ht]
      rcases unattached_or_bound hc hI h with ⟨hun, -⟩ | ⟨hatt, b, u, hb, -⟩
      · simp only [State.commandAtomic, hun]
        exact hh
      · simp only [State.commandAtomic, hatt, if_true]
        exact detachAtomic_configuredUnitsHold hc hh hI h hb
    | write ch a => exact exec_write_configuredUnitsHold hc hI hq hh (.inl rfl) hexec
    | writeus ch us => exact exec_write_configuredUnitsHold hc hI hq hh (.inr rfl) hexec
  · have hanswer := illegalOperandsAnswered i s hq hlegal
    obtain rfl := Host.Outcome.next.inj (hanswer.symm.trans hexec)
    exact hh

/-- Settles O51: with a quiet outside a step executes a command, or answers an illegal one, or does nothing. -/
theorem everyStepKeepsConfiguredUnits : Obligations.EveryStepKeepsConfiguredUnits := by
  intro s t hI hq hh hstep
  obtain ⟨hc, hended | ⟨u, hu, hcmd⟩⟩ := step_cases hstep
  · rw [idleSlot_quiet hq] at hended
    cases hended
  · rw [idleSlot_quiet hq] at hu
    obtain rfl := Except.ok.inj hu
    have hIn : ∀ n, (s.advance n).Inv := fun n => inv_congr rfl rfl rfl rfl hI
    rcases hcmd with ⟨i, n, -, hexec⟩ | ⟨why, n, -, hanswer⟩ | rfl
    · exact exec_configuredUnitsHold (s := s.advance n) hc (hIn n) hq hh hexec
    · obtain rfl := finish_respond_quiet (s := s.advance n) hq hanswer
      exact hh
    · exact hh

end Sys2Proof.Machine
end
